-- ==== Sys2Proof/Word.lean ====
section
/-! DEFINITION. The word types of the TriCore TC1.6.2P model. -/

namespace Sys2Proof

/-- A byte of memory (20_memory.md R80). -/
abbrev Byte := BitVec 8

/-- A halfword: the unit in which instructions are laid out (30_encoding.md R110). -/
abbrev Half := BitVec 16

/-- A register or memory word of 32 bits (00_scope.md R5, R9). -/
abbrev Word := BitVec 32

end Sys2Proof
end

