-- ==== Sys2Proof/Config.lean ====
section
/-! DEFINITION. What no rule fixes: the free values. -/

namespace Sys2Proof

/-- The free values: what an upper context register holds after a call, an interrupt entry or a trap
entry, where the spec says that reading it before writing it is undefined (10_state.md R32, U3; log 12).
It has no body, so nothing can be proved of any particular value; `State.freeCount` counts the values
used, so that no two uses are known to be equal. DESIGN CHOICE (log 12), safe. -/
opaque Config.freeWord : Nat → Word

end Sys2Proof
end

