-- ==== Sys2Proof/Machine/Parameters.lean ====
section
/-! DEFINITION. The parameters the platform or the loader fixes, as plain data (00_scope.md R6), and the
names of the core special function registers. -/

namespace Sys2Proof.Machine

/-- A range of addresses: `base` to `base + size - 1`. -/
structure Region where
  base : Nat
  size : Nat
deriving DecidableEq, Repr

/-- The core special function registers an address names (10_state.md R62). -/
inductive Csfr where
  | pcxi | psw | pc | syscon | cpuId | coreId | biv | btv | isp | icr | fcx | lcx
  | compat | pma0 | pma1 | pma2 | pcon0 | dcon0 | smacon | segen | tpsEntry | tpsExit
deriving DecidableEq, Repr

/-- Where the bits of a register lie in its word: entry `k` is the bit of the word in which bit `k` of the
value this model stores lies. -/
abbrev Places := Vector (Fin 32) 32

/-- Every bit in its own place. -/
def Places.identity : Places :=
  #v[0, 1, 2, 3, 4, 5, 6, 7, 8, 9, 10, 11, 12, 13, 14, 15, 16, 17, 18, 19, 20, 21, 22, 23, 24, 25, 26, 27,
    28, 29, 30, 31]

/-- No two bits in one place. -/
def Places.wf (p : Places) : Bool := decide p.toList.Nodup

/-- LAYOUT (R6, 92_eei_decisions.md D3): one entry per register whose fields have a bit position. The model
stores a register with its fields where 10_state.md R36, R45, R49, R55, R58, R59 and R61 put them; LAYOUT
says where they lie in the word that memory, MTCR and MFCR see (log 1). -/
structure Layout where
  psw : Places
  pcxi : Places
  fcx : Places
  lcx : Places
  icr : Places
  biv : Places
  btv : Places
  syscon : Places
deriving DecidableEq, Repr

/-- Each register's bits lie in 32 different places. -/
def Layout.wf (l : Layout) : Bool :=
  l.psw.wf && l.pcxi.wf && l.fcx.wf && l.lcx.wf && l.icr.wf && l.biv.wf && l.btv.wf && l.syscon.wf

/-- The parameters (R6). No step changes them; they stand in the state as plain data so that a statement
about every state holds for every platform (log 1, 2, 9, 10, 11). RESET and BIV_RESET are the values of
`State.reset`; ENDINIT and SAFETY_ENDINIT are fields of the state. -/
structure Platform where
  /-- MEM_VALID: the addresses the platform backs with memory (20_memory.md R80) -/
  memValid : List Region
  /-- the addresses that hold program text, fixed for a run (20_memory.md R104) -/
  text : List Region
  /-- RET_RESTORES_RM: whether RET takes PSW[25:24] from the saved PSW (40_context_ops.md R150) -/
  retRestoresRm : Bool
  /-- CSFR_ADDR: the register each core register address names (10_state.md R62) -/
  csfrAddr : List (BitVec 16 × Csfr)
  /-- LAYOUT: the bit positions of the register fields (10_state.md R36, R45, R49, R55, R58) -/
  layout : Layout
deriving DecidableEq, Repr

end Sys2Proof.Machine
end

