-- ==== Sys2Proof/Machine/Fields.lean ====
section
/-! DEFINITION. Bit fields of the registers, at the positions 10_state.md suggests, and the words in which
the parameter LAYOUT places them (log 1). -/

namespace Sys2Proof.Machine

/-- `w` with its `n` bits from bit `lo` replaced by `v`, the other bits unchanged (00_scope.md R10). -/
def setField {n : Nat} (w : Word) (lo : Nat) (v : BitVec n) : Word :=
  (w &&& ~~~((BitVec.allOnes n).setWidth 32 <<< lo)) ||| (v.setWidth 32 <<< lo)

/-- `w` with bit `i` replaced. -/
def setFlag (w : Word) (i : Nat) (b : Bool) : Word := setField w i (BitVec.ofBool b)

/-- A write through a mask: the bits of `mask` from `new`, the rest from `old` (R193). -/
def maskedWrite (mask old new : Word) : Word := (old &&& ~~~mask) ||| (new &&& mask)

/-! ### LAYOUT (00_scope.md R6, 92_eei_decisions.md D3) -/

/-- The word in which the bits of a stored value lie at the places. -/
def toWord (p : Places) (v : Word) : Word := BitVec.ofFnLE fun j => v.getLsbD (p.toList.idxOf j)

/-- The value whose bits a word holds at the places. -/
def ofWord (p : Places) (w : Word) : Word := BitVec.ofFnLE fun k => w.getLsbD p[k].val

/-! ### PSW (R36) -/

def Psw.cdc (w : Word) : BitVec 7 := w.extractLsb' 0 7
def Psw.cde (w : Word) : Bool := w.getLsbD 7
def Psw.gw (w : Word) : Bool := w.getLsbD 8
def Psw.is (w : Word) : Bool := w.getLsbD 9
def Psw.io (w : Word) : BitVec 2 := w.extractLsb' 10 2
/-- PRS is split: bit 15 is its most significant bit, bits 13:12 the rest (R36). -/
def Psw.prs (w : Word) : BitVec 3 := w.extractLsb' 15 1 ++ w.extractLsb' 12 2
def Psw.s (w : Word) : Bool := w.getLsbD 14
/-- The user status bits 31:24 (R36). -/
def Psw.user (w : Word) : BitVec 8 := w.extractLsb' 24 8

def Psw.setCdc (w : Word) (v : BitVec 7) : Word := setField w 0 v
def Psw.setCde (w : Word) (b : Bool) : Word := setFlag w 7 b
def Psw.setGw (w : Word) (b : Bool) : Word := setFlag w 8 b
def Psw.setIs (w : Word) (b : Bool) : Word := setFlag w 9 b
def Psw.setIo (w : Word) (v : BitVec 2) : Word := setField w 10 v
def Psw.setPrs (w : Word) (v : BitVec 3) : Word :=
  setField (setField w 15 (v.extractLsb' 2 1)) 12 (v.extractLsb' 0 2)
def Psw.setS (w : Word) (b : Bool) : Word := setFlag w 14 b

/-- PSW.IO of the three modes (R37, R250); `11B` is reserved. -/
def Io.user0 : BitVec 2 := 0b00#2
def Io.user1 : BitVec 2 := 0b01#2
def Io.supervisor : BitVec 2 := 0b10#2
def Io.reserved : BitVec 2 := 0b11#2

/-! ### PCXI (R45) -/

def Pcxi.pcpn (w : Word) : BitVec 8 := w.extractLsb' 22 8
def Pcxi.pie (w : Word) : Bool := w.getLsbD 21
def Pcxi.ul (w : Word) : Bool := w.getLsbD 20
def Pcxi.pcx (w : Word) : BitVec 20 := w.extractLsb' 0 20
/-- PCXI from its fields; bits 31:30 are reserved and stay 0 (R45, R141). -/
def Pcxi.make (pcpn : BitVec 8) (pie ul : Bool) (pcx : BitVec 20) : Word :=
  0#2 ++ pcpn ++ BitVec.ofBool pie ++ BitVec.ofBool ul ++ pcx

/-! ### FCX and LCX (R49) -/

/-- The context pointer in bits 19:0 of FCX, LCX, PCXI or a link word (R50, R83). -/
def pointerOf (w : Word) : BitVec 20 := w.extractLsb' 0 20
/-- A pointer as a register value; bits 31:20 are reserved and stay 0 (R49, R141). -/
def ofPointer (p : BitVec 20) : Word := 0#12 ++ p

/-! ### ICR (R55) -/

def Icr.ccpn (w : Word) : BitVec 8 := w.extractLsb' 0 8
def Icr.ie (w : Word) : Bool := w.getLsbD 15
def Icr.pipn (w : Word) : BitVec 8 := w.extractLsb' 16 8
def Icr.setCcpn (w : Word) (v : BitVec 8) : Word := setField w 0 v
def Icr.setIe (w : Word) (b : Bool) : Word := setFlag w 15 b
def Icr.setPipn (w : Word) (v : BitVec 8) : Word := setField w 16 v

/-! ### BIV, BTV, SYSCON (R58, R59, R61) -/

/-- VSS, bit 0 of BIV (R58). -/
def Biv.vss (w : Word) : Bool := w.getLsbD 0
/-- `{w[31:1], 1'b0}`: a base or a target with bit 0 cleared (R58, R59, D19). -/
def evenBase (w : Word) : Word := w.extractLsb' 1 31 ++ 0#1
/-- SYSCON.IS, the source of PSW.S on interrupt entry (R61). -/
def Syscon.is (w : Word) : Bool := w.getLsbD 3
/-- SYSCON.TS, the source of PSW.S on trap entry (R61). -/
def Syscon.ts (w : Word) : Bool := w.getLsbD 4
/-- SYSCON.U1_IED: User-1 may not enable or disable interrupts (R61, R252). -/
def Syscon.u1Ied (w : Word) : Bool := w.getLsbD 16

end Sys2Proof.Machine
end

