-- ==== Sys2Proof/Machine/Flags.lean ====
section
/-! DEFINITION. The call depth counter of PSW.CDC (10_state.md R39, 40_context_ops.md R145) and the
value PSW takes on entry to a handler (60_exceptions.md R221, R236). No in-scope instruction computes
a user status bit (R36). -/

namespace Sys2Proof.Machine

/-- The number of counter bits of a CDC value other than `1111111B`: six less the leading ones (R145).
Undefined by the spec for `1111111B`, and never used there. -/
def cdcBits (c : BitVec 7) : Nat :=
  if c.getLsbD 6 = false then 6
  else if c.getLsbD 5 = false then 5
  else if c.getLsbD 4 = false then 4
  else if c.getLsbD 3 = false then 3
  else if c.getLsbD 2 = false then 2
  else if c.getLsbD 1 = false then 1
  else 0

/-- The counter: the low `cdcBits` bits (R145). -/
def cdcCount (c : BitVec 7) : Nat := c.toNat % 2 ^ cdcBits c

/-- Counting is off (R39). -/
def cdcOff (c : BitVec 7) : Bool := c == 0b1111111#7

/-- The call that finds the counter at its maximum overflows (R145). -/
def cdcIncOverflows (c : BitVec 7) : Bool := !cdcOff c && cdcCount c == 2 ^ cdcBits c - 1

/-- The counter after a call that does not overflow (R145). -/
def cdcInc (c : BitVec 7) : BitVec 7 := if cdcOff c then c else c + 1#7

/-- A return that finds the counter at 0 underflows (R145). -/
def cdcDecUnderflows (c : BitVec 7) : Bool := !cdcOff c && cdcCount c == 0

/-- The counter is 0, or counting is off (R145). -/
def cdcZero (c : BitVec 7) : Bool := cdcOff c || cdcCount c == 0

/-- PSW in the callee (R147 steps 5 and 6). -/
def callPsw (w : Word) : Word :=
  Psw.setCde (if Psw.cde w then Psw.setCdc w (cdcInc (Psw.cdc w)) else w) true

/-- PSW in a handler: IS, IO, PRS, CDC, CDE, S and GW as entry sets them, the user status bits kept
(R221 items 3 to 9, R236 c to i). -/
def entryPsw (w : Word) (safety : Bool) : Word :=
  Psw.setGw (Psw.setS (Psw.setCde (Psw.setCdc (Psw.setPrs (Psw.setIo (Psw.setIs w true)
    Io.supervisor) 0b000#3) 0b0000000#7) true) safety) false

/-- The implemented bits of PSW: 23:16 are reserved, read as 0 and ignore writes (R36, D23). -/
def pswImplemented : Word := 0xFF00FFFF#32

/-- PSW after RET: the saved word, less PSW[25:24] unless RET_RESTORES_RM (R150 step 4); the reserved
bits ignore the write (R36, log 21). -/
def retPsw (restoresRm : Bool) (old saved : Word) : Word :=
  (if restoresRm then saved else setField saved 24 (old.extractLsb' 24 2 : BitVec 2)) &&& pswImplemented

/-- PSW after RFE: the whole saved word (R188 step 7); the reserved bits ignore the write (R36, log 21). -/
def rfePsw (saved : Word) : Word := saved &&& pswImplemented

end Sys2Proof.Machine
end

