-- ==== Sys2Proof/Machine/ResetValues.lean ====
section
/-! DEFINITION. The value of each register right after reset: the record RESET of 10_state.md R72. Its
values are the spec's suggested ones (log 4, PRESUMED); a register for which the spec gives none holds
the value a log entry names (log 5, 6, 7, DESIGN CHOICE). All unsafe: a proof can lean on them. -/

namespace Sys2Proof.Machine

/-- D[0] to D[15], A[0] to A[15]: unspecified in R72; DESIGN CHOICE (log 5). -/
def Reset.gpr : Word := 0#32

/-- RESET.PC is device specific (R72); DESIGN CHOICE (log 6). -/
def Reset.pc : Word := 0x80000000#32

/-- Supervisor, IS = 1, GW = 0, CDE = 1, CDC = 0, PRS = 0, S = 0, user status bits 0: the fields R72 lists and
70_reset_and_hazards.md R271 names (log 4). R72 writes 0x00000B80 for them, whose bit 8, GW by R36, is 1; the
model takes the fields (DESIGN CHOICE, log 40). -/
def Reset.psw : Word := 0x00000A80#32

/-- R72 (log 4). -/
def Reset.pcxi : Word := 0#32

/-- R72 (log 4). -/
def Reset.fcx : Word := 0#32

/-- R72 (log 4). -/
def Reset.lcx : Word := 0#32

/-- R72 (log 4). -/
def Reset.icr : Word := 0#32

/-- R72 (log 4). -/
def Reset.isp : Word := 0x00000100#32

/-- BIV_RESET, implementation specific, suggested value (R58, R72, log 4). -/
def Reset.biv : Word := 0#32

/-- R72 (log 4). -/
def Reset.btv : Word := 0xA0000100#32

/-- R72 (log 4). -/
def Reset.syscon : Word := 0#32

/-- CPU_ID, CORE_ID, PMA0 to PMA2, PCON0, DCON0, SEGEN, SMACON, COMPAT and the two TPS registers: the
spec gives no reset value; DESIGN CHOICE (log 7). -/
def Reset.unstated : Word := 0#32

/-- The initialisation state precedes the operational state (R64, R72). -/
def Reset.endinit : Bool := false

/-- As `Reset.endinit`. -/
def Reset.safetyEndinit : Bool := false

/-- MEM_VALID: every address backed; the spec suggests no map (20_memory.md R80, DESIGN CHOICE, log 9). -/
def Reset.memValid : List Region := [⟨0, 0x100000000⟩]

/-- Program text: segments 8 and A, where 95_test_vectors.md has its code and its vector tables (DESIGN
CHOICE, log 10). -/
def Reset.text : List Region := [⟨0x80000000, 0x10000000⟩, ⟨0xA0000000, 0x10000000⟩]

/-- RET_RESTORES_RM, the spec's default (93_implementation_defined.md U6, log 11). -/
def Reset.retRestoresRm : Bool := false

/-- CSFR_ADDR, the spec's suggested map (R62, log 2). The addresses R62 gives for D[i] and A[i] are not
reachable by MTCR or MFCR (R62). -/
def Reset.csfrAddr : List (BitVec 16 × Csfr) :=
  [(0xFE00#16, .pcxi), (0xFE04#16, .psw), (0xFE08#16, .pc), (0xFE14#16, .syscon), (0xFE18#16, .cpuId),
    (0xFE1C#16, .coreId), (0xFE20#16, .biv), (0xFE24#16, .btv), (0xFE28#16, .isp), (0xFE2C#16, .icr),
    (0xFE38#16, .fcx), (0xFE3C#16, .lcx), (0x9400#16, .compat), (0x8100#16, .pma0), (0x8104#16, .pma1),
    (0x8108#16, .pma2), (0x920C#16, .pcon0), (0x9040#16, .dcon0), (0x900C#16, .smacon), (0x1030#16, .segen),
    (0xE444#16, .tpsEntry), (0xE448#16, .tpsExit)]

/-- LAYOUT, the spec's suggested positions (R36, R45, R49, R55, R58, R59, R61, log 1). -/
def Reset.layout : Layout where
  psw := Places.identity
  pcxi := Places.identity
  fcx := Places.identity
  lcx := Places.identity
  icr := Places.identity
  biv := Places.identity
  btv := Places.identity
  syscon := Places.identity

/-- The parameters the machine starts with. -/
def Reset.platform : Platform where
  memValid := Reset.memValid
  text := Reset.text
  retRestoresRm := Reset.retRestoresRm
  csfrAddr := Reset.csfrAddr
  layout := Reset.layout

end Sys2Proof.Machine
end

