-- ==== Sys2Proof/Machine/State.lean ====
section
/-! DEFINITION. The machine's state as plain data, the reasons a step can stop, and the state after reset. -/

namespace Sys2Proof.Machine

/-- Memory: (address, byte) pairs with strictly rising addresses below 2^32 (`Memory.wf`). An address
that is not listed reads as `Memory.unlisted`. -/
abbrev Memory := List Host.Cell

/-- What the other agents present to the core before one step (00_scope.md R16, R17; log 14). -/
structure AgentInput where
  /-- the pending priority number of the interrupt control unit, 0 for none (60_exceptions.md R215, R216) -/
  pipn : BitVec 8
  /-- ENDINIT as the system drives it (10_state.md R66) -/
  endinit : Bool
  /-- SAFETY_ENDINIT as the system drives it (10_state.md R66) -/
  safetyEndinit : Bool
deriving DecidableEq, Repr

/-- The core special function registers that only MTCR writes (10_state.md R48, R52, R57, R59, R61). -/
structure CoreRegs where
  /-- free CSA list limit pointer (R48) -/
  lcx : Word
  /-- interrupt stack pointer (R52) -/
  isp : Word
  /-- base of the interrupt vector table (R57, R58) -/
  biv : Word
  /-- base of the trap vector table (R59) -/
  btv : Word
  /-- system control register (R61) -/
  syscon : Word
  /-- core identification, read-only (R61) -/
  cpuId : Word
  /-- core number identification (R62), written by MTCR like any other (R64, log 19) -/
  coreId : Word
  /-- physical memory attributes (R61) -/
  pma0 : Word
  /-- physical memory attributes (R61) -/
  pma1 : Word
  /-- physical memory attributes (R61) -/
  pma2 : Word
  /-- program memory configuration (R61) -/
  pcon0 : Word
  /-- data memory configuration (R61) -/
  dcon0 : Word
  /-- safety error generation (R61) -/
  segen : Word
  /-- memory self test mode access control (R61) -/
  smacon : Word
  /-- compatibility control (R61) -/
  compat : Word
  /-- temporal protection, entry timer load value (R61) -/
  tpsEntry : Word
  /-- temporal protection, exit timer load value (R61) -/
  tpsExit : Word
deriving DecidableEq, Repr

/-- The machine: the core's architectural and hidden state (10_state.md), memory, what the other
agents present and receive, the platform's parameters, and the counter of free values. A register is stored
with its fields at the positions 10_state.md suggests; `Platform.layout` says where they lie in its word. -/
structure State where
  /-- data registers D[0] to D[15] (R20) -/
  d : Vector Word 16
  /-- address registers A[0] to A[15]; A[10] is SP, A[11] is RA (R20, R24, R25) -/
  a : Vector Word 16
  /-- the address of the instruction being executed (R34) -/
  pc : Word
  /-- program status word (R35, R36) -/
  psw : Word
  /-- previous context information and pointer (R44, R45) -/
  pcxi : Word
  /-- free CSA list head pointer (R47, R49) -/
  fcx : Word
  /-- interrupt control register, PIPN written by the ICU only (R54, R55) -/
  icr : Word
  /-- the registers only MTCR writes -/
  core : CoreRegs
  /-- the one address space (20_memory.md R80) -/
  mem : Memory
  /-- an FCD trap is taken before the next instruction (R70 (b), 60_exceptions.md R243) -/
  fcdDeferred : Bool
  /-- an MTCR is awaiting its ISYNC (R70 (e), 41_interrupt_system_instructions.md R199) -/
  isyncPending : Bool
  /-- operational state, owned by the system agent (R66) -/
  endinit : Bool
  /-- operational state of the safety registers, owned by the system agent (R66) -/
  safetyEndinit : Bool
  /-- what the agents present, one entry per step; when it is empty nothing changes (log 14) -/
  inputs : List AgentInput
  /-- priority numbers acknowledged to the ICU, oldest first (60_exceptions.md R214, R260; log 15) -/
  acks : List (BitVec 8)
  /-- parameters of the platform -/
  platform : Platform
  /-- the model's own: how many free values have been used (log 12, 13) -/
  freeCount : Nat
deriving DecidableEq, Repr

/-- What an access was for. -/
inductive AccessKind where
  | fetch | load | store
deriving DecidableEq, Repr

/-- The instructions whose effective address must be aligned (20_memory.md R95). -/
inductive AlignedForm where
  | stlcx | stucx | ldlcx | lducx | fcall | fret
deriving DecidableEq, Repr

/-- Why the machine stops with a fault. No fault leaves a next state. -/
inductive Fault where
  /-- FCU, free context list underflow: raised by every context save that finds FCX null (calls, SVLCX,
  BISR, interrupt and trap entry). The spec makes it terminal (60_exceptions.md R239, D9). Safe. -/
  | freeListUnderflow
  /-- An access to an address the platform does not back: raised by fetches, loads and stores
  (20_memory.md R80, D15). Safe. -/
  | notBacked (kind : AccessKind) (addr : Word)
  /-- A fetch or load of a byte nothing has written (log 8). Safe. -/
  | unwritten (kind : AccessKind) (addr : Word)
  /-- A misaligned effective address: raised by the instruction named (20_memory.md R95, D12, C14). Safe. -/
  | misaligned (form : AlignedForm) (ea : Word)
deriving DecidableEq, Repr

/-- Why the machine gives a step no meaning. -/
inductive Refusal where
  /-- an instruction of the table whose meaning is not written; raised by `exec`. Safe. -/
  | notModelled (mnemonic : String)
  /-- a known instruction outside the scope; raised by the fetch (30_encoding.md R119 (c), R118). Safe. -/
  | outOfScope (name : String)
  /-- a word with a non-zero unused field; raised by the fetch (R119 (b)). Safe. -/
  | unusedField (mnemonic : String)
  /-- any other word; raised by the fetch (R119 (d)). Safe. -/
  | notShown
  /-- MTCR or MFCR of an address that maps to no register (R192 (b), R195, U2). Safe. -/
  | noCoreRegister (addr : BitVec 16)
  /-- MTCR to a read-only register (R192 (b), U2). Safe. -/
  | readOnlyRegister (addr : BitVec 16)
  /-- MTCR to an ENDINIT protected register in the operational state (R194, D6, U1). Safe. -/
  | endinitProtected (addr : BitVec 16)
  /-- MTCR to a SAFETY_ENDINIT protected register in the operational state (R194, D6, U1). Safe. -/
  | safetyEndinitProtected (addr : BitVec 16)
  /-- PSW.IO = 11B: raised by the MTCR that would set it, and by the step of a state that has it
  (R193, R256, D16). Safe. -/
  | reservedIoMode
  /-- the instruction after an MTCR is not ISYNC; raised by the step (R199, R280, D11). Safe. -/
  | isyncMissing
  /-- a store on program text (20_memory.md R104, D24). Safe. -/
  | programText (addr : Word)
  /-- a fetch outside program text; raised by the fetch (DESIGN CHOICE, log 10: no rule speaks of it). Safe. -/
  | notProgramText (addr : Word)
deriving DecidableEq, Repr

/-- The core registers at reset (R72). -/
def CoreRegs.reset : CoreRegs where
  lcx := Reset.lcx
  isp := Reset.isp
  biv := Reset.biv
  btv := Reset.btv
  syscon := Reset.syscon
  cpuId := Reset.unstated
  coreId := Reset.unstated
  pma0 := Reset.unstated
  pma1 := Reset.unstated
  pma2 := Reset.unstated
  pcon0 := Reset.unstated
  dcon0 := Reset.unstated
  segen := Reset.unstated
  smacon := Reset.unstated
  compat := Reset.unstated
  tpsEntry := Reset.unstated
  tpsExit := Reset.unstated

/-- The machine right after reset (10_state.md R72, 70_reset_and_hazards.md R271): memory with nothing
listed, no FCD deferred, no MTCR awaiting ISYNC, no agent input (log 14), the parameters as
`Reset.platform` has them. -/
def State.reset : State where
  d := Vector.replicate 16 Reset.gpr
  a := Vector.replicate 16 Reset.gpr
  pc := Reset.pc
  psw := Reset.psw
  pcxi := Reset.pcxi
  fcx := Reset.fcx
  icr := Reset.icr
  core := CoreRegs.reset
  mem := []
  fcdDeferred := false
  isyncPending := false
  endinit := Reset.endinit
  safetyEndinit := Reset.safetyEndinit
  inputs := []
  acks := []
  platform := Reset.platform
  freeCount := 0

end Sys2Proof.Machine
end

