-- ==== Sys2Proof/Machine/Updates.lean ====
section
/-! DEFINITION. The updates of single fields that every operation is built from. Sys2Proof/Laws/State.lean
says of each what it does to each field. -/

namespace Sys2Proof.Machine

def State.setPc (s : State) (v : Word) : State := { s with pc := v }
def State.setPsw (s : State) (v : Word) : State := { s with psw := v }
def State.setPcxi (s : State) (v : Word) : State := { s with pcxi := v }
def State.setFcx (s : State) (v : Word) : State := { s with fcx := v }
def State.setIcr (s : State) (v : Word) : State := { s with icr := v }
def State.setCore (s : State) (v : CoreRegs) : State := { s with core := v }
def State.setMem (s : State) (v : Memory) : State := { s with mem := v }
/-- The whole data register file. -/
def State.setDs (s : State) (v : Vector Word 16) : State := { s with d := v }
/-- The whole address register file. -/
def State.setAs (s : State) (v : Vector Word 16) : State := { s with a := v }
def State.setFcdDeferred (s : State) (b : Bool) : State := { s with fcdDeferred := b }
def State.setIsyncPending (s : State) (b : Bool) : State := { s with isyncPending := b }
def State.setAcks (s : State) (v : List (BitVec 8)) : State := { s with acks := v }
def State.setInputs (s : State) (v : List AgentInput) : State := { s with inputs := v }
/-- The two Booleans of the system agent (10_state.md R66). -/
def State.setEndinits (s : State) (endinit safety : Bool) : State :=
  { s with endinit := endinit, safetyEndinit := safety }
def State.setPlatform (s : State) (p : Platform) : State := { s with platform := p }
def State.setFreeCount (s : State) (n : Nat) : State := { s with freeCount := n }

/-- `D[i] <- v` (00_scope.md R10). -/
def State.writeD (s : State) (i : Fin 16) (v : Word) : State := s.setDs (s.d.set i v)
/-- `A[i] <- v` (00_scope.md R10). -/
def State.writeA (s : State) (i : Fin 16) (v : Word) : State := s.setAs (s.a.set i v)

end Sys2Proof.Machine
end

