-- ==== Sys2Proof/Machine/Memory.lean ====
section
/-! DEFINITION. Memory: one byte, little-endian words, and blocks of sixteen words (00_scope.md R11,
20_memory.md R80, R90), with the checks an access passes. -/

namespace Sys2Proof.Machine

/-! ### Outcomes -/

/-- The outcome of an operation that yields an `α`. -/
abbrev Res (α : Type) := Host.Outcome α Fault Refusal

/-- Go on with the value of an operation, or stop as it stopped. -/
def andThen {α β : Type} (x : Res α) (f : α → Res β) : Res β :=
  match x with
  | .next a => f a
  | .fault r => .fault r
  | .refused r => .refused r

/-! ### The byte list -/

/-- What an address that is not listed reads as: no value (log 8, DESIGN CHOICE, safe). -/
def Memory.unlisted : Option Byte := none

/-- The byte at an address. -/
def Memory.read : Memory → Nat → Option Byte
  | [], _ => Memory.unlisted
  | (x, v) :: m, a => if x = a then some v else Memory.read m a

/-- Store a byte, keeping the addresses rising. -/
def Memory.write : Memory → Nat → Byte → Memory
  | [], a, b => [(a, b)]
  | (x, v) :: m, a, b =>
    if a < x then (a, b) :: (x, v) :: m
    else if a = x then (a, b) :: m
    else (x, v) :: Memory.write m a b

/-- The canonical form: addresses strictly rising and below 2^32. No entry equals what an unlisted
address reads as, since that is no value. -/
def Memory.wf : Memory → Bool
  | [] => true
  | [(x, _)] => decide (x < 4294967296)
  | (x, _) :: (y, w) :: m => decide (x < y) && Memory.wf ((y, w) :: m)

/-- Store a word little-endian: bits 7:0 at the lowest address (R90, D2). -/
def Memory.writeWord (m : Memory) (ea v : Word) : Memory :=
  (((m.write ea.toNat (v.extractLsb' 0 8)).write (ea + 1#32).toNat (v.extractLsb' 8 8)).write
    (ea + 2#32).toNat (v.extractLsb' 16 8)).write (ea + 3#32).toNat (v.extractLsb' 24 8)

/-- Store words at rising addresses. -/
def Memory.writeWords : Memory → Word → List Word → Memory
  | m, _, [] => m
  | m, ea, v :: vs => Memory.writeWords (m.writeWord ea v) (ea + 4#32) vs

/-- The word at an address, if all four bytes have a value. -/
def Memory.readWord (m : Memory) (ea : Word) : Option Word :=
  match m.read ea.toNat, m.read (ea + 1#32).toNat, m.read (ea + 2#32).toNat, m.read (ea + 3#32).toNat with
  | some b0, some b1, some b2, some b3 => some (b3 ++ b2 ++ b1 ++ b0)
  | _, _, _, _ => none

/-! ### Checks -/

/-- The address lies in the region. -/
def Region.holds (r : Region) (a : Word) : Bool :=
  decide (r.base ≤ a.toNat) && decide (a.toNat < r.base + r.size)

/-- MEM_VALID (R80). -/
def backed (s : State) (a : Word) : Bool := s.platform.memValid.any (·.holds a)

/-- The address holds program text (R104). -/
def isText (s : State) (a : Word) : Bool := s.platform.text.any (·.holds a)

/-- Why a byte cannot be read. -/
def readStop (s : State) (k : AccessKind) (a : Word) : Option Fault :=
  if backed s a then
    match s.mem.read a.toNat with
    | some _ => none
    | none => some (.unwritten k a)
  else some (.notBacked k a)

/-- Why a byte cannot be written, as an outcome. -/
def storeStop (s : State) (a : Word) : Option (Fault ⊕ Refusal) :=
  if backed s a then
    if isText s a then some (.inr (.programText a)) else none
  else some (.inl (.notBacked .store a))

/-- The addresses of `n` bytes from `ea`, modulo 2^32. -/
def span (ea : Word) (n : Nat) : List Word := (List.range n).map fun i => ea + BitVec.ofNat 32 i

/-- The first reason `n` bytes cannot be read. -/
def readStops (s : State) (k : AccessKind) (ea : Word) (n : Nat) : Option Fault :=
  (span ea n).findSome? (readStop s k)

/-- The first reason `n` bytes cannot be written. -/
def storeStops (s : State) (ea : Word) (n : Nat) : Option (Fault ⊕ Refusal) :=
  (span ea n).findSome? (storeStop s)

/-! ### Accesses -/

/-- The byte at an address that `readStops` has let pass. -/
def byteAt (s : State) (a : Word) : Byte := (s.mem.read a.toNat).getD 0#8

/-- The little-endian word at an address that `readStops` has let pass (R90). -/
def wordAt (s : State) (a : Word) : Word :=
  byteAt s (a + 3#32) ++ byteAt s (a + 2#32) ++ byteAt s (a + 1#32) ++ byteAt s a

/-- `MemRead(ea, 4)` (R11). -/
def loadWord (s : State) (ea : Word) : Res Word :=
  match readStops s .load ea 4 with
  | some r => .fault r
  | none => .next (wordAt s ea)

/-- Word `k` of a block is at `ea + 4*k` (R11). -/
def blockAddr (ea : Word) (k : Fin 16) : Word := ea + BitVec.ofNat 32 (4 * k.val)

/-- `MemRead(ea, 64)` (R11). -/
def loadBlock (s : State) (ea : Word) : Res (Vector Word 16) :=
  match readStops s .load ea 64 with
  | some r => .fault r
  | none => .next (Vector.ofFn fun k => wordAt s (blockAddr ea k))

/-- The state with the words stored, if every byte may be written (R80, R104). -/
def storeWords (s : State) (ea : Word) (ws : List Word) : Res State :=
  match storeStops s ea (4 * ws.length) with
  | some (.inl r) => .fault r
  | some (.inr r) => .refused r
  | none => .next (s.setMem (s.mem.writeWords ea ws))

/-- `MemWrite(ea, 4, v)` (R11). -/
def storeWord (s : State) (ea v : Word) : Res State := storeWords s ea [v]

/-- `MemWrite(ea, 64, w)` (R11). -/
def storeBlock (s : State) (ea : Word) (w : Vector Word 16) : Res State := storeWords s ea w.toList

end Sys2Proof.Machine
end

