-- ==== Sys2Proof/Machine/Operands.lean ====
section
/-! DEFINITION. Operand forms (30_encoding.md R114, R115), the register views of 10_state.md R21 and
R22, and the core special function registers as MTCR and MFCR name them (10_state.md R62, R67 to R69,
41_interrupt_system_instructions.md R192 to R195). -/

namespace Sys2Proof.Machine

/-! ### Registers -/

/-- The register a number names: a 4-bit field holds it modulo 16 (R115, log 32). -/
def regIndex (n : Nat) : Fin 16 := Fin.ofNat 16 n

/-- `D[n]` for an operand `n`. -/
def readD (s : State) (n : Nat) : Word := s.d[regIndex n]

/-- `A[n]` for an operand `n`. -/
def readA (s : State) (n : Nat) : Word := s.a[regIndex n]

/-- The even register of the pair `k` and the odd one after it. -/
def pairLow (k : Fin 8) : Fin 16 := ⟨2 * k.val, by omega⟩
/-- As `pairLow`. -/
def pairHigh (k : Fin 8) : Fin 16 := ⟨2 * k.val + 1, by omega⟩

/-- `E[2k] = (D[2k+1], D[2k])`, a view (10_state.md R21). No in-scope instruction has an E operand. -/
def State.readE (s : State) (k : Fin 8) : BitVec 64 := s.d[pairHigh k] ++ s.d[pairLow k]

/-- A write to E[2k] writes both registers (R21). -/
def State.writeE (s : State) (k : Fin 8) (v : BitVec 64) : State :=
  (s.writeD (pairLow k) (v.extractLsb' 0 32)).writeD (pairHigh k) (v.extractLsb' 32 32)

/-- P[2k] as the pair of its registers, even one first; the spec does not say which is the less
significant (10_state.md R22, N9), so no word is made of them (log 39). -/
def State.readP (s : State) (k : Fin 8) : Word × Word := (s.a[pairLow k], s.a[pairHigh k])

/-! ### Targets and effective addresses (R114) -/

/-- disp24, relative: `pc + sext_32(disp24) * 2`, modulo 2^32 (R114, D21). -/
def relTarget24 (pc : Word) (disp : BitVec 24) : Word := pc + disp.signExtend 32 * 2#32

/-- disp8, relative: `pc + sext_32(disp8) * 2`, modulo 2^32 (R114, D21). -/
def relTarget8 (pc : Word) (disp : BitVec 8) : Word := pc + disp.signExtend 32 * 2#32

/-- disp24, absolute (R114). -/
def absTarget24 (disp : BitVec 24) : Word := disp.extractLsb' 20 4 ++ 0#7 ++ disp.extractLsb' 0 20 ++ 0#1

/-- A target in a register: bit 0 is cleared (R149, D19). -/
def regTarget (v : Word) : Word := evenBase v

/-- off18: the effective address of an ABS form (R114). -/
def absEA (off : BitVec 18) : Word := off.extractLsb' 14 4 ++ 0#14 ++ off.extractLsb' 0 14

/-- off10: the effective address of a BO form, from the base register's value (R114). -/
def baseEA (base : Word) (off : BitVec 10) : Word := base + off.signExtend 32

/-! ### Core special function registers -/

/-- The register an address names (CSFR_ADDR, 10_state.md R62, log 2). -/
def csfrOfAddr (s : State) (addr : BitVec 16) : Option Csfr := s.platform.csfrAddr.lookup addr

/-- LAYOUT of a register; a register without fields has every bit in its own place. -/
def layoutOf (s : State) : Csfr → Places
  | .psw => s.platform.layout.psw
  | .pcxi => s.platform.layout.pcxi
  | .fcx => s.platform.layout.fcx
  | .lcx => s.platform.layout.lcx
  | .icr => s.platform.layout.icr
  | .biv => s.platform.layout.biv
  | .btv => s.platform.layout.btv
  | .syscon => s.platform.layout.syscon
  | .pc | .cpuId | .coreId | .isp | .compat | .pma0 | .pma1 | .pma2 | .pcon0 | .dcon0 | .smacon | .segen
  | .tpsEntry | .tpsExit => Places.identity

/-- The value of a register that a word from memory or D[a] holds, by its layout. -/
def csfrFrom (s : State) (r : Csfr) (w : Word) : Word := ofWord (layoutOf s r) w

/-- The bits of a register that MFCR reads as they are; reserved bits read as 0 (R195, R36, R45, R49,
R55, R59, R61, D23). -/
def csfrReadMask : Csfr → Word
  | .psw => pswImplemented
  | .pcxi => 0x3FFFFFFF#32
  | .fcx => 0x000FFFFF#32
  | .lcx => 0x000FFFFF#32
  | .icr => 0x00FF80FF#32
  | .btv => 0xFFFFFFFE#32
  | .syscon => 0x0103011F#32
  | .pc => 0xFFFFFFFF#32
  | .cpuId => 0xFFFFFFFF#32
  | .coreId => 0xFFFFFFFF#32
  | .biv => 0xFFFFFFFF#32
  | .isp => 0xFFFFFFFF#32
  | .compat => 0xFFFFFFFF#32
  | .pma0 => 0xFFFFFFFF#32
  | .pma1 => 0xFFFFFFFF#32
  | .pma2 => 0xFFFFFFFF#32
  | .pcon0 => 0xFFFFFFFF#32
  | .dcon0 => 0xFFFFFFFF#32
  | .smacon => 0xFFFFFFFF#32
  | .segen => 0xFFFFFFFF#32
  | .tpsEntry => 0xFFFFFFFF#32
  | .tpsExit => 0xFFFFFFFF#32

/-- The bits an MTCR writes (R193); none for a read-only register (R192 (b)). The registers R193 does not
list are written whole (log 20), CORE_ID among them (R64, log 19). -/
def csfrWriteMask : Csfr → Option Word
  | .psw => some pswImplemented
  | .pcxi => some 0x3FFFFFFF#32
  | .fcx => some 0x000FFFFF#32
  | .lcx => some 0x000FFFFF#32
  | .icr => some 0x000080FF#32
  | .isp => some 0xFFFFFFFF#32
  | .biv => some 0xFFFFFFFF#32
  | .btv => some 0xFFFFFFFE#32
  | .syscon => some 0x0103011F#32
  | .compat => some 0xFFFFFFFF#32
  | .pma0 => some 0xFFFFFFFF#32
  | .pma1 => some 0xFFFFFFFF#32
  | .pma2 => some 0xFFFFFFFF#32
  | .pcon0 => some 0xFFFFFFFF#32
  | .dcon0 => some 0xFFFFFFFF#32
  | .smacon => some 0xFFFFFFFF#32
  | .segen => some 0xFFFFFFFF#32
  | .tpsEntry => some 0xFFFFFFFF#32
  | .tpsExit => some 0xFFFFFFFF#32
  | .coreId => some 0xFFFFFFFF#32
  | .pc => none
  | .cpuId => none

/-- ENDINIT protected registers (10_state.md R67). -/
def endinitProtects : Csfr → Bool
  | .btv | .biv | .isp | .pma0 | .pma1 | .pma2 | .pcon0 | .dcon0 | .segen => true
  | .pcxi | .psw | .pc | .syscon | .cpuId | .coreId | .icr | .fcx | .lcx | .compat | .smacon
  | .tpsEntry | .tpsExit => false

/-- SAFETY_ENDINIT protected registers (10_state.md R68). -/
def safetyEndinitProtects : Csfr → Bool
  | .smacon | .syscon | .compat | .tpsEntry | .tpsExit => true
  | .pcxi | .psw | .pc | .cpuId | .coreId | .biv | .btv | .isp | .icr | .fcx | .lcx | .pma0 | .pma1
  | .pma2 | .pcon0 | .dcon0 | .segen => false

/-- The stored value of a core register. -/
def csfrValue (s : State) : Csfr → Word
  | .pcxi => s.pcxi
  | .psw => s.psw
  | .pc => s.pc
  | .syscon => s.core.syscon
  | .cpuId => s.core.cpuId
  | .coreId => s.core.coreId
  | .biv => s.core.biv
  | .btv => s.core.btv
  | .isp => s.core.isp
  | .icr => s.icr
  | .fcx => s.fcx
  | .lcx => s.core.lcx
  | .compat => s.core.compat
  | .pma0 => s.core.pma0
  | .pma1 => s.core.pma1
  | .pma2 => s.core.pma2
  | .pcon0 => s.core.pcon0
  | .dcon0 => s.core.dcon0
  | .smacon => s.core.smacon
  | .segen => s.core.segen
  | .tpsEntry => s.core.tpsEntry
  | .tpsExit => s.core.tpsExit

/-- The word of a register, by its layout. -/
def csfrWord (s : State) (r : Csfr) : Word := toWord (layoutOf s r) (csfrValue s r)

/-- `CR[addr]` as MFCR reads it (R195). -/
def readCsfr (s : State) (r : Csfr) : Word := toWord (layoutOf s r) (csfrValue s r &&& csfrReadMask r)

/-- The state with a core register's stored value replaced; PC and CPU_ID are never written. -/
def setCsfr (s : State) (r : Csfr) (v : Word) : State :=
  match r with
  | .pcxi => s.setPcxi v
  | .psw => s.setPsw v
  | .pc => s
  | .syscon => s.setCore { s.core with syscon := v }
  | .cpuId => s
  | .coreId => s.setCore { s.core with coreId := v }
  | .biv => s.setCore { s.core with biv := v }
  | .btv => s.setCore { s.core with btv := v }
  | .isp => s.setCore { s.core with isp := v }
  | .icr => s.setIcr v
  | .fcx => s.setFcx v
  | .lcx => s.setCore { s.core with lcx := v }
  | .compat => s.setCore { s.core with compat := v }
  | .pma0 => s.setCore { s.core with pma0 := v }
  | .pma1 => s.setCore { s.core with pma1 := v }
  | .pma2 => s.setCore { s.core with pma2 := v }
  | .pcon0 => s.setCore { s.core with pcon0 := v }
  | .dcon0 => s.setCore { s.core with dcon0 := v }
  | .smacon => s.setCore { s.core with smacon := v }
  | .segen => s.setCore { s.core with segen := v }
  | .tpsEntry => s.setCore { s.core with tpsEntry := v }
  | .tpsExit => s.setCore { s.core with tpsExit := v }

end Sys2Proof.Machine
end

