-- ==== Sys2Proof/Machine/Ops.lean ====
section
/-! DEFINITION. The operations the instructions share: context save and restore (40_context_ops.md R141
to R144), taking an interrupt or a trap (60_exceptions.md R221, R236) and returning from one
(41_interrupt_system_instructions.md R188). -/

namespace Sys2Proof.Machine

/-! ### Contexts -/

/-- The effective address of the CSA a context pointer names (20_memory.md R83). -/
def csaEA (p : BitVec 20) : Word := p.extractLsb' 16 4 ++ 0#6 ++ p.extractLsb' 0 16 ++ 0#6

/-- The sixteen words of an upper context, PCXI first (R85, R142). -/
def upperWords (s : State) : Vector Word 16 :=
  #v[csfrWord s .pcxi, csfrWord s .psw, s.a[10], s.a[11], s.d[8], s.d[9], s.d[10], s.d[11],
     s.a[12], s.a[13], s.a[14], s.a[15], s.d[12], s.d[13], s.d[14], s.d[15]]

/-- The sixteen words of a lower context, PCXI first (R86, R142). -/
def lowerWords (s : State) : Vector Word 16 :=
  #v[csfrWord s .pcxi, s.a[11], s.a[2], s.a[3], s.d[0], s.d[1], s.d[2], s.d[3],
     s.a[4], s.a[5], s.a[6], s.a[7], s.d[4], s.d[5], s.d[6], s.d[7]]

/-- The words a context of the kind has now: `true` is upper. -/
def contextWords (upper : Bool) (s : State) : Vector Word 16 :=
  if upper then upperWords s else lowerWords s

/-- The general registers of the upper context from its words; PCXI and PSW are left alone (R150 step 4,
R166). -/
def assignUpper (w : Vector Word 16) (s : State) : State :=
  (s.setAs #v[s.a[0], s.a[1], s.a[2], s.a[3], s.a[4], s.a[5], s.a[6], s.a[7], s.a[8], s.a[9],
      w[2], w[3], w[8], w[9], w[10], w[11]]).setDs
    #v[s.d[0], s.d[1], s.d[2], s.d[3], s.d[4], s.d[5], s.d[6], s.d[7],
      w[4], w[5], w[6], w[7], w[12], w[13], w[14], w[15]]

/-- The general registers of the lower context from its words; PCXI is left alone (R160 step 2, R165). -/
def assignLower (w : Vector Word 16) (s : State) : State :=
  (s.setAs #v[s.a[0], s.a[1], w[2], w[3], w[8], w[9], w[10], w[11], s.a[8], s.a[9],
      s.a[10], w[1], s.a[12], s.a[13], s.a[14], s.a[15]]).setDs
    #v[w[4], w[5], w[6], w[7], w[12], w[13], w[14], w[15],
      s.d[8], s.d[9], s.d[10], s.d[11], s.d[12], s.d[13], s.d[14], s.d[15]]

/-- A[12] to A[15] and D[8] to D[15] take free values: after a call or an entry the spec leaves them
undefined until they are written (10_state.md R32, U3; log 12, DESIGN CHOICE, safe). -/
def forgetUpper (s : State) : State :=
  ((s.setAs #v[s.a[0], s.a[1], s.a[2], s.a[3], s.a[4], s.a[5], s.a[6], s.a[7], s.a[8], s.a[9],
      s.a[10], s.a[11], Config.freeWord s.freeCount, Config.freeWord (s.freeCount + 1),
      Config.freeWord (s.freeCount + 2), Config.freeWord (s.freeCount + 3)]).setDs
    #v[s.d[0], s.d[1], s.d[2], s.d[3], s.d[4], s.d[5], s.d[6], s.d[7],
      Config.freeWord (s.freeCount + 4), Config.freeWord (s.freeCount + 5),
      Config.freeWord (s.freeCount + 6), Config.freeWord (s.freeCount + 7),
      Config.freeWord (s.freeCount + 8), Config.freeWord (s.freeCount + 9),
      Config.freeWord (s.freeCount + 10), Config.freeWord (s.freeCount + 11)]).setFreeCount
    (s.freeCount + 12)

/-- `SaveContext` (R141): take the CSA at the head of the free list, store the context there and put it
at the head of the previous list. FCU is terminal (R239, D9). Step S9 sets `fcdDeferred`, which the next
step acts on (R243); it compares the FCX from before the save (D8, log 26). -/
def saveContext (upper : Bool) (s : State) : Res State :=
  if pointerOf s.fcx = 0#20 then .fault .freeListUnderflow
  else
    andThen (loadWord s (csaEA (pointerOf s.fcx))) fun link =>
    andThen (storeBlock s (csaEA (pointerOf s.fcx)) (contextWords upper s)) fun s' =>
    .next (((s'.setPcxi (Pcxi.make (Icr.ccpn s.icr) (Icr.ie s.icr) upper (pointerOf s.fcx))).setFcx
      (ofPointer (pointerOf (csfrFrom s .fcx link)))).setFcdDeferred
        (s.fcdDeferred || pointerOf s.fcx == pointerOf s.core.lcx))

/-- Steps T3 to T7 of `RestoreContext` (R143): read the context at the head of the previous list and put
its CSA back at the head of the free list. PCXI's reserved bits ignore the write (R45, log 21). -/
def restoreContext (s : State) : Res (Vector Word 16 × State) :=
  andThen (loadBlock s (csaEA (Pcxi.pcx s.pcxi))) fun w =>
  andThen (storeWord s (csaEA (Pcxi.pcx s.pcxi)) (csfrWord s .fcx)) fun s' =>
  .next (w, (s'.setFcx (ofPointer (Pcxi.pcx s.pcxi))).setPcxi (csfrFrom s .pcxi w[0] &&& 0x3FFFFFFF#32))

/-! ### Vectors -/

/-- The traps the model takes (R234). FCU, ALN and IOPC are not among them: the model faults or refuses
there (R239, R95, R119, C14). -/
inductive Trap where
  | priv | fcd | cdo | cdu | csu | ctyp | nest
  | sys (tin : BitVec 8)
deriving DecidableEq, Repr

/-- The trap class (R233, R234). -/
def Trap.cls : Trap → BitVec 3
  | .priv => 1#3
  | .fcd => 3#3
  | .cdo => 3#3
  | .cdu => 3#3
  | .csu => 3#3
  | .ctyp => 3#3
  | .nest => 3#3
  | .sys _ => 6#3

/-- The trap identification number (R234). -/
def Trap.tin : Trap → BitVec 8
  | .priv => 1#8
  | .fcd => 1#8
  | .cdo => 2#8
  | .cdu => 3#8
  | .csu => 5#8
  | .ctyp => 6#8
  | .nest => 7#8
  | .sys tin => tin

/-- `TrapVector(class)` (R238). -/
def trapVector (btv : Word) (cls : BitVec 3) : Word := evenBase btv ||| cls.setWidth 32 <<< 5

/-- `VectorAddress(p)`: an OR, so entries alias where the base has bits under the shifted number (R224). -/
def interruptVector (biv : Word) (p : BitVec 8) : Word :=
  evenBase biv ||| (if Biv.vss biv then p.setWidth 32 <<< 3 else p.setWidth 32 <<< 5)

/-! ### Entry -/

/-- What interrupt entry and trap entry do alike once the upper context is saved: steps b to j of R221
and R236, with the registers the handler may not read forgotten (R222). -/
def enterHandler (ret : Word) (safety : Bool) (s : State) : State :=
  let s' := (forgetUpper s).writeA 11 ret
  let s' := if Psw.is s.psw then s' else s'.writeA 10 s.core.isp
  (s'.setPsw (entryPsw s.psw safety)).setIcr (Icr.setIe s.icr false)

/-- `TrapEntry(class, tin, ret)` (R236): one operation for every trap. -/
def trapEntry (t : Trap) (ret : Word) (s : State) : Res State :=
  andThen (saveContext true s) fun s' =>
  .next (((enterHandler ret (Syscon.ts s.core.syscon) s').writeD 15 (t.tin.setWidth 32)).setPc
    (trapVector s.core.btv t.cls))

/-- `raise X` in an instruction: no state change of the instruction, then the entry, returning to the
instruction itself (00_scope.md R12, R236, R237). -/
def raiseTrap (t : Trap) (s : State) : Res State := trapEntry t s.pc s

/-- `InterruptEntry` (R221), for the priority number the ICU presents. -/
def interruptEntry (s : State) : Res State :=
  andThen (saveContext true s) fun s' =>
  let s'' := enterHandler s.pc (Syscon.is s.core.syscon) s'
  .next (((s''.setIcr (Icr.setCcpn s''.icr (Icr.pipn s.icr))).setAcks
    (s''.acks ++ [Icr.pipn s.icr])).setPc (interruptVector s.core.biv (Icr.pipn s.icr)))

/-! ### Return -/

/-- RET (R150), for both its forms: CDU, then CSU, then CTYP, then the restore. -/
def returnFromCall (s : State) : Res State :=
  if Psw.cde s.psw && cdcDecUnderflows (Psw.cdc s.psw) then raiseTrap .cdu s
  else if Pcxi.pcx s.pcxi = 0#20 then raiseTrap .csu s
  else if Pcxi.ul s.pcxi = false then raiseTrap .ctyp s
  else
    andThen (restoreContext s) fun r =>
    .next (((assignUpper r.1 r.2).setPsw (retPsw s.platform.retRestoresRm s.psw
      (csfrFrom s .psw r.1[1]))).setPc (regTarget s.a[11]))

/-- RFE (R188), for both its forms: CSU, then CTYP, then NEST, then the restore. ICR takes PIE and PCPN
from the PCXI register as RFE finds it (C12, log 36). -/
def returnFromException (s : State) : Res State :=
  if Pcxi.pcx s.pcxi = 0#20 then raiseTrap .csu s
  else if Pcxi.ul s.pcxi = false then raiseTrap .ctyp s
  else if Psw.cde s.psw && !cdcZero (Psw.cdc s.psw) then raiseTrap .nest s
  else
    andThen (restoreContext s) fun r =>
    .next ((((assignUpper r.1 r.2).setPsw (rfePsw (csfrFrom s .psw r.1[1]))).setIcr
      (Icr.setCcpn (Icr.setIe s.icr (Pcxi.pie s.pcxi)) (Pcxi.pcpn s.pcxi))).setPc (regTarget s.a[11]))

/-! ### Privilege and advance -/

/-- Supervisor mode (R250). -/
def supervisor (s : State) : Bool := Psw.io s.psw == Io.supervisor

/-- ENABLE and DISABLE run in Supervisor mode, and in User-1 mode unless SYSCON.U1_IED (R256). -/
def mayControlInterrupts (s : State) : Bool :=
  supervisor s || (Psw.io s.psw == Io.user1 && !Syscon.u1Ied s.core.syscon)

/-- `pc <- pc + len`, modulo 2^32 (10_state.md R34). -/
def advance (len : Word) (s : State) : State := s.setPc (s.pc + len)

end Sys2Proof.Machine
end

