-- ==== Sys2Proof/Machine/Calls.lean ====
section
/-! DEFINITION. Calls and returns (40_context_ops.md section 3). -/

namespace Sys2Proof.Machine

/-- The call of R147 to a target, for an instruction of the given length: FCU, then CDO, then the save. -/
def callTo (target len : Word) (s : State) : Res State :=
  if pointerOf s.fcx = 0#20 then .fault .freeListUnderflow
  else if Psw.cde s.psw && cdcIncOverflows (Psw.cdc s.psw) then raiseTrap .cdo s
  else
    andThen (saveContext true s) fun s' =>
    .next ((((forgetUpper s').setPsw (callPsw s.psw)).writeA 11 (s.pc + len)).setPc target)

/-- CALL disp24 (R147). -/
def execCallDisp24 (disp : BitVec 24) (s : State) : Res State := callTo (relTarget24 s.pc disp) 4#32 s

/-- CALLA disp24 (R148). -/
def execCallaDisp24 (disp : BitVec 24) (s : State) : Res State := callTo (absTarget24 disp) 4#32 s

/-- CALLI A[a] (R149). -/
def execCalliA (a : Nat) (s : State) : Res State := callTo (regTarget (readA s a)) 4#32 s

/-- CALL disp8, 16-bit (R151). -/
def execCallDisp8 (disp : BitVec 8) (s : State) : Res State := callTo (relTarget8 s.pc disp) 2#32 s

/-- RET (R150). -/
def execRet (s : State) : Res State := returnFromCall s

/-- RET, 16-bit (R152): the length does not enter. -/
def execRet16 (s : State) : Res State := returnFromCall s

end Sys2Proof.Machine
end

