-- ==== Sys2Proof/Machine/Contexts.lean ====
section
/-! DEFINITION. Lower context save and restore, context store and load (40_context_ops.md sections 5
and 6). -/

namespace Sys2Proof.Machine

/-- SVLCX (R159). -/
def execSvlcx (s : State) : Res State :=
  andThen (saveContext false s) fun s' => .next (advance 4#32 s')

/-- RSLCX (R160): CSU, then CTYP when the head of the previous list is an upper context. -/
def execRslcx (s : State) : Res State :=
  if Pcxi.pcx s.pcxi = 0#20 then raiseTrap .csu s
  else if Pcxi.ul s.pcxi = true then raiseTrap .ctyp s
  else andThen (restoreContext s) fun r => .next (advance 4#32 (assignLower r.1 r.2))

/-- The effective address of a context store or load is a CSA address (20_memory.md R95). -/
def blockAligned (ea : Word) : Bool := ea.extractLsb' 0 6 == 0#6

/-- `StoreContext` (R144), with the alignment fault of R95. -/
def storeContext (form : AlignedForm) (upper : Bool) (ea : Word) (s : State) : Res State :=
  if blockAligned ea then
    andThen (storeBlock s ea (contextWords upper s)) fun s' => .next (advance 4#32 s')
  else .fault (.misaligned form ea)

/-- `LoadContext` (R144), with the alignment fault of R95: word 0, and word 1 of an upper context, are
read and discarded (R165, R166). -/
def loadContext (form : AlignedForm) (upper : Bool) (ea : Word) (s : State) : Res State :=
  if blockAligned ea then
    andThen (loadBlock s ea) fun w =>
    .next (advance 4#32 (if upper then assignUpper w s else assignLower w s))
  else .fault (.misaligned form ea)

/-- STLCX off18 (R163). -/
def execStlcxAbs (off : BitVec 18) (s : State) : Res State := storeContext .stlcx false (absEA off) s

/-- STUCX off18 (R164). -/
def execStucxAbs (off : BitVec 18) (s : State) : Res State := storeContext .stucx true (absEA off) s

/-- LDLCX off18 (R165). -/
def execLdlcxAbs (off : BitVec 18) (s : State) : Res State := loadContext .ldlcx false (absEA off) s

/-- LDUCX off18 (R166). -/
def execLducxAbs (off : BitVec 18) (s : State) : Res State := loadContext .lducx true (absEA off) s

/-- LDLCX A[b], off10 (R165). -/
def execLdlcxBo (b : Nat) (off : BitVec 10) (s : State) : Res State :=
  loadContext .ldlcx false (baseEA (readA s b) off) s

/-- LDUCX A[b], off10 (R166). -/
def execLducxBo (b : Nat) (off : BitVec 10) (s : State) : Res State :=
  loadContext .lducx true (baseEA (readA s b) off) s

/-- STLCX A[b], off10 (R163). -/
def execStlcxBo (b : Nat) (off : BitVec 10) (s : State) : Res State :=
  storeContext .stlcx false (baseEA (readA s b) off) s

/-- STUCX A[b], off10 (R164). -/
def execStucxBo (b : Nat) (off : BitVec 10) (s : State) : Res State :=
  storeContext .stucx true (baseEA (readA s b) off) s

end Sys2Proof.Machine
end

