-- ==== Sys2Proof/Machine/CoreRegisters.lean ====
section
/-! DEFINITION. Core register access and ISYNC (41_interrupt_system_instructions.md sections 4 and 5). -/

namespace Sys2Proof.Machine

/-- The write of a value by an MTCR that privilege, mapping and protection have let pass: through the write mask,
refused where it would set PSW.IO to `11B` (R192 step 4, R193, D16). The ISYNC that must follow is
awaited from then on (R199). -/
def writeCoreRegister (r : Csfr) (mask v : Word) (s : State) : Res State :=
  if r = .psw ∧ Psw.io v = Io.reserved then .refused .reservedIoMode
  else .next (advance 4#32
    ((setCsfr s r (maskedWrite mask (csfrValue s r) v)).setIsyncPending true))

/-- MTCR const16, D[a] (R192, R194): PRIV first; then an address of no register or of a read-only one,
and a protected register in the operational state, are refused (U1, U2, D6). -/
def execMtcr (addr : BitVec 16) (a : Nat) (s : State) : Res State :=
  if supervisor s then
    match csfrOfAddr s addr with
    | none => .refused (.noCoreRegister addr)
    | some r =>
      match csfrWriteMask r with
      | none => .refused (.readOnlyRegister addr)
      | some mask =>
        if endinitProtects r && s.endinit then .refused (.endinitProtected addr)
        else if safetyEndinitProtects r && s.safetyEndinit then .refused (.safetyEndinitProtected addr)
        else writeCoreRegister r mask (csfrFrom s r (readD s a)) s
  else raiseTrap .priv s

/-- MFCR D[c], const16 (R195), in every mode (R256); an address of no register is refused (U2). -/
def execMfcr (c : Nat) (addr : BitVec 16) (s : State) : Res State :=
  match csfrOfAddr s addr with
  | none => .refused (.noCoreRegister addr)
  | some r => .next (advance 4#32 (s.writeD (regIndex c) (readCsfr s r)))

/-- ISYNC (R198): every earlier MTCR is in effect from here on. -/
def execIsync (s : State) : Res State := .next (advance 4#32 (s.setIsyncPending false))

end Sys2Proof.Machine
end

