-- ==== Sys2Proof/Machine/FastCalls.lean ====
section
/-! DEFINITION. Fast calls and returns (40_context_ops.md section 4). -/

namespace Sys2Proof.Machine

/-- The address of the word FCALL stores: `A[10] - 4` (R153). -/
def fastCallSlot (s : State) : Word := s.a[10] - 4#32

/-- A[10] is a word address (20_memory.md R95). -/
def wordAligned (v : Word) : Bool := v.extractLsb' 0 2 == 0#2

/-- The fast call of R153 to a target: the old A[11] is stored, then A[11] and A[10] change. -/
def fastCallTo (target : Word) (s : State) : Res State :=
  if wordAligned s.a[10] then
    andThen (storeWord s (fastCallSlot s) s.a[11]) fun s' =>
    .next (((s'.writeA 11 (s.pc + 4#32)).writeA 10 (fastCallSlot s)).setPc target)
  else .fault (.misaligned .fcall (fastCallSlot s))

/-- The fast return of R157, for both its forms: the target is A[11] from before the load. -/
def fastReturn (s : State) : Res State :=
  if wordAligned s.a[10] then
    andThen (loadWord s s.a[10]) fun ra =>
    .next (((s.writeA 11 ra).writeA 10 (s.a[10] + 4#32)).setPc (regTarget s.a[11]))
  else .fault (.misaligned .fret s.a[10])

/-- FCALL disp24 (R153). -/
def execFcallDisp24 (disp : BitVec 24) (s : State) : Res State := fastCallTo (relTarget24 s.pc disp) s

/-- FCALLA disp24 (R154). -/
def execFcallaDisp24 (disp : BitVec 24) (s : State) : Res State := fastCallTo (absTarget24 disp) s

/-- FCALLI A[a] (R155). -/
def execFcalliA (a : Nat) (s : State) : Res State := fastCallTo (regTarget (readA s a)) s

/-- FRET (R157). -/
def execFret (s : State) : Res State := fastReturn s

/-- FRET, 16-bit (R158): the length does not enter. -/
def execFret16 (s : State) : Res State := fastReturn s

end Sys2Proof.Machine
end

