-- ==== Sys2Proof/Machine/Interrupts.lean ====
section
/-! DEFINITION. Interrupt control, return from exception and system call
(41_interrupt_system_instructions.md sections 1 to 3 and 6). -/

namespace Sys2Proof.Machine

/-- ENABLE (R181), PRIV where R256 says. -/
def execEnable (s : State) : Res State :=
  if mayControlInterrupts s then .next (advance 4#32 (s.setIcr (Icr.setIe s.icr true)))
  else raiseTrap .priv s

/-- DISABLE (R182), PRIV where R256 says. -/
def execDisable (s : State) : Res State :=
  if mayControlInterrupts s then .next (advance 4#32 (s.setIcr (Icr.setIe s.icr false)))
  else raiseTrap .priv s

/-- BISR (R184), for both its forms: PRIV, then the save of the lower context, then ICR. -/
def beginIsr (priority : BitVec 8) (len : Word) (s : State) : Res State :=
  if supervisor s then
    andThen (saveContext false s) fun s' =>
    .next (advance len (s'.setIcr (Icr.setCcpn (Icr.setIe s'.icr true) priority)))
  else raiseTrap .priv s

/-- BISR const9 (R184): only `const9[7:0]` is used. -/
def execBisrConst9 (const : BitVec 9) (s : State) : Res State :=
  beginIsr (const.extractLsb' 0 8) 4#32 s

/-- BISR const8, 16-bit (R185). -/
def execBisrConst8 (const : BitVec 8) (s : State) : Res State := beginIsr const 2#32 s

/-- RFE (R188). -/
def execRfe (s : State) : Res State := returnFromException s

/-- RFE, 16-bit (R189): the length does not enter. -/
def execRfe16 (s : State) : Res State := returnFromException s

/-- SYSCALL const9 (R200): the trap of class 6, returning to the instruction after it (R237). -/
def execSyscall (const : BitVec 9) (s : State) : Res State :=
  trapEntry (.sys (const.extractLsb' 0 8)) (s.pc + 4#32) s

end Sys2Proof.Machine
end

