-- ==== Sys2Proof/Syntax.lean ====
section
/-! DEFINITION. The in-scope instructions as terms: one constructor per row of spec/opcode_table.json.
The term, not its encoding, is the normative level (92_eei_decisions.md D1). Immediates have the width
the spec gives them (30_encoding.md R114); a register operand is a register number, checked by
`Instr.wf` (R115). -/

namespace Sys2Proof

/-- One constructor per row of the opcode table (30_encoding.md R116, R117). -/
inductive Instr where
  /-- CALL disp24 (R147) -/
  | callDisp24 (disp : BitVec 24)
  /-- CALLA disp24 (R148) -/
  | callaDisp24 (disp : BitVec 24)
  /-- CALLI A[a] (R149) -/
  | calliA (a : Nat)
  /-- RET (R150) -/
  | ret
  /-- FCALL disp24 (R153) -/
  | fcallDisp24 (disp : BitVec 24)
  /-- FCALLA disp24 (R154) -/
  | fcallaDisp24 (disp : BitVec 24)
  /-- FCALLI A[a] (R155) -/
  | fcalliA (a : Nat)
  /-- FRET (R157) -/
  | fret
  /-- SVLCX (R159) -/
  | svlcx
  /-- RSLCX (R160) -/
  | rslcx
  /-- STLCX off18, absolute (R163) -/
  | stlcxAbs (off : BitVec 18)
  /-- STUCX off18, absolute (R164) -/
  | stucxAbs (off : BitVec 18)
  /-- LDLCX off18, absolute (R165) -/
  | ldlcxAbs (off : BitVec 18)
  /-- LDUCX off18, absolute (R166) -/
  | lducxAbs (off : BitVec 18)
  /-- LDLCX A[b], off10 (R165) -/
  | ldlcxBo (b : Nat) (off : BitVec 10)
  /-- LDUCX A[b], off10 (R166) -/
  | lducxBo (b : Nat) (off : BitVec 10)
  /-- STLCX A[b], off10 (R163) -/
  | stlcxBo (b : Nat) (off : BitVec 10)
  /-- STUCX A[b], off10 (R164) -/
  | stucxBo (b : Nat) (off : BitVec 10)
  /-- ENABLE (R181) -/
  | enable
  /-- DISABLE (R182) -/
  | disable
  /-- BISR const9 (R184) -/
  | bisrConst9 (const : BitVec 9)
  /-- RFE (R188) -/
  | rfe
  /-- MTCR const16, D[a] (R192) -/
  | mtcr (addr : BitVec 16) (a : Nat)
  /-- MFCR D[c], const16 (R195) -/
  | mfcr (c : Nat) (addr : BitVec 16)
  /-- ISYNC (R198) -/
  | isync
  /-- SYSCALL const9 (R200) -/
  | syscall (const : BitVec 9)
  /-- CALL disp8, 16-bit (R151) -/
  | callDisp8 (disp : BitVec 8)
  /-- RET, 16-bit (R152) -/
  | ret16
  /-- RFE, 16-bit (R189) -/
  | rfe16
  /-- FRET, 16-bit (R158) -/
  | fret16
  /-- BISR const8, 16-bit (R185) -/
  | bisrConst8 (const : BitVec 8)
deriving DecidableEq, Repr

end Sys2Proof
end

