-- ==== Sys2Proof/Machine/Dispatch.lean ====
section
/-! DEFINITION. One arm per constructor of Instr. -/

namespace Sys2Proof.Machine

def exec (i : Instr) (s : State) : Host.Outcome State Fault Refusal :=
  match i with
  | .callDisp24 disp => Sys2Proof.Machine.execCallDisp24 disp s
  | .callaDisp24 disp => Sys2Proof.Machine.execCallaDisp24 disp s
  | .calliA a => Sys2Proof.Machine.execCalliA a s
  | .ret => Sys2Proof.Machine.execRet s
  | .fcallDisp24 disp => Sys2Proof.Machine.execFcallDisp24 disp s
  | .fcallaDisp24 disp => Sys2Proof.Machine.execFcallaDisp24 disp s
  | .fcalliA a => Sys2Proof.Machine.execFcalliA a s
  | .fret => Sys2Proof.Machine.execFret s
  | .svlcx => Sys2Proof.Machine.execSvlcx s
  | .rslcx => Sys2Proof.Machine.execRslcx s
  | .stlcxAbs off => Sys2Proof.Machine.execStlcxAbs off s
  | .stucxAbs off => Sys2Proof.Machine.execStucxAbs off s
  | .ldlcxAbs off => Sys2Proof.Machine.execLdlcxAbs off s
  | .lducxAbs off => Sys2Proof.Machine.execLducxAbs off s
  | .ldlcxBo b off => Sys2Proof.Machine.execLdlcxBo b off s
  | .lducxBo b off => Sys2Proof.Machine.execLducxBo b off s
  | .stlcxBo b off => Sys2Proof.Machine.execStlcxBo b off s
  | .stucxBo b off => Sys2Proof.Machine.execStucxBo b off s
  | .enable => Sys2Proof.Machine.execEnable s
  | .disable => Sys2Proof.Machine.execDisable s
  | .bisrConst9 const => Sys2Proof.Machine.execBisrConst9 const s
  | .rfe => Sys2Proof.Machine.execRfe s
  | .mtcr addr a => Sys2Proof.Machine.execMtcr addr a s
  | .mfcr c addr => Sys2Proof.Machine.execMfcr c addr s
  | .isync => Sys2Proof.Machine.execIsync s
  | .syscall const => Sys2Proof.Machine.execSyscall const s
  | .callDisp8 disp => Sys2Proof.Machine.execCallDisp8 disp s
  | .ret16 => Sys2Proof.Machine.execRet16 s
  | .rfe16 => Sys2Proof.Machine.execRfe16 s
  | .fret16 => Sys2Proof.Machine.execFret16 s
  | .bisrConst8 const => Sys2Proof.Machine.execBisrConst8 const s

end Sys2Proof.Machine
end

