-- ==== Sys2Proof/WellFormed.lean ====
section
/-! DEFINITION. Which terms are instructions: a register operand names one of sixteen registers
(30_encoding.md R115). Every other operand has the spec's width by its type. -/

namespace Sys2Proof

/-- A 4-bit register field selects register 0 to 15 (R115). -/
def regNumberOk (n : Nat) : Bool := decide (n < 16)

/-- The check of a term, one register check for each constructor that has a register operand. -/
def Instr.wf : Instr → Bool
  | .callDisp24 _ => true
  | .callaDisp24 _ => true
  | .calliA a => regNumberOk a
  | .ret => true
  | .fcallDisp24 _ => true
  | .fcallaDisp24 _ => true
  | .fcalliA a => regNumberOk a
  | .fret => true
  | .svlcx => true
  | .rslcx => true
  | .stlcxAbs _ => true
  | .stucxAbs _ => true
  | .ldlcxAbs _ => true
  | .lducxAbs _ => true
  | .ldlcxBo b _ => regNumberOk b
  | .lducxBo b _ => regNumberOk b
  | .stlcxBo b _ => regNumberOk b
  | .stucxBo b _ => regNumberOk b
  | .enable => true
  | .disable => true
  | .bisrConst9 _ => true
  | .rfe => true
  | .mtcr _ a => regNumberOk a
  | .mfcr c _ => regNumberOk c
  | .isync => true
  | .syscall _ => true
  | .callDisp8 _ => true
  | .ret16 => true
  | .rfe16 => true
  | .fret16 => true
  | .bisrConst8 _ => true

end Sys2Proof
end

