-- ==== Sys2Proof/Decode.lean ====
section
/-! DEFINITION. The decoder, total on any bytes and rejecting by name, and the encoder, both written
from the formats and opcode map of 30_encoding.md (R110 to R120). Every bit pattern is the spec's
general knowledge (R110 preamble, log 3: PRESUMED, unsafe). -/

namespace Sys2Proof

/-- Why the decoder refuses bytes (30_encoding.md R119, 92_eei_decisions.md D20). -/
inductive Reject where
  /-- R119 (c): a known instruction that is out of scope (R118, R120), named -/
  | outOfScope (name : String)
  /-- R119 (b): the word selects the row named but has a non-zero unused field -/
  | unusedField (mnemonic : String)
  /-- R119 (d): any other word -/
  | notShown
  /-- fewer bytes than the instruction has; a fetch never gives this -/
  | truncated
deriving DecidableEq, Repr

/-! ### Formats (R112, R113) -/

/-- Format B: a 24-bit displacement, its low half in the high halfword. -/
def formatB (op1 : Byte) (disp : BitVec 24) : Word :=
  disp.extractLsb' 0 16 ++ disp.extractLsb' 16 8 ++ op1

/-- Format SYS, `op1 = 0x0D`. -/
def formatSys (op2 : BitVec 6) : Word := 0#4 ++ op2 ++ 0#10 ++ 0#4 ++ 0x0D#8

/-- Format RC, `op1 = 0xAD`, with `c = s1 = 0`. -/
def formatRc (op2 : BitVec 7) (const9 : BitVec 9) : Word := 0#4 ++ op2 ++ const9 ++ 0#4 ++ 0xAD#8

/-- Format RLC. -/
def formatRlc (op1 : Byte) (c : BitVec 4) (const16 : BitVec 16) (s1 : BitVec 4) : Word :=
  c ++ const16 ++ s1 ++ op1

/-- Format RR, `op1 = 0x2D`, with `c = n = s2 = 0`. -/
def formatRr (op2 : Byte) (s1 : BitVec 4) : Word :=
  0#4 ++ op2 ++ 0#2 ++ 0#2 ++ 0#4 ++ s1 ++ 0x2D#8

/-- Format ABS, `op1 = 0x15`, with `s1/d = 0`. -/
def formatAbs (op2 : BitVec 2) (off : BitVec 18) : Word :=
  off.extractLsb' 6 4 ++ op2 ++ off.extractLsb' 10 4 ++ off.extractLsb' 0 6 ++ off.extractLsb' 14 4
    ++ 0#4 ++ 0x15#8

/-- Format BO, `op1 = 0x49`, with `s1/d = 0`. -/
def formatBo (op2 : BitVec 6) (s2 : BitVec 4) (off : BitVec 10) : Word :=
  off.extractLsb' 6 4 ++ op2 ++ off.extractLsb' 0 6 ++ s2 ++ 0#4 ++ 0x49#8

/-- Formats SB and SC: eight bits of operand above the opcode. -/
def formatS8 (op1 : Byte) (v : BitVec 8) : Half := v ++ op1

/-- Format SR, `op1 = 0x00`, with `s1/d = 0`. -/
def formatSr (op2 : BitVec 4) : Half := op2 ++ 0#4 ++ 0x00#8

/-- The 24-bit displacement of a format B word. -/
def dispOfB (w : Word) : BitVec 24 := w.extractLsb' 8 8 ++ w.extractLsb' 16 16

/-- The 18-bit offset of a format ABS word. -/
def offOfAbs (w : Word) : BitVec 18 :=
  w.extractLsb' 12 4 ++ w.extractLsb' 22 4 ++ w.extractLsb' 28 4 ++ w.extractLsb' 16 6

/-- The 10-bit offset of a format BO word. -/
def offOfBo (w : Word) : BitVec 10 := w.extractLsb' 28 4 ++ w.extractLsb' 16 6

/-- The number in a 4-bit register field at bit `lo` (R115). -/
def regField (w : Word) (lo : Nat) : Nat := (w.extractLsb' lo 4).toNat

/-! ### Decoding -/

/-- An instruction if its unused fields are zero, else the refusal of R119 (b). -/
def whenUnusedZero (zero : Bool) (mnemonic : String) (i : Instr) : Except Reject Instr :=
  if zero then .ok i else .error (.unusedField mnemonic)

/-- The SYS group, `op1 = 0x0D`, by `op2` (R116, R118). -/
def decodeSys (w : Word) : Except Reject Instr :=
  let op2 : BitVec 6 := w.extractLsb' 22 6
  let zero := w.extractLsb' 28 4 == 0#4 && w.extractLsb' 8 14 == 0#14
  if op2 = 0x06#6 then whenUnusedZero zero "RET" .ret
  else if op2 = 0x03#6 then whenUnusedZero zero "FRET" .fret
  else if op2 = 0x08#6 then whenUnusedZero zero "SVLCX" .svlcx
  else if op2 = 0x09#6 then whenUnusedZero zero "RSLCX" .rslcx
  else if op2 = 0x0C#6 then whenUnusedZero zero "ENABLE" .enable
  else if op2 = 0x0D#6 then whenUnusedZero zero "DISABLE" .disable
  else if op2 = 0x07#6 then whenUnusedZero zero "RFE" .rfe
  else if op2 = 0x13#6 then whenUnusedZero zero "ISYNC" .isync
  else if op2 = 0x00#6 then .error (.outOfScope "NOP")
  else if op2 = 0x04#6 then .error (.outOfScope "DEBUG")
  else if op2 = 0x0E#6 then .error (.outOfScope "RESTORE D[a]")
  else if op2 = 0x0F#6 then .error (.outOfScope "DISABLE D[a]")
  else if op2 = 0x12#6 then .error (.outOfScope "DSYNC")
  else if op2 = 0x14#6 then .error (.outOfScope "TRAPV")
  else if op2 = 0x15#6 then .error (.outOfScope "TRAPSV")
  else if op2 = 0x16#6 then .error (.outOfScope "WAIT")
  else .error .notShown

/-- The RR group, `op1 = 0x2D` (R116). -/
def decodeRr (w : Word) : Except Reject Instr :=
  let op2 : Byte := w.extractLsb' 20 8
  let zero := w.extractLsb' 28 4 == 0#4 && w.extractLsb' 12 8 == 0#8
  if op2 = 0x00#8 then whenUnusedZero zero "CALLI_A_a" (.calliA (regField w 8))
  else if op2 = 0x01#8 then whenUnusedZero zero "FCALLI_A_a" (.fcalliA (regField w 8))
  else .error .notShown

/-- The ABS group, `op1 = 0x15` (R116). -/
def decodeAbs (w : Word) : Except Reject Instr :=
  let op2 : BitVec 2 := w.extractLsb' 26 2
  let zero := w.extractLsb' 8 4 == 0#4
  let off := offOfAbs w
  if op2 = 0#2 then whenUnusedZero zero "STLCX_off18" (.stlcxAbs off)
  else if op2 = 1#2 then whenUnusedZero zero "STUCX_off18" (.stucxAbs off)
  else if op2 = 2#2 then whenUnusedZero zero "LDLCX_off18" (.ldlcxAbs off)
  else whenUnusedZero zero "LDUCX_off18" (.lducxAbs off)

/-- The BO group, `op1 = 0x49` (R116). -/
def decodeBo (w : Word) : Except Reject Instr :=
  let op2 : BitVec 6 := w.extractLsb' 22 6
  let zero := w.extractLsb' 8 4 == 0#4
  let b := regField w 12
  let off := offOfBo w
  if op2 = 0x24#6 then whenUnusedZero zero "LDLCX_A_b___off10" (.ldlcxBo b off)
  else if op2 = 0x25#6 then whenUnusedZero zero "LDUCX_A_b___off10" (.lducxBo b off)
  else if op2 = 0x26#6 then whenUnusedZero zero "STLCX_A_b___off10" (.stlcxBo b off)
  else if op2 = 0x27#6 then whenUnusedZero zero "STUCX_A_b___off10" (.stucxBo b off)
  else .error .notShown

/-- The RC group, `op1 = 0xAD` (R116). -/
def decodeRc (w : Word) : Except Reject Instr :=
  let op2 : BitVec 7 := w.extractLsb' 21 7
  let zero := w.extractLsb' 28 4 == 0#4 && w.extractLsb' 8 4 == 0#4
  let const9 : BitVec 9 := w.extractLsb' 12 9
  if op2 = 0x00#7 then whenUnusedZero zero "BISR_const9" (.bisrConst9 const9)
  else if op2 = 0x04#7 then whenUnusedZero zero "SYSCALL_const9" (.syscall const9)
  else .error .notShown

/-- A 32-bit instruction word (R116). -/
def decode32 (w : Word) : Except Reject Instr :=
  let op1 : Byte := w.extractLsb' 0 8
  if op1 = 0x6D#8 then .ok (.callDisp24 (dispOfB w))
  else if op1 = 0xED#8 then .ok (.callaDisp24 (dispOfB w))
  else if op1 = 0x61#8 then .ok (.fcallDisp24 (dispOfB w))
  else if op1 = 0xE1#8 then .ok (.fcallaDisp24 (dispOfB w))
  else if op1 = 0x2D#8 then decodeRr w
  else if op1 = 0x0D#8 then decodeSys w
  else if op1 = 0x15#8 then decodeAbs w
  else if op1 = 0x49#8 then decodeBo w
  else if op1 = 0xAD#8 then decodeRc w
  else if op1 = 0xCD#8 then
    whenUnusedZero (w.extractLsb' 28 4 == 0#4) "MTCR_const16__D_a"
      (.mtcr (w.extractLsb' 12 16) (regField w 8))
  else if op1 = 0x4D#8 then
    whenUnusedZero (w.extractLsb' 8 4 == 0#4) "MFCR_D_c___const16"
      (.mfcr (regField w 28) (w.extractLsb' 12 16))
  else .error .notShown

/-- A 16-bit instruction (R117; NOP is R120). -/
def decode16 (h : Half) : Except Reject Instr :=
  let op1 : Byte := h.extractLsb' 0 8
  if op1 = 0x5C#8 then .ok (.callDisp8 (h.extractLsb' 8 8))
  else if op1 = 0xE0#8 then .ok (.bisrConst8 (h.extractLsb' 8 8))
  else if op1 = 0x00#8 then
    let op2 : BitVec 4 := h.extractLsb' 12 4
    let zero := h.extractLsb' 8 4 == 0#4
    if op2 = 0x9#4 then whenUnusedZero zero "RET__16-bit" .ret16
    else if op2 = 0x8#4 then whenUnusedZero zero "RFE__16-bit" .rfe16
    else if op2 = 0x7#4 then whenUnusedZero zero "FRET__16-bit" .fret16
    else if h = 0x0000#16 then .error (.outOfScope "NOP")
    else .error .notShown
  else .error .notShown

/-- Bit 0 of the primary opcode tells the length: 0 is 16 bits, 1 is 32 bits (R110). -/
def isLong (firstByte : Byte) : Bool := firstByte.getLsbD 0

/-- Decoding a byte list, lowest address first (R111): the instruction and the bytes after it. -/
def decode : List Byte → Except Reject (Instr × List Byte)
  | b0 :: b1 :: rest =>
    if isLong b0 then
      match rest with
      | b2 :: b3 :: rest' =>
        match decode32 (b3 ++ b2 ++ b1 ++ b0) with
        | .ok i => .ok (i, rest')
        | .error r => .error r
      | _ => .error .truncated
    else
      match decode16 (b1 ++ b0) with
      | .ok i => .ok (i, rest)
      | .error r => .error r
  | _ => .error .truncated

/-! ### Encoding -/

/-- An instruction as the word or halfword it is stored as. -/
inductive Code where
  /-- a 32-bit instruction -/
  | long (w : Word)
  /-- a 16-bit instruction -/
  | short (h : Half)
deriving DecidableEq, Repr

/-- The 4-bit field that holds a register number (R115). -/
def regBits (n : Nat) : BitVec 4 := BitVec.ofNat 4 n

/-- The word of an instruction (R116, R117). -/
def Instr.code : Instr → Code
  | .callDisp24 disp => .long (formatB 0x6D#8 disp)
  | .callaDisp24 disp => .long (formatB 0xED#8 disp)
  | .calliA a => .long (formatRr 0x00#8 (regBits a))
  | .ret => .long (formatSys 0x06#6)
  | .fcallDisp24 disp => .long (formatB 0x61#8 disp)
  | .fcallaDisp24 disp => .long (formatB 0xE1#8 disp)
  | .fcalliA a => .long (formatRr 0x01#8 (regBits a))
  | .fret => .long (formatSys 0x03#6)
  | .svlcx => .long (formatSys 0x08#6)
  | .rslcx => .long (formatSys 0x09#6)
  | .stlcxAbs off => .long (formatAbs 0#2 off)
  | .stucxAbs off => .long (formatAbs 1#2 off)
  | .ldlcxAbs off => .long (formatAbs 2#2 off)
  | .lducxAbs off => .long (formatAbs 3#2 off)
  | .ldlcxBo b off => .long (formatBo 0x24#6 (regBits b) off)
  | .lducxBo b off => .long (formatBo 0x25#6 (regBits b) off)
  | .stlcxBo b off => .long (formatBo 0x26#6 (regBits b) off)
  | .stucxBo b off => .long (formatBo 0x27#6 (regBits b) off)
  | .enable => .long (formatSys 0x0C#6)
  | .disable => .long (formatSys 0x0D#6)
  | .bisrConst9 c => .long (formatRc 0x00#7 c)
  | .rfe => .long (formatSys 0x07#6)
  | .mtcr addr a => .long (formatRlc 0xCD#8 0#4 addr (regBits a))
  | .mfcr c addr => .long (formatRlc 0x4D#8 (regBits c) addr 0#4)
  | .isync => .long (formatSys 0x13#6)
  | .syscall c => .long (formatRc 0x04#7 c)
  | .callDisp8 disp => .short (formatS8 0x5C#8 disp)
  | .ret16 => .short (formatSr 0x9#4)
  | .rfe16 => .short (formatSr 0x8#4)
  | .fret16 => .short (formatSr 0x7#4)
  | .bisrConst8 c => .short (formatS8 0xE0#8 c)

/-- The bytes of a word or halfword in memory order: little-endian (R111, 20_memory.md R90). -/
def Code.bytes : Code → List Byte
  | .long w => [w.extractLsb' 0 8, w.extractLsb' 8 8, w.extractLsb' 16 8, w.extractLsb' 24 8]
  | .short h => [h.extractLsb' 0 8, h.extractLsb' 8 8]

/-- The encoder: the bytes of an instruction, lowest address first. -/
def encode (i : Instr) : List Byte := i.code.bytes

/-- The length of an instruction in bytes, 2 or 4 (R110, R116, R117). -/
def Instr.length (i : Instr) : Nat :=
  match i.code with
  | .long _ => 4
  | .short _ => 2

/-! ### The table's words -/

/-- Byte `k` in memory order of an instruction of `nbits` bits whose bits are `w`; the bits above
`nbits` are 0. -/
def tableByte (nbits w k : Nat) : Byte := BitVec.ofNat 8 ((w % 2 ^ nbits) >>> (8 * k))

/-- The first four bytes, the length of the longest instruction, of a table word (R111). -/
def tableBytes (nbits w : Nat) : List Byte :=
  [tableByte nbits w 0, tableByte nbits w 1, tableByte nbits w 2, tableByte nbits w 3]

/-- The instruction the decoder reads from an instruction whose bits are `w`. -/
def decodeTableWord (nbits w : Nat) : Option Instr :=
  match decode (tableBytes nbits w) with
  | .ok (i, _) => some i
  | .error _ => none

end Sys2Proof
end

