-- ==== Sys2Proof/Machine/Events.lean ====
section
/-! DEFINITION. What a step does around an instruction: the other agents' inputs, the deferred FCD trap,
interrupt acceptance, the fetch, and the ISYNC an MTCR awaits (60_exceptions.md R216 to R219, R243;
30_encoding.md R111; 41_interrupt_system_instructions.md R199). -/

namespace Sys2Proof.Machine

/-- What the agents present before this step: ICR.PIPN from the ICU (R216) and the two ENDINIT Booleans
from the system (10_state.md R66). With no entry left nothing changes (log 14). -/
def presentInputs (s : State) : State :=
  match s.inputs with
  | [] => s
  | x :: xs =>
    ((s.setInputs xs).setIcr (Icr.setPipn s.icr x.pipn)).setEndinits x.endinit x.safetyEndinit

/-- A state with PSW.IO = `11B` is refused (R256, D16, log 22). -/
def reservedMode (s : State) : Bool := Psw.io s.psw == Io.reserved

/-- The acceptance condition (R217). -/
def interruptWanted (s : State) : Bool :=
  Icr.ie s.icr && decide (Icr.ccpn s.icr < Icr.pipn s.icr)

/-- This step is an interrupt entry: the request is acceptable and no MTCR awaits its ISYNC (R219). -/
def interruptTaken (s : State) : Bool := interruptWanted s && !s.isyncPending

/-- The deferred FCD trap: its return address is the next instruction (R243). -/
def takeDeferredFcd (s : State) : Res State := trapEntry .fcd s.pc (s.setFcdDeferred false)

/-- The refusal of bytes the decoder refuses. -/
def refusalOf : Reject → Refusal
  | .outOfScope name => .outOfScope name
  | .unusedField mnemonic => .unusedField mnemonic
  | .notShown => .notShown
  | .truncated => .notShown

/-- The two bytes of a halfword of program text: read, and refused where the loader declared no text
(DESIGN CHOICE, log 10). -/
def fetchHalf (s : State) (ea : Word) : Res (List Byte) :=
  match readStops s .fetch ea 2 with
  | some r => .fault r
  | none =>
    match (span ea 2).find? fun a => !isText s a with
    | some a => .refused (.notProgramText a)
    | none => .next [byteAt s ea, byteAt s (ea + 1#32)]

/-- The bytes of the instruction at pc: the halfword there and, when bit 0 of its first byte says so, the
halfword after it (R110, R111, log 34). -/
def fetchBytes (s : State) : Res (List Byte) :=
  andThen (fetchHalf s s.pc) fun first =>
  if isLong (byteAt s s.pc) then
    andThen (fetchHalf s (s.pc + 2#32)) fun second => .next (first ++ second)
  else .next first

/-- The instruction at pc. -/
def fetch (s : State) : Res Instr :=
  andThen (fetchBytes s) fun bytes =>
  match decode bytes with
  | .ok (i, _) => .next i
  | .error r => .refused (refusalOf r)

/-- After an MTCR only ISYNC runs (R199, R280, D11, log 17). -/
def awaitsIsync (i : Instr) (s : State) : Bool := s.isyncPending && i != .isync

/-- A state in which the next step fetches: no FCD is deferred, no MTCR awaits its ISYNC, and where an
interrupt would be taken the agents present no request. -/
def quiet (s : State) : State :=
  let s := (s.setFcdDeferred false).setIsyncPending false
  if interruptTaken (presentInputs s) then (s.setInputs []).setIcr (Icr.setPipn s.icr 0#8) else s

/-- The byte at an address declared backed program text, where it is not already. -/
def declareText (s : State) (a : Word) : State :=
  s.setPlatform { s.platform with
    memValid := if backed s a then s.platform.memValid else ⟨a.toNat, 1⟩ :: s.platform.memValid
    text := if isText s a then s.platform.text else ⟨a.toNat, 1⟩ :: s.platform.text }

end Sys2Proof.Machine
end

