-- ==== Sys2Proof/Machine/Step.lean ====
section
/-! DEFINITION. One step of the core (60_exceptions.md R219): the other agents present their inputs, and
then the core performs one trap entry, one interrupt entry or one instruction. -/

namespace Sys2Proof.Machine

/-- The core's part of a step, on what the agents have presented: a deferred FCD comes first, then an
acceptable interrupt, then the instruction at pc (R219, R243, R245). -/
def coreStep (s : State) : Host.Outcome State Fault Refusal :=
  if reservedMode s then .refused .reservedIoMode
  else if s.fcdDeferred then takeDeferredFcd s
  else if interruptTaken s then interruptEntry s
  else andThen (fetch s) fun i => if awaitsIsync i s then .refused .isyncMissing else exec i s

/-- One step (R219). -/
def step (s : State) : Host.Outcome State Fault Refusal := coreStep (presentInputs s)

/-- The state with an instruction's bytes, four with zeros above it, stored as program text where the next
step fetches, so that the next step runs it. -/
def State.withFetchWord (s : State) (nbits w : Nat) : State :=
  let m := (((s.mem.write s.pc.toNat (tableByte nbits w 0)).write (s.pc + 1#32).toNat
    (tableByte nbits w 1)).write (s.pc + 2#32).toNat (tableByte nbits w 2)).write
      (s.pc + 3#32).toNat (tableByte nbits w 3)
  (span s.pc 4).foldl declareText ((quiet s).setMem m)

end Sys2Proof.Machine
end

