-- ==== Sys2Proof/Safety.lean ====
section
/-! DEFINITION. The terms claims are stated in: what may be accessed, what a save, a restore and an entry
leave, what an instruction leaves alone, and the invariant of the machine. -/

namespace Sys2Proof.Machine

/-! ### Access -/

/-- The `n` bytes from `ea` can be read: backed by the platform (20_memory.md R80) and written before. -/
def Readable (s : State) (ea : Word) (n : Nat) : Prop :=
  ∀ a ∈ span ea n, backed s a = true ∧ (s.mem.read a.toNat).isSome = true

/-- The `n` bytes from `ea` can be written: backed (R80) and no program text (R104). -/
def Writable (s : State) (ea : Word) (n : Nat) : Prop :=
  ∀ a ∈ span ea n, backed s a = true ∧ isText s a = false

/-- A context save finds a free CSA it can use: the free list is not empty, the link word of its head can
be read and the CSA can be written. -/
def CanSave (s : State) : Prop :=
  pointerOf s.fcx ≠ 0#20 ∧ Readable s (csaEA (pointerOf s.fcx)) 4 ∧ Writable s (csaEA (pointerOf s.fcx)) 64

/-- A context restore of the kind finds its CSA: the previous list is not empty, its head is of the kind
(`true` is upper), and the CSA can be read and its link word written. -/
def CanRestore (upper : Bool) (s : State) : Prop :=
  Pcxi.pcx s.pcxi ≠ 0#20 ∧ Pcxi.ul s.pcxi = upper ∧ Readable s (csaEA (Pcxi.pcx s.pcxi)) 64 ∧
    Writable s (csaEA (Pcxi.pcx s.pcxi)) 4

/-- The outcome is the fault of a byte, one of the `n` from `ea`, that cannot be read: not backed by the
platform (20_memory.md R80, 92_eei_decisions.md D15), or never written (log 8). -/
def StopsUnread {α : Type} (o : Res α) (k : AccessKind) (s : State) (ea : Word) (n : Nat) : Prop :=
  ∃ a ∈ span ea n, (backed s a = false ∧ o = .fault (.notBacked k a)) ∨
    (backed s a = true ∧ s.mem.read a.toNat = none ∧ o = .fault (.unwritten k a))

/-- The outcome is the stop of a byte, one of the `n` from `ea`, that cannot be written: not backed by the
platform (R80, D15), or program text (R104, D24). -/
def StopsUnwritten {α : Type} (o : Res α) (s : State) (ea : Word) (n : Nat) : Prop :=
  ∃ a ∈ span ea n, (backed s a = false ∧ o = .fault (.notBacked .store a)) ∨
    (backed s a = true ∧ isText s a = true ∧ o = .refused (.programText a))

/-! ### What stays -/

/-- Every byte of memory outside the `n` bytes from `ea` reads as before. -/
def SameMemoryOutside (ea : Word) (n : Nat) (s t : State) : Prop :=
  ∀ a : Nat, (∀ b ∈ span ea n, b.toNat ≠ a) → t.mem.read a = s.mem.read a

/-- Every byte of memory reads as before. -/
def SameMemory (s t : State) : Prop := ∀ a : Nat, t.mem.read a = s.mem.read a

/-- The data registers outside the list are unchanged. -/
def SameDataExcept (rs : List (Fin 16)) (s t : State) : Prop := ∀ r : Fin 16, r ∉ rs → t.d[r] = s.d[r]

/-- The address registers outside the list are unchanged. -/
def SameAddressExcept (rs : List (Fin 16)) (s t : State) : Prop := ∀ r : Fin 16, r ∉ rs → t.a[r] = s.a[r]

/-- What no instruction but MTCR and ISYNC writes: LCX, ISP, BIV, BTV, SYSCON and the other core registers
of the record, the pending ISYNC, and what belongs to the other agents and the platform. -/
structure SameSystem (s t : State) : Prop where
  core : t.core = s.core
  isyncPending : t.isyncPending = s.isyncPending
  endinit : t.endinit = s.endinit
  safetyEndinit : t.safetyEndinit = s.safetyEndinit
  inputs : t.inputs = s.inputs
  platform : t.platform = s.platform

/-- `SameSystem`, and no acknowledge and no free value. -/
structure SameSystemAndFree (s t : State) : Prop extends SameSystem s t where
  acks : t.acks = s.acks
  freeCount : t.freeCount = s.freeCount

/-- The context registers PCXI and FCX and the deferred FCD trap are unchanged. -/
structure SameLists (s t : State) : Prop where
  pcxi : t.pcxi = s.pcxi
  fcx : t.fcx = s.fcx
  fcdDeferred : t.fcdDeferred = s.fcdDeferred

/-- The general registers are unchanged. -/
structure SameRegisters (s t : State) : Prop where
  d : t.d = s.d
  a : t.a = s.a

/-- PSW, ICR, the lists and everything of `SameSystemAndFree` are unchanged. -/
structure SameStatus (s t : State) : Prop extends SameSystemAndFree s t, SameLists s t where
  psw : t.psw = s.psw
  icr : t.icr = s.icr

/-! ### What a save, a restore and an entry leave -/

/-- The sixteen words stand at `ea` (00_scope.md R11). -/
def WordsAt (t : State) (ea : Word) (w : Vector Word 16) : Prop :=
  ∀ k : Fin 16, t.mem.readWord (blockAddr ea k) = some w[k]

/-- The sixteen words of an upper context stand at `ea`, in the order of 20_memory.md R85. -/
structure UpperImage (m : Memory) (ea : Word) (s : State) : Prop where
  w0 : m.readWord ea = some (csfrWord s .pcxi)
  w1 : m.readWord (ea + 0x04#32) = some (csfrWord s .psw)
  w2 : m.readWord (ea + 0x08#32) = some s.a[10]
  w3 : m.readWord (ea + 0x0C#32) = some s.a[11]
  w4 : m.readWord (ea + 0x10#32) = some s.d[8]
  w5 : m.readWord (ea + 0x14#32) = some s.d[9]
  w6 : m.readWord (ea + 0x18#32) = some s.d[10]
  w7 : m.readWord (ea + 0x1C#32) = some s.d[11]
  w8 : m.readWord (ea + 0x20#32) = some s.a[12]
  w9 : m.readWord (ea + 0x24#32) = some s.a[13]
  w10 : m.readWord (ea + 0x28#32) = some s.a[14]
  w11 : m.readWord (ea + 0x2C#32) = some s.a[15]
  w12 : m.readWord (ea + 0x30#32) = some s.d[12]
  w13 : m.readWord (ea + 0x34#32) = some s.d[13]
  w14 : m.readWord (ea + 0x38#32) = some s.d[14]
  w15 : m.readWord (ea + 0x3C#32) = some s.d[15]

/-- The sixteen words of a lower context stand at `ea`, in the order of 20_memory.md R86. -/
structure LowerImage (m : Memory) (ea : Word) (s : State) : Prop where
  w0 : m.readWord ea = some (csfrWord s .pcxi)
  w1 : m.readWord (ea + 0x04#32) = some s.a[11]
  w2 : m.readWord (ea + 0x08#32) = some s.a[2]
  w3 : m.readWord (ea + 0x0C#32) = some s.a[3]
  w4 : m.readWord (ea + 0x10#32) = some s.d[0]
  w5 : m.readWord (ea + 0x14#32) = some s.d[1]
  w6 : m.readWord (ea + 0x18#32) = some s.d[2]
  w7 : m.readWord (ea + 0x1C#32) = some s.d[3]
  w8 : m.readWord (ea + 0x20#32) = some s.a[4]
  w9 : m.readWord (ea + 0x24#32) = some s.a[5]
  w10 : m.readWord (ea + 0x28#32) = some s.a[6]
  w11 : m.readWord (ea + 0x2C#32) = some s.a[7]
  w12 : m.readWord (ea + 0x30#32) = some s.d[4]
  w13 : m.readWord (ea + 0x34#32) = some s.d[5]
  w14 : m.readWord (ea + 0x38#32) = some s.d[6]
  w15 : m.readWord (ea + 0x3C#32) = some s.d[7]

/-- The words at `ea` are the context of the kind that `s` has: `true` is upper. -/
def ContextImage (upper : Bool) (m : Memory) (ea : Word) (s : State) : Prop :=
  (upper = true → UpperImage m ea s) ∧ (upper = false → LowerImage m ea s)

/-- What a context save of the kind does to the lists, PCXI and memory (40_context_ops.md R141): `s` is
the state before it, `t` any state after it in which nothing of this has changed again. -/
structure Saved (upper : Bool) (s t : State) : Prop where
  words : ContextImage upper t.mem (csaEA (pointerOf s.fcx)) s
  memory : SameMemoryOutside (csaEA (pointerOf s.fcx)) 64 s t
  pcxi : t.pcxi = Pcxi.make (Icr.ccpn s.icr) (Icr.ie s.icr) upper (pointerOf s.fcx)
  fcx : ∃ link, s.mem.readWord (csaEA (pointerOf s.fcx)) = some link ∧
    t.fcx = ofPointer (pointerOf (csfrFrom s .fcx link))
  fcd : t.fcdDeferred = (s.fcdDeferred || pointerOf s.fcx == pointerOf s.core.lcx)

/-- What a context restore that read the words `w` does to the lists, PCXI and memory (R143). The reserved
bits 31:30 of PCXI are not loaded (10_state.md R45, 92_eei_decisions.md D23, log 21). -/
structure Restored (w : Vector Word 16) (s t : State) : Prop where
  words : WordsAt s (csaEA (Pcxi.pcx s.pcxi)) w
  link : t.mem.readWord (csaEA (Pcxi.pcx s.pcxi)) = some (csfrWord s .fcx)
  memory : SameMemoryOutside (csaEA (Pcxi.pcx s.pcxi)) 4 s t
  fcx : t.fcx = ofPointer (Pcxi.pcx s.pcxi)
  pcxi : t.pcxi = csfrFrom s .pcxi w[0] &&& 0x3FFFFFFF#32
  fcd : t.fcdDeferred = s.fcdDeferred

/-- The general registers of the upper context hold the words of `w` in the order of 20_memory.md R85, and
no other general register has changed. -/
structure UpperFrom (w : Vector Word 16) (s t : State) : Prop where
  a10 : t.a[10] = w[2]
  a11 : t.a[11] = w[3]
  d8 : t.d[8] = w[4]
  d9 : t.d[9] = w[5]
  d10 : t.d[10] = w[6]
  d11 : t.d[11] = w[7]
  a12 : t.a[12] = w[8]
  a13 : t.a[13] = w[9]
  a14 : t.a[14] = w[10]
  a15 : t.a[15] = w[11]
  d12 : t.d[12] = w[12]
  d13 : t.d[13] = w[13]
  d14 : t.d[14] = w[14]
  d15 : t.d[15] = w[15]
  dataKept : SameDataExcept [8, 9, 10, 11, 12, 13, 14, 15] s t
  addressKept : SameAddressExcept [10, 11, 12, 13, 14, 15] s t

/-- The general registers of the lower context hold the words of `w` in the order of 20_memory.md R86, and
no other general register has changed. -/
structure LowerFrom (w : Vector Word 16) (s t : State) : Prop where
  a11 : t.a[11] = w[1]
  a2 : t.a[2] = w[2]
  a3 : t.a[3] = w[3]
  d0 : t.d[0] = w[4]
  d1 : t.d[1] = w[5]
  d2 : t.d[2] = w[6]
  d3 : t.d[3] = w[7]
  a4 : t.a[4] = w[8]
  a5 : t.a[5] = w[9]
  a6 : t.a[6] = w[10]
  a7 : t.a[7] = w[11]
  d4 : t.d[4] = w[12]
  d5 : t.d[5] = w[13]
  d6 : t.d[6] = w[14]
  d7 : t.d[7] = w[15]
  dataKept : SameDataExcept [0, 1, 2, 3, 4, 5, 6, 7] s t
  addressKept : SameAddressExcept [2, 3, 4, 5, 6, 7, 11] s t

/-- PSW on entry to a handler (60_exceptions.md R221 items 3 to 9, R236 c to i): the fields entry sets, and
the other bits as they were. -/
structure EntryPsw (before after : Word) (safety : Bool) : Prop where
  is : Psw.is after = true
  io : Psw.io after = 0b10#2
  prs : Psw.prs after = 0b000#3
  cdc : Psw.cdc after = 0b0000000#7
  cde : Psw.cde after = true
  s : Psw.s after = safety
  gw : Psw.gw after = false
  others : ∀ j, 16 ≤ j → after.getLsbD j = before.getLsbD j

/-- What the entry to a handler leaves (R221, R236): the upper context saved, A[11] the return address, the
stack switched when PSW.IS was 0, PSW as `EntryPsw` says, interrupts disabled. The registers named
undefined by 10_state.md R32 are not mentioned: A[12] to A[15], D[8] to D[14], and D[15] of an interrupt
handler. The other general registers are unchanged. -/
structure HandlerEntered (ret : Word) (safety : Bool) (s t : State) : Prop where
  saved : Saved true s t
  a11 : t.a[11] = ret
  a10 : t.a[10] = if Psw.is s.psw then s.a[10] else s.core.isp
  psw : EntryPsw s.psw t.psw safety
  ie : Icr.ie t.icr = false
  icrOthers : ∀ j, 8 ≤ j → j ≠ 15 → t.icr.getLsbD j = s.icr.getLsbD j
  dataKept : SameDataExcept [8, 9, 10, 11, 12, 13, 14, 15] s t
  addressKept : SameAddressExcept [10, 11, 12, 13, 14, 15] s t
  system : SameSystem s t

/-- What trap entry leaves (R236): the handler entered with PSW.S from SYSCON.TS, D[15] the trap
identification number, CCPN kept, pc at the class's vector, nothing acknowledged. -/
structure TrapTaken (t : Trap) (ret : Word) (s s' : State) : Prop where
  entered : HandlerEntered ret (Syscon.ts s.core.syscon) s s'
  d15 : s'.d[15] = t.tin.setWidth 32
  ccpn : Icr.ccpn s'.icr = Icr.ccpn s.icr
  pc : s'.pc = trapVector s.core.btv t.cls
  acks : s'.acks = s.acks

/-- What interrupt entry leaves (R221), for the priority number presented: PSW.S from SYSCON.IS, CCPN the
accepted number, pc at its vector, the number acknowledged. -/
structure InterruptEntered (s s' : State) : Prop where
  entered : HandlerEntered s.pc (Syscon.is s.core.syscon) s s'
  ccpn : Icr.ccpn s'.icr = Icr.pipn s.icr
  pc : s'.pc = interruptVector s.core.biv (Icr.pipn s.icr)
  acks : s'.acks = s.acks ++ [Icr.pipn s.icr]

/-- What a call leaves (40_context_ops.md R147): the upper context saved, pc and A[11] set, the call
counted in PSW. A[12] to A[15] and D[8] to D[15] are undefined and not mentioned (10_state.md R32). -/
structure CallEntered (target ret : Word) (s t : State) : Prop where
  saved : Saved true s t
  pc : t.pc = target
  a11 : t.a[11] = ret
  cde : Psw.cde t.psw = true
  cdc : Psw.cdc t.psw =
    if Psw.cde s.psw = true ∧ Psw.cdc s.psw ≠ 0b1111111#7 then Psw.cdc s.psw + 1#7 else Psw.cdc s.psw
  pswOthers : ∀ j, 8 ≤ j → t.psw.getLsbD j = s.psw.getLsbD j
  icr : t.icr = s.icr
  dataKept : SameDataExcept [8, 9, 10, 11, 12, 13, 14, 15] s t
  addressKept : SameAddressExcept [11, 12, 13, 14, 15] s t
  system : SameSystem s t
  acks : t.acks = s.acks

/-- PSW after RET (R150 step 4): the saved word, but bits 25:24 only where RET_RESTORES_RM says so, and the
reserved bits 23:16 zero (10_state.md R36). -/
structure ReturnPsw (restoresRm : Bool) (before saved after : Word) : Prop where
  high : ∀ j, 26 ≤ j → after.getLsbD j = saved.getLsbD j
  rounding : ∀ j, 24 ≤ j → j < 26 →
    after.getLsbD j = (if restoresRm then saved.getLsbD j else before.getLsbD j)
  reserved : ∀ j, 16 ≤ j → j < 24 → after.getLsbD j = false
  low : ∀ j, j < 16 → after.getLsbD j = saved.getLsbD j

/-- PSW after RFE (41_interrupt_system_instructions.md R188 step 7): the saved word, the reserved bits 23:16
zero (10_state.md R36). -/
structure ResumePsw (saved after : Word) : Prop where
  high : ∀ j, 24 ≤ j → after.getLsbD j = saved.getLsbD j
  reserved : ∀ j, 16 ≤ j → j < 24 → after.getLsbD j = false
  low : ∀ j, j < 16 → after.getLsbD j = saved.getLsbD j

/-! ### The forms of an instruction -/

/-- The calls, each with its target and its length (R147 to R149, R151). -/
inductive CallForm (s : State) : Instr → Word → Word → Prop
  | disp24 (d : BitVec 24) : CallForm s (.callDisp24 d) (relTarget24 s.pc d) 4#32
  | abs24 (d : BitVec 24) : CallForm s (.callaDisp24 d) (absTarget24 d) 4#32
  | indirect (a : Fin 16) : CallForm s (.calliA a.val) (regTarget s.a[a]) 4#32
  | disp8 (d : BitVec 8) : CallForm s (.callDisp8 d) (relTarget8 s.pc d) 2#32

/-- The fast calls, each with its target (R153 to R155). -/
inductive FastCallForm (s : State) : Instr → Word → Prop
  | disp24 (d : BitVec 24) : FastCallForm s (.fcallDisp24 d) (relTarget24 s.pc d)
  | abs24 (d : BitVec 24) : FastCallForm s (.fcallaDisp24 d) (absTarget24 d)
  | indirect (a : Fin 16) : FastCallForm s (.fcalliA a.val) (regTarget s.a[a])

/-- RET in its two lengths (R150, R152). -/
inductive ReturnForm : Instr → Prop
  | long : ReturnForm .ret
  | short : ReturnForm .ret16

/-- RFE in its two lengths (R188, R189). -/
inductive ResumeForm : Instr → Prop
  | long : ResumeForm .rfe
  | short : ResumeForm .rfe16

/-- FRET in its two lengths (R157, R158). -/
inductive FastReturnForm : Instr → Prop
  | long : FastReturnForm .fret
  | short : FastReturnForm .fret16

/-- BISR in its two lengths, each with the priority it sets and its length (R184, R185). -/
inductive BisrForm : Instr → BitVec 8 → Word → Prop
  | const9 (c : BitVec 9) : BisrForm (.bisrConst9 c) (c.extractLsb' 0 8) 4#32
  | const8 (c : BitVec 8) : BisrForm (.bisrConst8 c) c 2#32

/-- STLCX and STUCX in their two addressing forms: the kind (`true` is upper) and the effective address
(R162 to R164). -/
inductive StoreForm (s : State) : Instr → Bool → Word → Prop
  | lowerAbs (off : BitVec 18) : StoreForm s (.stlcxAbs off) false (absEA off)
  | upperAbs (off : BitVec 18) : StoreForm s (.stucxAbs off) true (absEA off)
  | lowerBo (b : Fin 16) (off : BitVec 10) : StoreForm s (.stlcxBo b.val off) false (baseEA s.a[b] off)
  | upperBo (b : Fin 16) (off : BitVec 10) : StoreForm s (.stucxBo b.val off) true (baseEA s.a[b] off)

/-- LDLCX and LDUCX in their two addressing forms (R162, R165, R166). -/
inductive LoadForm (s : State) : Instr → Bool → Word → Prop
  | lowerAbs (off : BitVec 18) : LoadForm s (.ldlcxAbs off) false (absEA off)
  | upperAbs (off : BitVec 18) : LoadForm s (.lducxAbs off) true (absEA off)
  | lowerBo (b : Fin 16) (off : BitVec 10) : LoadForm s (.ldlcxBo b.val off) false (baseEA s.a[b] off)
  | upperBo (b : Fin 16) (off : BitVec 10) : LoadForm s (.lducxBo b.val off) true (baseEA s.a[b] off)

/-- The instructions that need Supervisor mode (60_exceptions.md R256). -/
inductive SupervisorForm : Instr → Prop
  | mtcr (addr : BitVec 16) (a : Fin 16) : SupervisorForm (.mtcr addr a.val)
  | bisrConst9 (c : BitVec 9) : SupervisorForm (.bisrConst9 c)
  | bisrConst8 (c : BitVec 8) : SupervisorForm (.bisrConst8 c)

/-- The instructions that write ICR (60_exceptions.md R220). -/
inductive InterruptControlForm (s : State) : Instr → Prop
  | enable : InterruptControlForm s .enable
  | disable : InterruptControlForm s .disable
  | bisr {i : Instr} {p : BitVec 8} {len : Word} (h : BisrForm i p len) : InterruptControlForm s i
  | mtcrIcr {addr : BitVec 16} (a : Nat) (h : csfrOfAddr s addr = some .icr) :
    InterruptControlForm s (.mtcr addr a)
  | rfe {i : Instr} (h : ResumeForm i) : InterruptControlForm s i

/-- The instructions that load PSW (60_exceptions.md R254). -/
inductive LoadsPswForm (s : State) : Instr → Prop
  | ret {i : Instr} (h : ReturnForm i) : LoadsPswForm s i
  | rfe {i : Instr} (h : ResumeForm i) : LoadsPswForm s i
  | mtcrPsw {addr : BitVec 16} (a : Nat) (h : csfrOfAddr s addr = some .psw) : LoadsPswForm s (.mtcr addr a)

/-- `t` is what an interrupt entry, the deferred FCD trap or the trap of an instruction leaves from `s`. -/
def EntryTaken (s t : State) : Prop :=
  interruptEntry s = .next t ∨ takeDeferredFcd s = .next t ∨ ∃ trap ret, trapEntry trap ret s = .next t

/-- The bytes stand at `ea` in program text that the platform backs (20_memory.md R80, R104). -/
def BytesAt (s : State) (ea : Word) (bytes : List Byte) : Prop :=
  ∀ k (h : k < bytes.length), backed s (ea + BitVec.ofNat 32 k) = true ∧
    isText s (ea + BitVec.ofNat 32 k) = true ∧ s.mem.read (ea + BitVec.ofNat 32 k).toNat = some bytes[k]

/-- A step in which the core runs an instruction: the mode is not the reserved one, no FCD trap is deferred
and no interrupt is taken (60_exceptions.md R219). -/
def RunsInstruction (s : State) : Prop :=
  Psw.io s.psw ≠ 0b11#2 ∧ s.fcdDeferred = false ∧
    ¬ (Icr.ie s.icr = true ∧ (Icr.ccpn s.icr).toNat < (Icr.pipn s.icr).toNat ∧ s.isyncPending = false)

/-! ### The invariant -/

/-- What every step keeps: memory in its canonical form, pc even (10_state.md R34), the reserved bits of
PSW, PCXI, FCX, LCX, ICR, BTV and SYSCON zero (R36, R45, R49, R55, R59, R61), no FCD trap deferred while
an MTCR awaits its ISYNC, and LAYOUT with every bit of a register in a place of its own (00_scope.md R6). -/
structure Inv (s : State) : Prop where
  memory : s.mem.wf = true
  pcEven : s.pc.getLsbD 0 = false
  psw : s.psw &&& 0x00FF0000#32 = 0#32
  pcxi : s.pcxi &&& 0xC0000000#32 = 0#32
  fcx : s.fcx &&& 0xFFF00000#32 = 0#32
  lcx : s.core.lcx &&& 0xFFF00000#32 = 0#32
  icr : s.icr &&& 0xFF007F00#32 = 0#32
  btv : s.core.btv &&& 0x00000001#32 = 0#32
  syscon : s.core.syscon &&& 0xFEFCFEE0#32 = 0#32
  pending : ¬ (s.fcdDeferred = true ∧ s.isyncPending = true)
  layout : s.platform.layout.wf = true

end Sys2Proof.Machine
end

