-- ==== Sys2Proof/Certificates/Slice0/Obligations.lean ====
section
/-! DEFINITION. The statements for the provers. A docstring names the rules of spec/ a statement rests on
and the assumption log's entries where it says what the model chose. -/

section

open Sys2Proof Sys2Proof.Machine

/-! ### Encoding -/

/-- Words written out from the spec's vectors (95_test_vectors.md V10 to V26, P1 to P5) and the opcode map
(R116, R117) decode to the instructions they stand for. -/
def Obligations.SampleWordsDecode : Prop :=
  decodeTableWord 32 0x0010006D = some (.callDisp24 0x000010#24) ∧
  decodeTableWord 16 0xFE5C = some (.callDisp8 0xFE#8) ∧
  decodeTableWord 32 0x0180000D = some .ret ∧
  decodeTableWord 32 0x00200061 = some (.fcallDisp24 0x000020#24) ∧
  decodeTableWord 16 0x7000 = some .fret16 ∧
  decodeTableWord 32 0x0240000D = some .rslcx ∧
  decodeTableWord 32 0x09804049 = some (.stlcxBo 4 0#10) ∧
  decodeTableWord 32 0x000050AD = some (.bisrConst9 5#9) ∧
  decodeTableWord 32 0x0FE380CD = some (.mtcr 0xFE38#16 0) ∧
  decodeTableWord 32 0x2FE2C04D = some (.mfcr 2 0xFE2C#16) ∧
  decodeTableWord 32 0x008030AD = some (.syscall 3#9)

/-- Every well-formed instruction decodes from its encoding, whatever bytes follow (R110 to R117). -/
def Obligations.DecodeInvertsEncode : Prop :=
  ∀ (i : Instr) (rest : List Byte), i.wf = true → decode (encode i ++ rest) = .ok (i, rest)

/-- What the decoder accepts is a well-formed instruction and its one encoding, so an unused bit that is
set is refused (R119 (a), (b), D20). -/
def Obligations.EncodeInvertsDecode : Prop :=
  ∀ (bytes rest : List Byte) (i : Instr), decode bytes = .ok (i, rest) →
    i.wf = true ∧ bytes = encode i ++ rest

/-- Every word of the SYS group that spells an out-of-scope member is refused by that member's name,
whatever its other bits are (R118, R119 (c)). -/
def Obligations.OutOfScopeSystemWordsRefusedByName : Prop :=
  ∀ w : Word, w.extractLsb' 0 8 = 0x0D#8 →
    (w.extractLsb' 22 6 = 0x00#6 → decode32 w = .error (.outOfScope "NOP")) ∧
    (w.extractLsb' 22 6 = 0x04#6 → decode32 w = .error (.outOfScope "DEBUG")) ∧
    (w.extractLsb' 22 6 = 0x0E#6 → decode32 w = .error (.outOfScope "RESTORE D[a]")) ∧
    (w.extractLsb' 22 6 = 0x0F#6 → decode32 w = .error (.outOfScope "DISABLE D[a]")) ∧
    (w.extractLsb' 22 6 = 0x12#6 → decode32 w = .error (.outOfScope "DSYNC")) ∧
    (w.extractLsb' 22 6 = 0x14#6 → decode32 w = .error (.outOfScope "TRAPV")) ∧
    (w.extractLsb' 22 6 = 0x15#6 → decode32 w = .error (.outOfScope "TRAPSV")) ∧
    (w.extractLsb' 22 6 = 0x16#6 → decode32 w = .error (.outOfScope "WAIT"))

/-! ### Operands, fields and registers -/

/-- `CsaEA` places segment and offset as R83 says, is 64-byte aligned (R84), and is undone by R83's inverse
on every address that is a CSA's. -/
def Obligations.ContextAddressAlignedAndInvertible : Prop :=
  (∀ p : BitVec 20,
    (csaEA p).extractLsb' 28 4 = p.extractLsb' 16 4 ∧ (csaEA p).extractLsb' 22 6 = 0#6 ∧
    (csaEA p).extractLsb' 6 16 = p.extractLsb' 0 16 ∧ (csaEA p).extractLsb' 0 6 = 0#6) ∧
  (∀ a : Word, a.extractLsb' 22 6 = 0#6 → a.extractLsb' 0 6 = 0#6 →
    csaEA (a.extractLsb' 28 4 ++ a.extractLsb' 6 16) = a)

/-- The relative targets are the instruction's own address plus twice the signed displacement, modulo 2^32,
and even where pc is (R114, R34, D21). -/
def Obligations.RelativeTargetsCountHalfwords : Prop :=
  (∀ (pc : Word) (d : BitVec 24), relTarget24 pc d = BitVec.ofInt 32 (pc.toNat + 2 * d.toInt)) ∧
  (∀ (pc : Word) (d : BitVec 8), relTarget8 pc d = BitVec.ofInt 32 (pc.toNat + 2 * d.toInt)) ∧
  (∀ (pc : Word) (d : BitVec 24), pc.getLsbD 0 = false → (relTarget24 pc d).getLsbD 0 = false) ∧
  (∀ (pc : Word) (d : BitVec 8), pc.getLsbD 0 = false → (relTarget8 pc d).getLsbD 0 = false)

/-- The absolute target, the absolute effective address, the base plus offset address and the target taken
from a register, field by field (R114, R149, D19). -/
def Obligations.AbsoluteFormsPlaceTheirFields : Prop :=
  (∀ d : BitVec 24, (absTarget24 d).extractLsb' 28 4 = d.extractLsb' 20 4 ∧
    (absTarget24 d).extractLsb' 21 7 = 0#7 ∧ (absTarget24 d).extractLsb' 1 20 = d.extractLsb' 0 20 ∧
    (absTarget24 d).getLsbD 0 = false) ∧
  (∀ off : BitVec 18, (absEA off).extractLsb' 28 4 = off.extractLsb' 14 4 ∧
    (absEA off).extractLsb' 14 14 = 0#14 ∧ (absEA off).extractLsb' 0 14 = off.extractLsb' 0 14) ∧
  (∀ (base : Word) (off : BitVec 10), baseEA base off = BitVec.ofInt 32 (base.toNat + off.toInt)) ∧
  (∀ (v : Word) (j : Nat), (regTarget v).getLsbD j = (v.getLsbD j && j != 0))

/-- With the base bits under the shifted number clear, the entry of priority `p` is `p` entries of 32 or 8
bytes above the base; with any base the address is the OR, bit by bit (R224, R225). -/
def Obligations.InterruptVectorIsBaseOrShiftedNumber : Prop :=
  (∀ (biv : Word) (p : BitVec 8), Biv.vss biv = false → biv.extractLsb' 5 8 = 0#8 →
    interruptVector biv p = evenBase biv + BitVec.ofNat 32 (32 * p.toNat)) ∧
  (∀ (biv : Word) (p : BitVec 8), Biv.vss biv = true → biv.extractLsb' 3 8 = 0#8 →
    interruptVector biv p = evenBase biv + BitVec.ofNat 32 (8 * p.toNat)) ∧
  (∀ (biv : Word) (p : BitVec 8) (j : Nat), (interruptVector biv p).getLsbD j =
    (biv.getLsbD j && j != 0 ||
      (if Biv.vss biv then decide (3 ≤ j) && p.getLsbD (j - 3) else decide (5 ≤ j) && p.getLsbD (j - 5))))

/-- The call depth counter: a call that does not overflow leaves the mask alone and adds one, a counter
that a call has counted is not at 0, and `1111111B` neither counts nor traps (R39, R145). -/
def Obligations.CallDepthCounterCounts : Prop :=
  (∀ c : BitVec 7, c ≠ 0b1111111#7 → cdcIncOverflows c = false →
    cdcInc c = c + 1#7 ∧ cdcBits (cdcInc c) = cdcBits c ∧ cdcCount (cdcInc c) = cdcCount c + 1 ∧
      cdcDecUnderflows (cdcInc c) = false) ∧
  (∀ c : BitVec 7, c ≠ 0b1111111#7 →
    (cdcIncOverflows c = true ↔ cdcCount c = 2 ^ cdcBits c - 1) ∧
    (cdcDecUnderflows c = true ↔ cdcCount c = 0) ∧ (cdcZero c = true ↔ cdcCount c = 0)) ∧
  cdcInc 0b1111111#7 = 0b1111111#7 ∧ cdcIncOverflows 0b1111111#7 = false ∧
  cdcDecUnderflows 0b1111111#7 = false ∧ cdcZero 0b1111111#7 = true ∧
  cdcBits 0b0000000#7 = 6 ∧ cdcBits 0b1011111#7 = 5 ∧ cdcBits 0b1100000#7 = 4 ∧ cdcBits 0b1110111#7 = 3 ∧
  cdcBits 0b1111000#7 = 2 ∧ cdcBits 0b1111101#7 = 1 ∧ cdcBits 0b1111110#7 = 0

/-- The core registers (R62, R63): the addresses, positions and parameters that reset suggests (log 1, 2); the
word of a register has each bit of its value at its place, and the value is read back from it; which bits MTCR
writes (R193; whole for the registers R193 does not list, log 20; CORE_ID too, R64, log 19), which bits MFCR
reads (R195, D23: the others are the reserved bits of R36, R45, R49, R55, R59, R61); the protection (R67 to
R69, R194); and the field of the state each register is. -/
def Obligations.CoreRegisterMap : Prop :=
  (∀ s : State, s.platform.csfrAddr = State.reset.platform.csfrAddr →
    [0xFE00#16, 0xFE04#16, 0xFE08#16, 0xFE14#16, 0xFE18#16, 0xFE1C#16, 0xFE20#16, 0xFE24#16, 0xFE28#16,
      0xFE2C#16, 0xFE38#16, 0xFE3C#16].map (csfrOfAddr s) =
      [some .pcxi, some .psw, some .pc, some .syscon, some .cpuId, some .coreId, some .biv, some .btv,
        some .isp, some .icr, some .fcx, some .lcx] ∧
    [0x9400#16, 0x8100#16, 0x8104#16, 0x8108#16, 0x920C#16, 0x9040#16, 0x900C#16, 0x1030#16, 0xE444#16,
      0xE448#16].map (csfrOfAddr s) =
      [some .compat, some .pma0, some .pma1, some .pma2, some .pcon0, some .dcon0, some .smacon, some .segen,
        some .tpsEntry, some .tpsExit] ∧
    csfrOfAddr s 0xFF00#16 = none ∧ csfrOfAddr s 0xFF80#16 = none) ∧
  (∀ (s : State) (r : Csfr), s.platform.layout.wf = true →
    (∀ (k : Nat) (h : k < 32),
      (csfrWord s r).getLsbD (layoutOf s r)[k].val = (csfrValue s r).getLsbD k) ∧
    csfrFrom s r (csfrWord s r) = csfrValue s r) ∧
  (∀ (s : State) (r : Csfr) (w : Word), s.platform.layout = State.reset.platform.layout →
    csfrWord s r = csfrValue s r ∧ csfrFrom s r w = w) ∧
  [Csfr.psw, .pcxi, .fcx, .lcx, .icr, .isp, .biv, .btv, .syscon].map csfrWriteMask =
    [some 0xFF00FFFF#32, some 0x3FFFFFFF#32, some 0x000FFFFF#32, some 0x000FFFFF#32, some 0x000080FF#32,
      some 0xFFFFFFFF#32, some 0xFFFFFFFF#32, some 0xFFFFFFFE#32, some 0x0103011F#32] ∧
  [Csfr.compat, .pma0, .pma1, .pma2, .pcon0, .dcon0, .smacon, .segen, .tpsEntry, .tpsExit, .coreId].all
    (fun r => csfrWriteMask r == some 0xFFFFFFFF#32) = true ∧
  [Csfr.pc, .cpuId].map csfrWriteMask = [none, none] ∧
  [Csfr.psw, .pcxi, .fcx, .lcx, .icr, .btv, .syscon].map csfrReadMask =
    [0xFF00FFFF#32, 0x3FFFFFFF#32, 0x000FFFFF#32, 0x000FFFFF#32, 0x00FF80FF#32, 0xFFFFFFFE#32,
      0x0103011F#32] ∧
  [Csfr.pc, .cpuId, .coreId, .biv, .isp, .compat, .pma0, .pma1, .pma2, .pcon0, .dcon0, .smacon, .segen,
    .tpsEntry, .tpsExit].all (fun r => csfrReadMask r == 0xFFFFFFFF#32) = true ∧
  [Csfr.btv, .biv, .isp, .pma0, .pma1, .pma2, .pcon0, .dcon0, .segen].all endinitProtects = true ∧
  [Csfr.smacon, .syscon, .compat, .tpsEntry, .tpsExit].all safetyEndinitProtects = true ∧
  [Csfr.psw, .pcxi, .fcx, .lcx, .icr].all (fun r => !endinitProtects r && !safetyEndinitProtects r) = true ∧
  (∀ s : State,
    csfrValue s .pcxi = s.pcxi ∧ csfrValue s .psw = s.psw ∧ csfrValue s .pc = s.pc ∧
    csfrValue s .icr = s.icr ∧ csfrValue s .fcx = s.fcx ∧ csfrValue s .lcx = s.core.lcx ∧
    csfrValue s .isp = s.core.isp ∧ csfrValue s .biv = s.core.biv ∧ csfrValue s .btv = s.core.btv ∧
    csfrValue s .syscon = s.core.syscon ∧ csfrValue s .cpuId = s.core.cpuId ∧
    csfrValue s .coreId = s.core.coreId ∧ csfrValue s .pma0 = s.core.pma0 ∧
    csfrValue s .pma1 = s.core.pma1 ∧ csfrValue s .pma2 = s.core.pma2 ∧
    csfrValue s .pcon0 = s.core.pcon0 ∧ csfrValue s .dcon0 = s.core.dcon0 ∧
    csfrValue s .segen = s.core.segen ∧ csfrValue s .smacon = s.core.smacon ∧
    csfrValue s .compat = s.core.compat ∧ csfrValue s .tpsEntry = s.core.tpsEntry ∧
    csfrValue s .tpsExit = s.core.tpsExit)

/-- E[2k] is the pair `(D[2k+1], D[2k])` and no further state: a write to it writes both registers and
nothing else, and a write to D[2k] changes it (R21). -/
def Obligations.ExtendedDataRegistersAreViews : Prop :=
  ∀ (s : State) (k : Fin 8) (v : BitVec 64) (x : Word),
    s.readE k = s.d[pairHigh k] ++ s.d[pairLow k] ∧
    (pairLow k).val = 2 * k.val ∧ (pairHigh k).val = 2 * k.val + 1 ∧
    (s.writeE k v).readE k = v ∧
    (s.writeE k v).d[pairLow k] = v.extractLsb' 0 32 ∧
    (s.writeE k v).d[pairHigh k] = v.extractLsb' 32 32 ∧
    SameDataExcept [pairLow k, pairHigh k] s (s.writeE k v) ∧
    (s.writeE k v).a = s.a ∧ (s.writeE k v).pc = s.pc ∧ (s.writeE k v).mem = s.mem ∧
    SameStatus s (s.writeE k v) ∧
    (s.writeD (pairLow k) x).readE k = s.d[pairHigh k] ++ x

/-! ### Reset -/

/-- The registers at reset hold the values R72 suggests (log 4: the spec gives them from general knowledge),
protection is off, nothing is pending (R271). PSW starts in Supervisor mode, on the interrupt stack, with
GW = 0 and call depth counting at 0 (R271); R72 writes a word for it whose bit 8 is 1 beside GW = 0, and that the
model takes the fields is its choice (log 40). -/
def Obligations.ResetValues : Prop :=
  State.reset.psw = 0x00000A80#32 ∧
  Psw.io State.reset.psw = 0b10#2 ∧ Psw.is State.reset.psw = true ∧ Psw.gw State.reset.psw = false ∧
  Psw.cde State.reset.psw = true ∧ Psw.cdc State.reset.psw = 0b0000000#7 ∧
  Psw.prs State.reset.psw = 0b000#3 ∧ Psw.s State.reset.psw = false ∧ Psw.user State.reset.psw = 0#8 ∧
  Icr.ie State.reset.icr = false ∧ Icr.ccpn State.reset.icr = 0#8 ∧ State.reset.pcxi = 0#32 ∧ State.reset.fcx = 0#32 ∧
  State.reset.core.lcx = 0#32 ∧ State.reset.core.isp = 0x00000100#32 ∧ State.reset.icr = 0#32 ∧
  State.reset.core.biv = 0#32 ∧ State.reset.core.btv = 0xA0000100#32 ∧ State.reset.core.syscon = 0#32 ∧
  State.reset.endinit = false ∧ State.reset.safetyEndinit = false ∧
  State.reset.fcdDeferred = false ∧ State.reset.isyncPending = false

/-- The invariant holds at reset. -/
def Obligations.InvariantAtReset : Prop := Inv State.reset

/-! ### The step -/

/-- Where the bytes at pc decode to an instruction, the core runs an instruction in this step, and an MTCR
that awaits its ISYNC finds one, the step is that instruction's meaning in the state that holds what the
other agents present (R219, R111, R199). -/
def Obligations.StepRunsDecodedInstruction : Prop :=
  ∀ (s : State) (i : Instr) (bytes : List Byte), RunsInstruction (presentInputs s) →
    BytesAt (presentInputs s) s.pc bytes → decode bytes = .ok (i, []) →
    (s.isyncPending = true → i = .isync) →
    step s = exec i (presentInputs s)

/-- Where no instruction runs: the reserved mode is refused before anything else (R256, D16); an MTCR not
followed by ISYNC is refused (R199, R280, D11); bytes the decoder refuses are refused by its reason (R119,
D20). That these three are refusals is the spec's decision for models; the order is the model's (log 16). -/
def Obligations.StepRefusals : Prop :=
  (∀ s : State, Psw.io s.psw = 0b11#2 → step s = .refused .reservedIoMode) ∧
  (∀ (s : State) (i : Instr) (bytes : List Byte), RunsInstruction (presentInputs s) →
    BytesAt (presentInputs s) s.pc bytes → decode bytes = .ok (i, []) →
    s.isyncPending = true → i ≠ .isync → step s = .refused .isyncMissing) ∧
  (∀ (s : State) (b0 b1 : Byte) (r : Reject), RunsInstruction (presentInputs s) →
    BytesAt (presentInputs s) s.pc [b0, b1] → isLong b0 = false → decode [b0, b1] = .error r →
    step s = .refused (refusalOf r)) ∧
  (∀ (s : State) (b0 b1 b2 b3 : Byte) (r : Reject), RunsInstruction (presentInputs s) →
    BytesAt (presentInputs s) s.pc [b0, b1, b2, b3] → isLong b0 = true →
    decode [b0, b1, b2, b3] = .error r → step s = .refused (refusalOf r))

/-- Where the acceptance condition holds, no FCD trap is deferred and no MTCR awaits its ISYNC, the step is
the interrupt entry (R217, R219). -/
def Obligations.InterruptTakenWhenAccepted : Prop :=
  ∀ s : State, Psw.io s.psw ≠ 0b11#2 → s.fcdDeferred = false → s.isyncPending = false →
    Icr.ie (presentInputs s).icr = true →
    (Icr.ccpn (presentInputs s).icr).toNat < (Icr.pipn (presentInputs s).icr).toNat →
    CanSave (presentInputs s) →
    ∃ t, step s = .next t ∧ InterruptEntered (presentInputs s) t

/-- A step enters an interrupt handler, seen by its acknowledge, only when ICR.IE is 1 and ICR.CCPN is less
than ICR.PIPN (R217). -/
def Obligations.InterruptedOnlyWhenAccepted : Prop :=
  ∀ s t : State, step s = .next t → t.acks ≠ s.acks →
    Icr.ie (presentInputs s).icr = true ∧
    (Icr.ccpn (presentInputs s).icr).toNat < (Icr.pipn (presentInputs s).icr).toNat ∧
    InterruptEntered (presentInputs s) t

/-- A deferred FCD trap is taken in the next step, whatever interrupt is pending, and returns to the
instruction that step would have run (R243, R245). -/
def Obligations.DeferredFcdComesFirst : Prop :=
  ∀ s : State, Psw.io s.psw ≠ 0b11#2 → s.fcdDeferred = true → CanSave (presentInputs s) →
    ∃ t, step s = .next t ∧ TrapTaken .fcd s.pc ((presentInputs s).setFcdDeferred false) t

/-! ### Entering a handler and leaving it -/

/-- Interrupt entry (R221): all thirteen items, and what stays. -/
def Obligations.InterruptEntryEffect : Prop :=
  ∀ s : State, CanSave s → ∃ t, interruptEntry s = .next t ∧ InterruptEntered s t

/-- Trap entry (R236), for every trap and return address, at the vector of R238, and the class and TIN of each
trap the model takes (R234; the traps it does not take are in log 28). -/
def Obligations.TrapEntryEffect : Prop :=
  (∀ (trap : Trap) (ret : Word) (s : State), CanSave s →
    ∃ t, trapEntry trap ret s = .next t ∧ TrapTaken trap ret s t ∧
      t.pc = evenBase s.core.btv ||| trap.cls.setWidth 32 <<< 5) ∧
  [Trap.priv, .fcd, .cdo, .cdu, .csu, .ctyp, .nest].map (fun t => (t.cls, t.tin)) =
    [(1#3, 1#8), (3#3, 1#8), (3#3, 2#8), (3#3, 3#8), (3#3, 5#8), (3#3, 6#8), (3#3, 7#8)] ∧
  (∀ tin : BitVec 8, (Trap.sys tin).cls = 6#3 ∧ (Trap.sys tin).tin = tin)

/-- Every interrupt and every trap is taken in Supervisor mode (R248). -/
def Obligations.EveryEntryIsInSupervisorMode : Prop :=
  ∀ s t : State, EntryTaken s t → Psw.io t.psw = 0b10#2

/-- The stack pointer at entry (R223), for interrupts and traps: saved with the upper context; loaded from
ISP when PSW.IS was 0, kept when it was 1; ISP itself is not written. -/
def Obligations.StackAtEntry : Prop :=
  ∀ s t : State, (interruptEntry s = .next t ∨ ∃ trap ret, trapEntry trap ret s = .next t) →
    t.mem.readWord (csaEA (pointerOf s.fcx) + 0x08#32) = some s.a[10] ∧
    (Psw.is s.psw = false → t.a[10] = s.core.isp) ∧ (Psw.is s.psw = true → t.a[10] = s.a[10]) ∧
    t.core.isp = s.core.isp

/-- On an interrupt or trap the PCXI of the interrupted code, PCPN and PIE included, goes to the CSA of its
upper context, and ICR.IE and ICR.CCPN go to PCXI.PIE and PCXI.PCPN (R231). -/
def Obligations.OuterInterruptStateGoesToTheCsa : Prop :=
  ∀ s t : State, (interruptEntry s = .next t ∨ ∃ trap ret, trapEntry trap ret s = .next t) →
    t.mem.readWord (csaEA (pointerOf s.fcx)) = some (csfrWord s .pcxi) ∧
    Pcxi.pie t.pcxi = Icr.ie s.icr ∧ Pcxi.pcpn t.pcxi = Icr.ccpn s.icr

/-- An RFE right after an interrupt or trap entry brings back every register, the lists' heads, PSW, PCXI and
ICR as they were, and goes to the return address; memory has changed in the CSA alone, and its link word
names the same next CSA (R229, R188, R167). -/
def Obligations.EntryThenRfeResumes : Prop :=
  ∀ (s t : State) (ret : Word) (i : Instr), Inv s → ret.getLsbD 0 = false → ResumeForm i →
    ((interruptEntry s = .next t ∧ ret = s.pc) ∨ ∃ trap, trapEntry trap ret s = .next t) →
    ∃ u, exec i t = .next u ∧ SameRegisters s u ∧ u.pc = ret ∧ u.psw = s.psw ∧ u.pcxi = s.pcxi ∧
      u.fcx = s.fcx ∧ u.icr = s.icr ∧ SameSystem s u ∧
      SameMemoryOutside (csaEA (pointerOf s.fcx)) 64 s u ∧
      (u.mem.readWord (csaEA (pointerOf s.fcx))).map (fun l => pointerOf (csfrFrom s .fcx l)) =
        (s.mem.readWord (csaEA (pointerOf s.fcx))).map (fun l => pointerOf (csfrFrom s .fcx l))

/-- Every context save with a null FCX stops with FCU and no next state, calls, SVLCX, BISR, SYSCALL and both
entries (R239, D9). -/
def Obligations.FreeListUnderflowStopsEverySave : Prop :=
  ∀ s : State, pointerOf s.fcx = 0#20 →
    (∀ i target len, CallForm s i target len → exec i s = .fault .freeListUnderflow) ∧
    exec .svlcx s = .fault .freeListUnderflow ∧
    (∀ i p len, BisrForm i p len → Psw.io s.psw = 0b10#2 → exec i s = .fault .freeListUnderflow) ∧
    (∀ c, exec (.syscall c) s = .fault .freeListUnderflow) ∧
    interruptEntry s = .fault .freeListUnderflow ∧
    (∀ trap ret, trapEntry trap ret s = .fault .freeListUnderflow)

/-! ### Calls and returns -/

/-- CALL, CALLA, CALLI and the 16-bit CALL where the counter does not overflow (R147 to R149, R151). -/
def Obligations.CallEffect : Prop :=
  ∀ (s : State) (i : Instr) (target len : Word), CallForm s i target len → CanSave s →
    ¬ (Psw.cde s.psw = true ∧ cdcIncOverflows (Psw.cdc s.psw) = true) →
    ∃ t, exec i s = .next t ∧ CallEntered target (s.pc + len) s t

/-- RET in both lengths, where no trap is due (R150, R152). -/
def Obligations.ReturnEffect : Prop :=
  ∀ (s : State) (i : Instr), ReturnForm i → CanRestore true s →
    ¬ (Psw.cde s.psw = true ∧ cdcDecUnderflows (Psw.cdc s.psw) = true) →
    ∃ w t, exec i s = .next t ∧ Restored w s t ∧ UpperFrom w s t ∧
      ReturnPsw s.platform.retRestoresRm s.psw (csfrFrom s .psw w[1]) t.psw ∧ t.icr = s.icr ∧
      t.pc = regTarget s.a[11] ∧ SameSystemAndFree s t

/-- A RET right after a counted call brings back every register, PSW, PCXI and FCX as they were, and goes to
the instruction after the call (R147, R150, R167). -/
def Obligations.CallThenReturnRestores : Prop :=
  ∀ (s t : State) (i j : Instr) (target len : Word), Inv s → CallForm s i target len → ReturnForm j →
    Psw.cde s.psw = true → cdcIncOverflows (Psw.cdc s.psw) = false → exec i s = .next t →
    ∃ u, exec j t = .next u ∧ SameRegisters s u ∧ u.pc = s.pc + len ∧ u.psw = s.psw ∧ u.pcxi = s.pcxi ∧
      u.fcx = s.fcx ∧ u.icr = s.icr ∧ SameSystem s u ∧
      SameMemoryOutside (csaEA (pointerOf s.fcx)) 64 s u ∧
      (u.mem.readWord (csaEA (pointerOf s.fcx))).map (fun l => pointerOf (csfrFrom s .fcx l)) =
        (s.mem.readWord (csaEA (pointerOf s.fcx))).map (fun l => pointerOf (csfrFrom s .fcx l))

/-- The three call depth traps: CDO by a call at the counter's maximum, CDU by a RET and NEST by an RFE, each
before any other change (R242, R147, R150, R188, R244). -/
def Obligations.CallDepthTraps : Prop :=
  ∀ s : State, CanSave s → Psw.cde s.psw = true →
    (∀ i target len, CallForm s i target len → cdcIncOverflows (Psw.cdc s.psw) = true →
      ∃ t, exec i s = .next t ∧ TrapTaken .cdo s.pc s t) ∧
    (∀ i, ReturnForm i → cdcDecUnderflows (Psw.cdc s.psw) = true →
      ∃ t, exec i s = .next t ∧ TrapTaken .cdu s.pc s t) ∧
    (∀ i, ResumeForm i → Pcxi.pcx s.pcxi ≠ 0#20 → Pcxi.ul s.pcxi = true → cdcZero (Psw.cdc s.psw) = false →
      ∃ t, exec i s = .next t ∧ TrapTaken .nest s.pc s t)

/-- A restore that finds PCXI.PCX null raises CSU (R240); RET checks its call depth first (R244). -/
def Obligations.NullPreviousListRaisesCsu : Prop :=
  ∀ s : State, Pcxi.pcx s.pcxi = 0#20 →
    (∀ i, ReturnForm i → ¬ (Psw.cde s.psw = true ∧ cdcDecUnderflows (Psw.cdc s.psw) = true) →
      exec i s = raiseTrap .csu s) ∧
    (∀ i, ResumeForm i → exec i s = raiseTrap .csu s) ∧
    exec .rslcx s = raiseTrap .csu s

/-- A restore of the wrong kind raises CTYP, a trap of class 3: RET and RFE on a lower context, RSLCX on an
upper one; LDLCX and LDUCX do not check, and do the same whatever PCXI holds (R241). RET checks its call
depth first, and all three the null pointer (R244). -/
def Obligations.WrongContextTypeRaisesCtyp : Prop :=
  Trap.ctyp.cls = 3#3 ∧
  (∀ s : State, Pcxi.pcx s.pcxi ≠ 0#20 →
    (∀ i, ReturnForm i → ¬ (Psw.cde s.psw = true ∧ cdcDecUnderflows (Psw.cdc s.psw) = true) →
      Pcxi.ul s.pcxi = false → exec i s = raiseTrap .ctyp s) ∧
    (∀ i, ResumeForm i → Pcxi.ul s.pcxi = false → exec i s = raiseTrap .ctyp s) ∧
    (Pcxi.ul s.pcxi = true → exec .rslcx s = raiseTrap .ctyp s)) ∧
  (∀ (s t : State) (i : Instr) (upper : Bool) (ea v : Word), LoadForm s i upper ea →
    exec i s = .next t → exec i (s.setPcxi v) = .next (t.setPcxi v))

/-! ### Fast calls -/

/-- FCALL, FCALLA and FCALLI: the old A[11] is pushed, A[11] and A[10] change, nothing else but pc does
(R153 to R155). -/
def Obligations.FastCallEffect : Prop :=
  ∀ (s : State) (i : Instr) (target : Word), FastCallForm s i target → s.a[10].extractLsb' 0 2 = 0#2 →
    Writable s (s.a[10] - 4#32) 4 →
    ∃ t, exec i s = .next t ∧ t.pc = target ∧ t.a[11] = s.pc + 4#32 ∧ t.a[10] = s.a[10] - 4#32 ∧
      t.mem.readWord (s.a[10] - 4#32) = some s.a[11] ∧ SameMemoryOutside (s.a[10] - 4#32) 4 s t ∧
      SameAddressExcept [10, 11] s t ∧ t.d = s.d ∧ SameStatus s t

/-- FRET in both lengths: jump to the old A[11], pop A[11] (R157, R158). -/
def Obligations.FastReturnEffect : Prop :=
  ∀ (s : State) (i : Instr), FastReturnForm i → s.a[10].extractLsb' 0 2 = 0#2 → Readable s s.a[10] 4 →
    ∃ t, exec i s = .next t ∧ t.pc = regTarget s.a[11] ∧ s.mem.readWord s.a[10] = some t.a[11] ∧
      t.a[10] = s.a[10] + 4#32 ∧ SameMemory s t ∧ SameAddressExcept [10, 11] s t ∧ t.d = s.d ∧
      SameStatus s t

/-- An FRET right after a fast call brings back every register and goes to the instruction after the call
(R153, R157). -/
def Obligations.FastCallThenReturnRestores : Prop :=
  ∀ (s t : State) (i j : Instr) (target : Word), s.pc.getLsbD 0 = false → FastCallForm s i target →
    FastReturnForm j → exec i s = .next t →
    ∃ u, exec j t = .next u ∧ SameRegisters s u ∧ u.pc = s.pc + 4#32 ∧ SameStatus s u ∧
      SameMemoryOutside (s.a[10] - 4#32) 4 s u

/-- A misaligned effective address faults, naming the instruction (R95, D12, C14). -/
def Obligations.MisalignedFormsFault : Prop :=
  (∀ (s : State) (i : Instr) (target : Word), FastCallForm s i target → s.a[10].extractLsb' 0 2 ≠ 0#2 →
    exec i s = .fault (.misaligned .fcall (s.a[10] - 4#32))) ∧
  (∀ (s : State) (i : Instr), FastReturnForm i → s.a[10].extractLsb' 0 2 ≠ 0#2 →
    exec i s = .fault (.misaligned .fret s.a[10])) ∧
  (∀ (s : State) (i : Instr) (upper : Bool) (ea : Word), StoreForm s i upper ea → ea.extractLsb' 0 6 ≠ 0#6 →
    exec i s = .fault (.misaligned (if upper then .stucx else .stlcx) ea)) ∧
  (∀ (s : State) (i : Instr) (upper : Bool) (ea : Word), LoadForm s i upper ea → ea.extractLsb' 0 6 ≠ 0#6 →
    exec i s = .fault (.misaligned (if upper then .lducx else .ldlcx) ea))

/-! ### Contexts -/

/-- SVLCX: the lower context is saved, no register but PCXI and FCX changes (R159, R141). -/
def Obligations.SvlcxEffect : Prop :=
  ∀ s : State, CanSave s →
    ∃ t, exec .svlcx s = .next t ∧ Saved false s t ∧ SameRegisters s t ∧ t.pc = s.pc + 4#32 ∧
      t.psw = s.psw ∧ t.icr = s.icr ∧ SameSystemAndFree s t

/-- RSLCX: the lower context is restored, PSW and ICR are unchanged (R160, R143); of the PCXI it loads, the
reserved bits 31:30 stay 0 (R45, D23, log 21). -/
def Obligations.RslcxEffect : Prop :=
  ∀ s : State, CanRestore false s →
    ∃ w t, exec .rslcx s = .next t ∧ Restored w s t ∧ LowerFrom w s t ∧ t.pc = s.pc + 4#32 ∧
      t.psw = s.psw ∧ t.icr = s.icr ∧ SameSystemAndFree s t

/-- An RSLCX right after an SVLCX brings back FCX, PCXI and both lists (R167). -/
def Obligations.SvlcxThenRslcxRestores : Prop :=
  ∀ s t : State, Inv s → exec .svlcx s = .next t →
    ∃ u, exec .rslcx t = .next u ∧ SameRegisters s u ∧ u.pc = s.pc + 8#32 ∧ u.psw = s.psw ∧
      u.icr = s.icr ∧ u.pcxi = s.pcxi ∧ u.fcx = s.fcx ∧ SameSystemAndFree s u ∧
      SameMemoryOutside (csaEA (pointerOf s.fcx)) 64 s u ∧
      (u.mem.readWord (csaEA (pointerOf s.fcx))).map (fun l => pointerOf (csfrFrom s .fcx l)) =
        (s.mem.readWord (csaEA (pointerOf s.fcx))).map (fun l => pointerOf (csfrFrom s .fcx l))

/-- STLCX and STUCX in both addressing forms: sixteen words at the effective address, nothing else but pc
(R162 to R164, R144). -/
def Obligations.ContextStoreEffect : Prop :=
  ∀ (s : State) (i : Instr) (upper : Bool) (ea : Word), StoreForm s i upper ea →
    ea.extractLsb' 0 6 = 0#6 → Writable s ea 64 →
    ∃ t, exec i s = .next t ∧ ContextImage upper t.mem ea s ∧ SameMemoryOutside ea 64 s t ∧
      SameRegisters s t ∧ t.pc = s.pc + 4#32 ∧ SameStatus s t

/-- LDLCX and LDUCX in both addressing forms: the general registers of the context, and nothing else but pc;
PCXI and PSW are not loaded (R162, R165, R166, R144). -/
def Obligations.ContextLoadEffect : Prop :=
  ∀ (s : State) (i : Instr) (upper : Bool) (ea : Word), LoadForm s i upper ea →
    ea.extractLsb' 0 6 = 0#6 → Readable s ea 64 →
    ∃ w t, exec i s = .next t ∧ WordsAt s ea w ∧ (upper = true → UpperFrom w s t) ∧
      (upper = false → LowerFrom w s t) ∧ t.pc = s.pc + 4#32 ∧ SameMemory s t ∧ SameStatus s t

/-- A context loaded from where one of its kind was stored is the one stored, in whatever state the load
runs, as long as memory and platform are the same (R163 to R166, R101). -/
def Obligations.ContextStoreThenLoad : Prop :=
  ∀ (s t u : State) (i j : Instr) (upper : Bool) (ea : Word), StoreForm s i upper ea →
    LoadForm u j upper ea → exec i s = .next t → u.mem = t.mem → u.platform = t.platform →
    ∃ v, exec j u = .next v ∧
      (upper = true → (∀ r : Fin 16, 8 ≤ r.val → v.d[r] = s.d[r]) ∧
        (∀ r : Fin 16, 10 ≤ r.val → v.a[r] = s.a[r])) ∧
      (upper = false → (∀ r : Fin 16, r.val < 8 → v.d[r] = s.d[r]) ∧ v.a[11] = s.a[11] ∧
        (∀ r : Fin 16, 2 ≤ r.val → r.val < 8 → v.a[r] = s.a[r]))

/-! ### Interrupt control and system instructions -/

/-- ENABLE and DISABLE where the mode allows them: ICR.IE alone changes (R181, R182, R256). -/
def Obligations.EnableDisableEffect : Prop :=
  ∀ s : State,
    (Psw.io s.psw = 0b10#2 ∨ (Psw.io s.psw = 0b01#2 ∧ Syscon.u1Ied s.core.syscon = false)) →
    (∃ t, exec .enable s = .next t ∧ (∀ j, t.icr.getLsbD j = (s.icr.getLsbD j || j == 15)) ∧
      t.pc = s.pc + 4#32 ∧ SameRegisters s t ∧ t.psw = s.psw ∧ SameLists s t ∧ SameMemory s t ∧
      SameSystemAndFree s t) ∧
    (∃ t, exec .disable s = .next t ∧ (∀ j, t.icr.getLsbD j = (s.icr.getLsbD j && j != 15)) ∧
      t.pc = s.pc + 4#32 ∧ SameRegisters s t ∧ t.psw = s.psw ∧ SameLists s t ∧ SameMemory s t ∧
      SameSystemAndFree s t)

/-- BISR in both lengths in Supervisor mode: the lower context is saved, then IE is set and CCPN replaced
(R184, R185). -/
def Obligations.BisrEffect : Prop :=
  ∀ (s : State) (i : Instr) (p : BitVec 8) (len : Word), BisrForm i p len → Psw.io s.psw = 0b10#2 →
    CanSave s →
    ∃ t, exec i s = .next t ∧ Saved false s t ∧ Icr.ie t.icr = true ∧ Icr.ccpn t.icr = p ∧
      (∀ j, 8 ≤ j → j ≠ 15 → t.icr.getLsbD j = s.icr.getLsbD j) ∧ t.pc = s.pc + len ∧
      SameRegisters s t ∧ t.psw = s.psw ∧ SameSystemAndFree s t

/-- A privileged instruction in a mode that may not run it takes the PRIV trap and does nothing else (R256,
R244): MTCR and BISR outside Supervisor mode; ENABLE and DISABLE there, except in User-1 mode with
SYSCON.U1_IED = 0. -/
def Obligations.PrivilegeViolationsTrap : Prop :=
  ∀ s : State, CanSave s → Psw.io s.psw ≠ 0b10#2 →
    (∀ i, SupervisorForm i → ∃ t, exec i s = .next t ∧ TrapTaken .priv s.pc s t) ∧
    (¬ (Psw.io s.psw = 0b01#2 ∧ Syscon.u1Ied s.core.syscon = false) →
      (∃ t, exec .enable s = .next t ∧ TrapTaken .priv s.pc s t) ∧
      (∃ t, exec .disable s = .next t ∧ TrapTaken .priv s.pc s t))

/-- RFE in both lengths, where no trap is due: the upper context and PSW come back, ICR takes PIE and PCPN of
the PCXI it finds (R188, R189). -/
def Obligations.RfeEffect : Prop :=
  ∀ (s : State) (i : Instr), ResumeForm i → CanRestore true s →
    ¬ (Psw.cde s.psw = true ∧ cdcZero (Psw.cdc s.psw) = false) →
    ∃ w t, exec i s = .next t ∧ Restored w s t ∧ UpperFrom w s t ∧ ResumePsw (csfrFrom s .psw w[1]) t.psw ∧
      Icr.ie t.icr = Pcxi.pie s.pcxi ∧ Icr.ccpn t.icr = Pcxi.pcpn s.pcxi ∧
      (∀ j, 8 ≤ j → j ≠ 15 → t.icr.getLsbD j = s.icr.getLsbD j) ∧
      t.pc = regTarget s.a[11] ∧ SameSystemAndFree s t

/-- SYSCALL takes the trap of class 6 with `const9[7:0]` in D[15], returning to the next instruction, in every
mode (R200, R234, R237). -/
def Obligations.SyscallEffect : Prop :=
  ∀ (s : State) (c : BitVec 9), CanSave s →
    ∃ t, exec (.syscall c) s = .next t ∧ TrapTaken (.sys (c.extractLsb' 0 8)) (s.pc + 4#32) s t ∧
      t.d[15] = (c.extractLsb' 0 8).setWidth 32 ∧
      t.pc = evenBase s.core.btv ||| 0xC0#32

/-- MTCR in Supervisor mode to a register it may write: the bits of the mask from the value D[a] holds by the
register's layout, every other register unchanged, an ISYNC awaited (R192 to R194, R199). -/
def Obligations.MtcrEffect : Prop :=
  ∀ (s : State) (addr : BitVec 16) (a : Fin 16) (r : Csfr) (mask : Word),
    Psw.io s.psw = 0b10#2 → csfrOfAddr s addr = some r → csfrWriteMask r = some mask →
    (endinitProtects r = true → s.endinit = false) →
    (safetyEndinitProtects r = true → s.safetyEndinit = false) →
    (r = .psw → Psw.io (csfrFrom s .psw s.d[a]) ≠ 0b11#2) →
    ∃ t, exec (.mtcr addr a.val) s = .next t ∧
      (∀ j, (csfrValue t r).getLsbD j =
        if mask.getLsbD j then (csfrFrom s r s.d[a]).getLsbD j else (csfrValue s r).getLsbD j) ∧
      (∀ q : Csfr, q ≠ r → q ≠ .pc → csfrValue t q = csfrValue s q) ∧
      t.pc = s.pc + 4#32 ∧ t.isyncPending = true ∧ SameRegisters s t ∧ SameMemory s t ∧
      t.fcdDeferred = s.fcdDeferred ∧ t.endinit = s.endinit ∧ t.safetyEndinit = s.safetyEndinit ∧
      t.inputs = s.inputs ∧ t.acks = s.acks ∧ t.platform = s.platform ∧ t.freeCount = s.freeCount

/-- Where an MTCR in Supervisor mode has no effect the spec gives, it is refused: no register, a read-only
register (U2), a register protected in the operational state (R194, U1, D6), the reserved mode (R193, D16). -/
def Obligations.MtcrRefusals : Prop :=
  ∀ (s : State) (addr : BitVec 16) (a : Fin 16), Psw.io s.psw = 0b10#2 →
    (csfrOfAddr s addr = none → exec (.mtcr addr a.val) s = .refused (.noCoreRegister addr)) ∧
    (∀ r, csfrOfAddr s addr = some r → csfrWriteMask r = none →
      exec (.mtcr addr a.val) s = .refused (.readOnlyRegister addr)) ∧
    (∀ r, csfrOfAddr s addr = some r → endinitProtects r = true → s.endinit = true →
      exec (.mtcr addr a.val) s = .refused (.endinitProtected addr)) ∧
    (∀ r, csfrOfAddr s addr = some r → safetyEndinitProtects r = true → s.safetyEndinit = true →
      exec (.mtcr addr a.val) s = .refused (.safetyEndinitProtected addr)) ∧
    (csfrOfAddr s addr = some .psw → Psw.io (csfrFrom s .psw s.d[a]) = 0b11#2 →
      exec (.mtcr addr a.val) s = .refused .reservedIoMode)

/-- MFCR in every mode: D[c] takes the register's word with its reserved bits 0, nothing else but pc changes; an
address of no register is refused (R195, R256, U2). -/
def Obligations.MfcrEffect : Prop :=
  ∀ (s : State) (c : Fin 16) (addr : BitVec 16),
    (∀ r, csfrOfAddr s addr = some r →
      ∃ t, exec (.mfcr c.val addr) s = .next t ∧
        t.d[c] = toWord (layoutOf s r) (csfrValue s r &&& csfrReadMask r) ∧
        SameDataExcept [c] s t ∧ t.a = s.a ∧ t.pc = s.pc + 4#32 ∧ SameMemory s t ∧ SameStatus s t) ∧
    (csfrOfAddr s addr = none → exec (.mfcr c.val addr) s = .refused (.noCoreRegister addr))

/-- MTCR, ISYNC, MFCR of the same register: the writable bits read as written, the others as they read
before (R193, R195, R198, R199). -/
def Obligations.MtcrIsyncMfcrReadsBack : Prop :=
  ∀ (s t u v : State) (addr : BitVec 16) (a c : Fin 16) (r : Csfr) (mask written : Word),
    s.platform.layout.wf = true → Psw.io s.psw = 0b10#2 → csfrOfAddr s addr = some r →
    csfrWriteMask r = some mask → written = toWord (layoutOf s r) mask →
    exec (.mtcr addr a.val) s = .next t → exec .isync t = .next u → exec (.mfcr c.val addr) u = .next v →
    v.d[c] &&& written = s.d[a] &&& written ∧ v.d[c] &&& ~~~written = readCsfr s r &&& ~~~written

/-- ISYNC: pc advances and no MTCR awaits it any more; nothing else changes (R198). -/
def Obligations.IsyncEffect : Prop :=
  ∀ s : State,
    ∃ t, exec .isync s = .next t ∧ t.pc = s.pc + 4#32 ∧ t.isyncPending = false ∧ SameRegisters s t ∧
      SameMemory s t ∧ t.psw = s.psw ∧ t.icr = s.icr ∧ SameLists s t ∧ t.core = s.core ∧
      t.endinit = s.endinit ∧ t.safetyEndinit = s.safetyEndinit ∧ t.inputs = s.inputs ∧
      t.acks = s.acks ∧ t.platform = s.platform ∧ t.freeCount = s.freeCount

/-! ### Rules of the whole machine -/

/-- Every step keeps the invariant: memory canonical, pc even (R34), reserved bits zero (R36, R45, R49, R55,
R59, R61), never an FCD trap deferred while an ISYNC is awaited, LAYOUT a layout. -/
def Obligations.StepKeepsInvariant : Prop :=
  ∀ s t : State, Inv s → step s = .next t → Inv t

/-- No step writes a system global register: A[0], A[1], A[8], A[9] (R23, R28, R257). -/
def Obligations.StepKeepsGlobalRegisters : Prop :=
  ∀ s t : State, step s = .next t →
    t.a[0] = s.a[0] ∧ t.a[1] = s.a[1] ∧ t.a[8] = s.a[8] ∧ t.a[9] = s.a[9]

/-- LCX, ISP, BIV, BTV, SYSCON and the other core registers change only by an MTCR in Supervisor mode, which
awaits its ISYNC afterwards: hardware never writes them (R48, R52, R57, R63, R196). -/
def Obligations.CoreRegistersChangeOnlyByMtcr : Prop :=
  ∀ s t : State, step s = .next t → t.core ≠ s.core →
    Psw.io s.psw = 0b10#2 ∧ t.isyncPending = true ∧
      ∃ addr a, fetch (presentInputs s) = .next (.mtcr addr a)

/-- PIPN is what the ICU presents before the step, and the core never writes it (R216). -/
def Obligations.PipnBelongsToTheIcu : Prop :=
  (∀ (s : State) (x : AgentInput) (xs : List AgentInput), s.inputs = x :: xs →
    Icr.pipn (presentInputs s).icr = x.pipn) ∧
  (∀ s t : State, step s = .next t → Icr.pipn t.icr = Icr.pipn (presentInputs s).icr)

/-- ENDINIT and SAFETY_ENDINIT are what the system presents, the core never writes them nor the platform's
parameters, and presenting inputs changes nothing else but PIPN (R65, R66, R17). One input a step, and no
change when none is left, is the model's (log 14). -/
def Obligations.AgentsAndPlatformAreInputs : Prop :=
  (∀ (s : State) (x : AgentInput) (xs : List AgentInput), s.inputs = x :: xs →
    (presentInputs s).endinit = x.endinit ∧ (presentInputs s).safetyEndinit = x.safetyEndinit ∧
    (∀ j, (j < 16 ∨ 24 ≤ j) → (presentInputs s).icr.getLsbD j = s.icr.getLsbD j) ∧
    SameRegisters s (presentInputs s) ∧ (presentInputs s).pc = s.pc ∧ (presentInputs s).psw = s.psw ∧
    SameLists s (presentInputs s) ∧ (presentInputs s).core = s.core ∧ (presentInputs s).mem = s.mem ∧
    (presentInputs s).isyncPending = s.isyncPending ∧ (presentInputs s).acks = s.acks ∧
    (presentInputs s).platform = s.platform ∧ (presentInputs s).freeCount = s.freeCount) ∧
  (∀ s : State, s.inputs = [] → presentInputs s = s) ∧
  (∀ s t : State, step s = .next t →
    t.endinit = (presentInputs s).endinit ∧ t.safetyEndinit = (presentInputs s).safetyEndinit ∧
    t.platform = s.platform ∧ t.inputs = s.inputs.tail)

/-- ICR.IE and ICR.CCPN change only by an entry or by ENABLE, DISABLE, BISR, an MTCR to ICR, or RFE (R220). -/
def Obligations.InterruptStateChangesOnlyBy : Prop :=
  ∀ s t : State, step s = .next t →
    (Icr.ie t.icr ≠ Icr.ie (presentInputs s).icr ∨ Icr.ccpn t.icr ≠ Icr.ccpn (presentInputs s).icr) →
    EntryTaken (presentInputs s) t ∨
      ∃ i, fetch (presentInputs s) = .next i ∧ InterruptControlForm s i

/-- The privilege mode changes only by an entry, which goes to Supervisor mode, by RET and RFE, which load a
saved PSW, or by an MTCR to PSW in Supervisor mode (R254). -/
def Obligations.ModeChangesOnlyBy : Prop :=
  ∀ s t : State, step s = .next t → Psw.io t.psw ≠ Psw.io s.psw →
    (EntryTaken (presentInputs s) t ∧ Psw.io t.psw = 0b10#2) ∨
    ∃ i, fetch (presentInputs s) = .next i ∧ LoadsPswForm s i ∧
      (∀ addr a, i = .mtcr addr a → Psw.io s.psw = 0b10#2)

/-- A step changes only bytes that the platform backs and that hold no program text, and a store elsewhere stops:
fast calls, context stores, saves and the link word a restore writes (R80, R104, D15, D24). -/
def Obligations.StoresOnlyBackedData : Prop :=
  (∀ s t : State, step s = .next t → ∀ a : Nat, t.mem.read a ≠ s.mem.read a →
    ∃ w : Word, w.toNat = a ∧ backed s w = true ∧ isText s w = false) ∧
  (∀ (s : State) (i : Instr) (target : Word), FastCallForm s i target → s.a[10].extractLsb' 0 2 = 0#2 →
    ¬ Writable s (s.a[10] - 4#32) 4 → StopsUnwritten (exec i s) s (s.a[10] - 4#32) 4) ∧
  (∀ (s : State) (i : Instr) (upper : Bool) (ea : Word), StoreForm s i upper ea → ea.extractLsb' 0 6 = 0#6 →
    ¬ Writable s ea 64 → StopsUnwritten (exec i s) s ea 64) ∧
  (∀ (s : State) (upper : Bool), pointerOf s.fcx ≠ 0#20 → Readable s (csaEA (pointerOf s.fcx)) 4 →
    ¬ Writable s (csaEA (pointerOf s.fcx)) 64 →
    StopsUnwritten (saveContext upper s) s (csaEA (pointerOf s.fcx)) 64) ∧
  (∀ s : State, Readable s (csaEA (Pcxi.pcx s.pcxi)) 64 → ¬ Writable s (csaEA (Pcxi.pcx s.pcxi)) 4 →
    StopsUnwritten (restoreContext s) s (csaEA (Pcxi.pcx s.pcxi)) 4)

/-- A read outside the memory the platform backs gives no value and stops: the fetch, FRET, LDLCX and LDUCX, RET,
RFE and RSLCX, and the link word of every save (R80, D15). Two clauses are the model's choice and no rule of the
spec: that a byte nothing has written stops such a read too (DESIGN CHOICE, log 8), and that a fetch outside
program text is refused (DESIGN CHOICE, log 10; R104 speaks only of writes on program text). -/
def Obligations.ReadsOnlyBackedMemory : Prop :=
  (∀ s : State, RunsInstruction (presentInputs s) →
    (¬ Readable (presentInputs s) s.pc 2 → StopsUnread (step s) .fetch (presentInputs s) s.pc 2) ∧
    (Readable (presentInputs s) s.pc 2 → (∃ a ∈ span s.pc 2, isText s a = false) →
      ∃ a ∈ span s.pc 2, isText s a = false ∧ step s = .refused (.notProgramText a))) ∧
  (∀ (s : State) (b0 b1 : Byte), RunsInstruction (presentInputs s) →
    BytesAt (presentInputs s) s.pc [b0, b1] → isLong b0 = true →
    (¬ Readable (presentInputs s) (s.pc + 2#32) 2 →
      StopsUnread (step s) .fetch (presentInputs s) (s.pc + 2#32) 2) ∧
    (Readable (presentInputs s) (s.pc + 2#32) 2 → (∃ a ∈ span (s.pc + 2#32) 2, isText s a = false) →
      ∃ a ∈ span (s.pc + 2#32) 2, isText s a = false ∧ step s = .refused (.notProgramText a))) ∧
  (∀ (s : State) (i : Instr), FastReturnForm i → s.a[10].extractLsb' 0 2 = 0#2 → ¬ Readable s s.a[10] 4 →
    StopsUnread (exec i s) .load s s.a[10] 4) ∧
  (∀ (s : State) (i : Instr) (upper : Bool) (ea : Word), LoadForm s i upper ea → ea.extractLsb' 0 6 = 0#6 →
    ¬ Readable s ea 64 → StopsUnread (exec i s) .load s ea 64) ∧
  (∀ s : State, Pcxi.pcx s.pcxi ≠ 0#20 → ¬ Readable s (csaEA (Pcxi.pcx s.pcxi)) 64 →
    (∀ i, ReturnForm i → Pcxi.ul s.pcxi = true →
      ¬ (Psw.cde s.psw = true ∧ cdcDecUnderflows (Psw.cdc s.psw) = true) →
      StopsUnread (exec i s) .load s (csaEA (Pcxi.pcx s.pcxi)) 64) ∧
    (∀ i, ResumeForm i → Pcxi.ul s.pcxi = true →
      ¬ (Psw.cde s.psw = true ∧ cdcZero (Psw.cdc s.psw) = false) →
      StopsUnread (exec i s) .load s (csaEA (Pcxi.pcx s.pcxi)) 64) ∧
    (Pcxi.ul s.pcxi = false → StopsUnread (exec .rslcx s) .load s (csaEA (Pcxi.pcx s.pcxi)) 64)) ∧
  (∀ s : State, pointerOf s.fcx ≠ 0#20 → ¬ Readable s (csaEA (pointerOf s.fcx)) 4 →
    (∀ i target len, CallForm s i target len →
      StopsUnread (exec i s) .load s (csaEA (pointerOf s.fcx)) 4) ∧
    StopsUnread (exec .svlcx s) .load s (csaEA (pointerOf s.fcx)) 4 ∧
    (∀ i p len, BisrForm i p len → Psw.io s.psw = 0b10#2 →
      StopsUnread (exec i s) .load s (csaEA (pointerOf s.fcx)) 4) ∧
    (∀ c, StopsUnread (exec (.syscall c) s) .load s (csaEA (pointerOf s.fcx)) 4) ∧
    StopsUnread (interruptEntry s) .load s (csaEA (pointerOf s.fcx)) 4 ∧
    (∀ trap ret, StopsUnread (trapEntry trap ret s) .load s (csaEA (pointerOf s.fcx)) 4))

end
end

