-- ==== Sys2Proof/Laws/Fields.lean ====
section
/-! SUPPORT. Bit fields: what setting a field does to every bit, and the fields of the values the
operations build. -/

namespace Sys2Proof.Machine

/-- A field write changes the bits of the field and no other. -/
theorem getLsbD_setField {n : Nat} (w : Word) (lo : Nat) (v : BitVec n) (h : lo + n ≤ 32) (i : Nat) :
    (setField w lo v).getLsbD i = if lo ≤ i ∧ i < lo + n then v.getLsbD (i - lo) else w.getLsbD i := by
  simp only [setField, BitVec.getLsbD_or, BitVec.getLsbD_and, BitVec.getLsbD_not, BitVec.getLsbD_shiftLeft,
    BitVec.getLsbD_setWidth, BitVec.getLsbD_allOnes]
  by_cases h1 : i < lo
  · have : ¬ (lo ≤ i ∧ i < lo + n) := by omega
    simp only [this, if_false, h1, decide_true, Bool.not_true, Bool.and_false, Bool.false_and,
      Bool.not_false, Bool.or_false, Bool.and_true]
    by_cases hi : i < 32
    · simp [hi]
    · simp [hi, BitVec.getLsbD_of_ge w i (by omega)]
  · by_cases h2 : i < lo + n
    · have h3 : i - lo < n := by omega
      have h4 : lo ≤ i ∧ i < lo + n := by omega
      have h5 : i < 32 := by omega
      have h6 : i - lo < 32 := by omega
      simp [h1, h3, h4, h5, h6]
    · have h3 : ¬ i - lo < n := by omega
      have : ¬ (lo ≤ i ∧ i < lo + n) := by omega
      simp only [this, if_false, h1, h3]
      by_cases hi : i < 32
      · simp [hi, BitVec.getLsbD_of_ge v (i - lo) (by omega)]
      · simp [hi, BitVec.getLsbD_of_ge w i (by omega)]

theorem getLsbD_setFlag (w : Word) (k : Nat) (b : Bool) (h : k < 32) (i : Nat) :
    (setFlag w k b).getLsbD i = if i = k then b else w.getLsbD i := by
  rw [setFlag, getLsbD_setField _ _ _ (by omega)]
  by_cases e : i = k
  · subst e; simp
  · have : ¬ (k ≤ i ∧ i < k + 1) := by omega
    rw [if_neg e, if_neg this]

theorem getLsbD_maskedWrite (mask old new : Word) (i : Nat) :
    (maskedWrite mask old new).getLsbD i = if mask.getLsbD i then new.getLsbD i else old.getLsbD i := by
  simp only [maskedWrite, BitVec.getLsbD_or, BitVec.getLsbD_and, BitVec.getLsbD_not]
  by_cases hi : i < 32
  · cases mask.getLsbD i <;> simp [hi]
  · simp [BitVec.getLsbD_of_ge old i (by omega), BitVec.getLsbD_of_ge new i (by omega)]

theorem extractLsb'_setField_same {n : Nat} (w : Word) (lo : Nat) (v : BitVec n) (h : lo + n ≤ 32) :
    (setField w lo v).extractLsb' lo n = v := by
  ext i hi
  have : lo ≤ lo + i ∧ lo + i < lo + n := by omega
  simp [getLsbD_setField _ _ _ h, this, BitVec.getLsbD_eq_getElem hi]

theorem extractLsb'_setField_other {n : Nat} (w : Word) (lo : Nat) (v : BitVec n) (h : lo + n ≤ 32)
    (lo' n' : Nat) (hd : lo' + n' ≤ lo ∨ lo + n ≤ lo') :
    (setField w lo v).extractLsb' lo' n' = w.extractLsb' lo' n' := by
  ext i hi
  have : ¬ (lo ≤ lo' + i ∧ lo' + i < lo + n) := by omega
  simp [getLsbD_setField _ _ _ h, this]

/-! ### Handler entry (R221, R236) -/

section
variable (w : Word) (b : Bool)

theorem getLsbD_entryPsw (i : Nat) : (entryPsw w b).getLsbD i =
    if i < 7 then false else if i = 7 then true else if i = 8 then false else if i = 9 then true
    else if i = 10 then false else if i = 11 then true else if i = 12 then false else if i = 13 then false
    else if i = 14 then b else if i = 15 then false else w.getLsbD i := by
  simp only [entryPsw, Psw.setGw, Psw.setS, Psw.setCde, Psw.setCdc, Psw.setPrs, Psw.setIo, Psw.setIs,
    getLsbD_setFlag _ _ _ (show 8 < 32 by omega), getLsbD_setFlag _ _ _ (show 14 < 32 by omega),
    getLsbD_setFlag _ _ _ (show 7 < 32 by omega), getLsbD_setFlag _ _ _ (show 9 < 32 by omega),
    getLsbD_setField _ 0 (0#7) (by omega), getLsbD_setField _ 10 Io.supervisor (by omega),
    getLsbD_setField _ 12 (BitVec.extractLsb' 0 2 0#3) (by omega),
    getLsbD_setField _ 15 (BitVec.extractLsb' 2 1 0#3) (by omega)]
  by_cases h : i < 16
  · interval_cases i <;> simp [Io.supervisor]
  · have h7 : ¬ i < 7 := by omega
    have hs : i ≠ 7 ∧ i ≠ 8 ∧ i ≠ 9 ∧ i ≠ 10 ∧ i ≠ 11 ∧ i ≠ 12 ∧ i ≠ 13 ∧ i ≠ 14 ∧ i ≠ 15 := by omega
    have e1 : ¬ (12 ≤ i ∧ i < 12 + 2) := by omega
    have e2 : ¬ (15 ≤ i ∧ i < 15 + 1) := by omega
    have e3 : ¬ (10 ≤ i ∧ i < 10 + 2) := by omega
    have e4 : ¬ (0 ≤ i ∧ i < 0 + 7) := by omega
    rw [if_neg e4]
    simp only [h7, hs.1, hs.2.1, hs.2.2.1, hs.2.2.2.1, hs.2.2.2.2.1, hs.2.2.2.2.2.1, hs.2.2.2.2.2.2.1,
      hs.2.2.2.2.2.2.2.1, hs.2.2.2.2.2.2.2.2, e1, e2, e3, if_false]

@[simp] theorem entryPsw_is : Psw.is (entryPsw w b) = true := by rw [Psw.is, getLsbD_entryPsw]; rfl
@[simp] theorem entryPsw_cde : Psw.cde (entryPsw w b) = true := by rw [Psw.cde, getLsbD_entryPsw]; rfl
@[simp] theorem entryPsw_gw : Psw.gw (entryPsw w b) = false := by rw [Psw.gw, getLsbD_entryPsw]; rfl
@[simp] theorem entryPsw_s : Psw.s (entryPsw w b) = b := by rw [Psw.s, getLsbD_entryPsw]; rfl
@[simp] theorem entryPsw_io : Psw.io (entryPsw w b) = Io.supervisor := by
  ext i hi
  simp only [Psw.io, BitVec.getElem_extractLsb', getLsbD_entryPsw]
  interval_cases i <;> simp [Io.supervisor]
@[simp] theorem entryPsw_cdc : Psw.cdc (entryPsw w b) = 0#7 := by
  ext i hi
  simp only [Psw.cdc, BitVec.getElem_extractLsb', getLsbD_entryPsw]
  interval_cases i <;> simp
@[simp] theorem entryPsw_prs : Psw.prs (entryPsw w b) = 0#3 := by
  have h1 : (entryPsw w b).extractLsb' 15 1 = 0#1 := by
    ext i hi
    simp only [BitVec.getElem_extractLsb', getLsbD_entryPsw]
    interval_cases i
    simp
  have h2 : (entryPsw w b).extractLsb' 12 2 = 0#2 := by
    ext i hi
    simp only [BitVec.getElem_extractLsb', getLsbD_entryPsw]
    interval_cases i <;> simp
  rw [Psw.prs, h1, h2]
  rfl
theorem entryPsw_others (j : Nat) (h : 16 ≤ j) : (entryPsw w b).getLsbD j = w.getLsbD j := by
  rw [getLsbD_entryPsw]
  have h7 : ¬ j < 7 := by omega
  have hs : j ≠ 7 ∧ j ≠ 8 ∧ j ≠ 9 ∧ j ≠ 10 ∧ j ≠ 11 ∧ j ≠ 12 ∧ j ≠ 13 ∧ j ≠ 14 ∧ j ≠ 15 := by omega
  simp only [h7, hs.1, hs.2.1, hs.2.2.1, hs.2.2.2.1, hs.2.2.2.2.1, hs.2.2.2.2.2.1, hs.2.2.2.2.2.2.1,
      hs.2.2.2.2.2.2.2.1, hs.2.2.2.2.2.2.2.2, if_false]
end

/-! ### Call (R147) -/

@[simp] theorem callPsw_cde (w : Word) : Psw.cde (callPsw w) = true := by
  rw [callPsw, Psw.cde, Psw.setCde, getLsbD_setFlag _ _ _ (by omega), if_pos rfl]

theorem callPsw_cdc (w : Word) :
    Psw.cdc (callPsw w) = if Psw.cde w then cdcInc (Psw.cdc w) else Psw.cdc w := by
  simp only [callPsw, Psw.cdc, Psw.setCde, setFlag]
  rw [extractLsb'_setField_other _ _ _ (by omega) _ _ (by omega)]
  split
  · rw [Psw.setCdc, extractLsb'_setField_same _ _ _ (by omega)]
  · rfl

theorem callPsw_others (w : Word) (j : Nat) (h : 8 ≤ j) : (callPsw w).getLsbD j = w.getLsbD j := by
  simp only [callPsw, Psw.setCde]
  rw [getLsbD_setFlag _ _ _ (by omega), if_neg (by omega)]
  split
  · rw [Psw.setCdc, getLsbD_setField _ _ _ (by omega), if_neg (by omega)]
  · rfl

/-! ### ICR (R55) -/

section
variable (w : Word) (b : Bool) (v : BitVec 8)

@[simp] theorem Icr.ie_setIe : Icr.ie (Icr.setIe w b) = b := by
  rw [Icr.ie, Icr.setIe, getLsbD_setFlag _ _ _ (by omega), if_pos rfl]
@[simp] theorem Icr.ie_setCcpn : Icr.ie (Icr.setCcpn w v) = Icr.ie w := by
  rw [Icr.ie, Icr.setCcpn, getLsbD_setField _ _ _ (by omega), if_neg (by omega)]; rfl
@[simp] theorem Icr.ie_setPipn : Icr.ie (Icr.setPipn w v) = Icr.ie w := by
  rw [Icr.ie, Icr.setPipn, getLsbD_setField _ _ _ (by omega), if_neg (by omega)]; rfl
@[simp] theorem Icr.ccpn_setIe : Icr.ccpn (Icr.setIe w b) = Icr.ccpn w :=
  extractLsb'_setField_other _ _ _ (by omega) _ _ (by omega)
@[simp] theorem Icr.ccpn_setCcpn : Icr.ccpn (Icr.setCcpn w v) = v :=
  extractLsb'_setField_same _ _ _ (by omega)
@[simp] theorem Icr.ccpn_setPipn : Icr.ccpn (Icr.setPipn w v) = Icr.ccpn w :=
  extractLsb'_setField_other _ _ _ (by omega) _ _ (by omega)
@[simp] theorem Icr.pipn_setIe : Icr.pipn (Icr.setIe w b) = Icr.pipn w :=
  extractLsb'_setField_other _ _ _ (by omega) _ _ (by omega)
@[simp] theorem Icr.pipn_setCcpn : Icr.pipn (Icr.setCcpn w v) = Icr.pipn w :=
  extractLsb'_setField_other _ _ _ (by omega) _ _ (by omega)
@[simp] theorem Icr.pipn_setPipn : Icr.pipn (Icr.setPipn w v) = v :=
  extractLsb'_setField_same _ _ _ (by omega)

theorem Icr.getLsbD_setIe (j : Nat) : (Icr.setIe w b).getLsbD j = if j = 15 then b else w.getLsbD j :=
  getLsbD_setFlag _ _ _ (by omega) _
theorem Icr.getLsbD_setCcpn (j : Nat) :
    (Icr.setCcpn w v).getLsbD j = if j < 8 then v.getLsbD j else w.getLsbD j := by
  rw [Icr.setCcpn, getLsbD_setField _ _ _ (by omega)]
  by_cases h : j < 8 <;> simp [h]
theorem Icr.getLsbD_setPipn (j : Nat) :
    (Icr.setPipn w v).getLsbD j = if 16 ≤ j ∧ j < 24 then v.getLsbD (j - 16) else w.getLsbD j :=
  getLsbD_setField _ _ _ (by omega) _

end

/-! ### Pointers and PCXI (R45, R49) -/

/-- `simp` can see no further than the bits here; these two facts say what the joined fields are. -/
theorem getLsbD_ofPointer (p : BitVec 20) (i : Nat) : (ofPointer p).getLsbD i = p.getLsbD i := by
  simp only [ofPointer, BitVec.getLsbD_append]
  split
  · rfl
  · rw [BitVec.getLsbD_of_ge p i (by omega)]; simp

@[simp] theorem pointerOf_ofPointer (p : BitVec 20) : pointerOf (ofPointer p) = p := by
  ext i hi
  simp [pointerOf, getLsbD_ofPointer, BitVec.getLsbD_eq_getElem hi]

theorem getLsbD_pcxiMake (n : BitVec 8) (e u : Bool) (p : BitVec 20) (i : Nat) :
    (Pcxi.make n e u p).getLsbD i = if i < 20 then p.getLsbD i else if i = 20 then u
      else if i = 21 then e else n.getLsbD (i - 22) := by
  simp only [Pcxi.make, BitVec.getLsbD_append]
  by_cases h : i < 20
  · simp [h]
  · by_cases h20 : i = 20
    · subst h20; simp
    · by_cases h21 : i = 21
      · subst h21; simp
      · have h1 : ¬ i - 20 < 1 := by omega
        have h2 : ¬ i - 20 - 1 < 1 := by omega
        simp only [h, h1, h2, h20, h21, if_false]
        by_cases h3 : i - 20 - 1 - 1 < 8
        · simp only [h3, if_true]; congr 1
        · simp only [h3, if_false]
          rw [BitVec.getLsbD_of_ge n (i - 22) (by omega)]; simp

section
variable (n : BitVec 8) (e u : Bool) (p : BitVec 20)

@[simp] theorem Pcxi.ul_make : Pcxi.ul (Pcxi.make n e u p) = u := by rw [Pcxi.ul, getLsbD_pcxiMake]; rfl
@[simp] theorem Pcxi.pie_make : Pcxi.pie (Pcxi.make n e u p) = e := by rw [Pcxi.pie, getLsbD_pcxiMake]; rfl
@[simp] theorem Pcxi.pcx_make : Pcxi.pcx (Pcxi.make n e u p) = p := by
  ext i hi
  simp [Pcxi.pcx, getLsbD_pcxiMake, hi]
@[simp] theorem Pcxi.pcpn_make : Pcxi.pcpn (Pcxi.make n e u p) = n := by
  ext i hi
  have h1 : ¬ 22 + i < 20 := by omega
  have h2 : ¬ 22 + i = 20 := by omega
  have h3 : ¬ 22 + i = 21 := by omega
  simp [Pcxi.pcpn, getLsbD_pcxiMake, h1, h2, h3, BitVec.getLsbD_eq_getElem hi]

end

/-! ### Even addresses (R34) -/

theorem getLsbD_evenBase (w : Word) (i : Nat) :
    (evenBase w).getLsbD i = if i = 0 then false else w.getLsbD i := by
  simp only [evenBase, BitVec.getLsbD_append, BitVec.getLsbD_extractLsb']
  by_cases h : i = 0
  · subst h; simp
  · have h1 : ¬ i < 1 := by omega
    simp only [h, h1, if_false]
    by_cases hi : i < 32
    · have : i - 1 < 31 := by omega
      simp only [this, decide_true, Bool.true_and]; congr 1; omega
    · rw [BitVec.getLsbD_of_ge w i (by omega)]
      have : ¬ i - 1 < 31 := by omega
      simp [this]

@[simp] theorem evenBase_even (w : Word) : (evenBase w).getLsbD 0 = false := by
  rw [getLsbD_evenBase, if_pos rfl]

theorem evenBase_of_even {w : Word} (h : w.getLsbD 0 = false) : evenBase w = w := by
  apply BitVec.eq_of_getLsbD_eq
  intro i _
  rw [getLsbD_evenBase]
  split
  · rename_i e; subst e; exact h.symm
  · rfl

end Sys2Proof.Machine
end

