-- ==== Sys2Proof/Laws/Layout.lean ====
section
/-! SUPPORT. LAYOUT: a word and the value it holds determine each other, and masks follow the bits. -/

namespace Sys2Proof.Machine

theorem ofWord_getLsbD (p : Places) (w : Word) (k : Nat) (h : k < 32) :
    (ofWord p w).getLsbD k = w.getLsbD p[k].val := by
  simp [ofWord, h]

theorem toWord_getLsbD (p : Places) (v : Word) (j : Nat) (h : j < 32) :
    (toWord p v).getLsbD j = v.getLsbD (p.toList.idxOf ⟨j, h⟩) := by
  simp [toWord, h]

theorem Places.nodup {p : Places} (h : p.wf = true) : p.toList.Nodup := by
  simpa [Places.wf] using h

/-- The place of bit `k` holds bit `k`. -/
theorem Places.idxOf_place {p : Places} (h : p.wf = true) (k : Nat) (hk : k < 32) :
    p.toList.idxOf p[k] = k := by
  have := (Places.nodup h).idxOf_getElem k (by simpa using hk)
  simpa using this

/-- Every bit of the word is a place: 32 different places fill it. -/
theorem Places.exists_place {p : Places} (h : p.wf = true) (j : Fin 32) :
    ∃ (k : Nat) (hk : k < 32), p[k] = j := by
  have inj : Function.Injective fun k : Fin 32 => p[k] := fun x y e => by
    have hx := Places.idxOf_place h x.val x.isLt
    have hy := Places.idxOf_place h y.val y.isLt
    have e' : p[x.val] = p[y.val] := e
    rw [e'] at hx
    exact Fin.ext (hx.symm.trans hy)
  obtain ⟨k, hk⟩ := Finite.injective_iff_surjective.1 inj j
  exact ⟨k.val, k.isLt, hk⟩

/-- The bit of the word at the place of bit `k`. -/
theorem toWord_place {p : Places} (h : p.wf = true) (v : Word) (k : Nat) (hk : k < 32) :
    (toWord p v).getLsbD p[k].val = v.getLsbD k := by
  rw [toWord_getLsbD _ _ _ p[k].isLt, Fin.eta, Places.idxOf_place h k hk]

/-- A word's value is read back. -/
theorem ofWord_toWord {p : Places} (h : p.wf = true) (v : Word) : ofWord p (toWord p v) = v := by
  apply BitVec.eq_of_getLsbD_eq
  intro k hk
  rw [ofWord_getLsbD _ _ _ hk, toWord_place h v k hk]

/-- The word of the value a word holds is that word. -/
theorem toWord_ofWord {p : Places} (h : p.wf = true) (w : Word) : toWord p (ofWord p w) = w := by
  apply BitVec.eq_of_getLsbD_eq
  intro j hj
  obtain ⟨k, hk, e⟩ := Places.exists_place h ⟨j, hj⟩
  have := toWord_place h (ofWord p w) k hk
  rw [ofWord_getLsbD _ _ _ hk, e] at this
  exact this

theorem toWord_and (p : Places) (v w : Word) : toWord p (v &&& w) = toWord p v &&& toWord p w := by
  apply BitVec.eq_of_getLsbD_eq
  intro j hj
  simp only [toWord_getLsbD _ _ _ hj, BitVec.getLsbD_and]

theorem toWord_not {p : Places} (h : p.wf = true) (v : Word) : toWord p (~~~v) = ~~~toWord p v := by
  apply BitVec.eq_of_getLsbD_eq
  intro j hj
  obtain ⟨k, hk, e⟩ := Places.exists_place h ⟨j, hj⟩
  have h1 := toWord_place h (~~~v) k hk
  have h2 := toWord_place h v k hk
  rw [e] at h1 h2
  simp only [BitVec.getLsbD_not, hj, hk, decide_true, Bool.true_and] at h1 ⊢
  rw [h1, h2]

theorem Places.wf_identity : Places.identity.wf = true := by decide +kernel

theorem Places.identity_place (k : Nat) (h : k < 32) : Places.identity[k].val = k := by
  revert k
  decide +kernel

@[simp] theorem ofWord_identity (w : Word) : ofWord Places.identity w = w := by
  apply BitVec.eq_of_getLsbD_eq
  intro k hk
  rw [ofWord_getLsbD _ _ _ hk, Places.identity_place k hk]

@[simp] theorem toWord_identity (v : Word) : toWord Places.identity v = v := by
  rw [← ofWord_identity (toWord _ v), ofWord_toWord Places.wf_identity]

/-! ### A register's word -/

theorem Layout.wf_reset : Reset.layout.wf = true := by decide +kernel

theorem layoutOf_wf {s : State} (h : s.platform.layout.wf = true) (r : Csfr) : (layoutOf s r).wf = true := by
  simp only [Layout.wf, Bool.and_eq_true] at h
  obtain ⟨⟨⟨⟨⟨⟨⟨h1, h2⟩, h3⟩, h4⟩, h5⟩, h6⟩, h7⟩, h8⟩ := h
  cases r <;> first | assumption | exact Places.wf_identity

theorem layoutOf_congr {s t : State} (h : t.platform = s.platform) (r : Csfr) :
    layoutOf t r = layoutOf s r := by
  cases r <;> simp only [layoutOf, h]

theorem csfrFrom_congr {s t : State} (h : t.platform = s.platform) (r : Csfr) (w : Word) :
    csfrFrom t r w = csfrFrom s r w := by
  rw [csfrFrom, layoutOf_congr h, csfrFrom]

/-- A register's value is read back from its word. -/
theorem csfrFrom_csfrWord {s t : State} (h : s.platform.layout.wf = true) (hp : t.platform = s.platform)
    (r : Csfr) : csfrFrom t r (csfrWord s r) = csfrValue s r := by
  rw [csfrFrom_congr hp, csfrFrom, csfrWord, ofWord_toWord (layoutOf_wf h r)]

theorem csfrOfAddr_congr {s t : State} (h : t.platform = s.platform) (addr : BitVec 16) :
    csfrOfAddr t addr = csfrOfAddr s addr := by
  rw [csfrOfAddr, h, csfrOfAddr]

end Sys2Proof.Machine
end

