-- ==== Sys2Proof/Laws/State.lean ====
section
/-! SUPPORT. One lemma per field per update of the state, so that no proof unfolds an update. -/

namespace Sys2Proof.Machine

section
variable (s : State) (v : Word)

@[simp] theorem State.setPc_d : (s.setPc v).d = s.d := rfl
@[simp] theorem State.setPc_a : (s.setPc v).a = s.a := rfl
@[simp] theorem State.setPc_pc : (s.setPc v).pc = v := rfl
@[simp] theorem State.setPc_psw : (s.setPc v).psw = s.psw := rfl
@[simp] theorem State.setPc_pcxi : (s.setPc v).pcxi = s.pcxi := rfl
@[simp] theorem State.setPc_fcx : (s.setPc v).fcx = s.fcx := rfl
@[simp] theorem State.setPc_icr : (s.setPc v).icr = s.icr := rfl
@[simp] theorem State.setPc_core : (s.setPc v).core = s.core := rfl
@[simp] theorem State.setPc_mem : (s.setPc v).mem = s.mem := rfl
@[simp] theorem State.setPc_fcdDeferred : (s.setPc v).fcdDeferred = s.fcdDeferred := rfl
@[simp] theorem State.setPc_isyncPending : (s.setPc v).isyncPending = s.isyncPending := rfl
@[simp] theorem State.setPc_endinit : (s.setPc v).endinit = s.endinit := rfl
@[simp] theorem State.setPc_safetyEndinit : (s.setPc v).safetyEndinit = s.safetyEndinit := rfl
@[simp] theorem State.setPc_inputs : (s.setPc v).inputs = s.inputs := rfl
@[simp] theorem State.setPc_acks : (s.setPc v).acks = s.acks := rfl
@[simp] theorem State.setPc_platform : (s.setPc v).platform = s.platform := rfl
@[simp] theorem State.setPc_freeCount : (s.setPc v).freeCount = s.freeCount := rfl

end

section
variable (s : State) (v : Word)

@[simp] theorem State.setPsw_d : (s.setPsw v).d = s.d := rfl
@[simp] theorem State.setPsw_a : (s.setPsw v).a = s.a := rfl
@[simp] theorem State.setPsw_pc : (s.setPsw v).pc = s.pc := rfl
@[simp] theorem State.setPsw_psw : (s.setPsw v).psw = v := rfl
@[simp] theorem State.setPsw_pcxi : (s.setPsw v).pcxi = s.pcxi := rfl
@[simp] theorem State.setPsw_fcx : (s.setPsw v).fcx = s.fcx := rfl
@[simp] theorem State.setPsw_icr : (s.setPsw v).icr = s.icr := rfl
@[simp] theorem State.setPsw_core : (s.setPsw v).core = s.core := rfl
@[simp] theorem State.setPsw_mem : (s.setPsw v).mem = s.mem := rfl
@[simp] theorem State.setPsw_fcdDeferred : (s.setPsw v).fcdDeferred = s.fcdDeferred := rfl
@[simp] theorem State.setPsw_isyncPending : (s.setPsw v).isyncPending = s.isyncPending := rfl
@[simp] theorem State.setPsw_endinit : (s.setPsw v).endinit = s.endinit := rfl
@[simp] theorem State.setPsw_safetyEndinit : (s.setPsw v).safetyEndinit = s.safetyEndinit := rfl
@[simp] theorem State.setPsw_inputs : (s.setPsw v).inputs = s.inputs := rfl
@[simp] theorem State.setPsw_acks : (s.setPsw v).acks = s.acks := rfl
@[simp] theorem State.setPsw_platform : (s.setPsw v).platform = s.platform := rfl
@[simp] theorem State.setPsw_freeCount : (s.setPsw v).freeCount = s.freeCount := rfl

end

section
variable (s : State) (v : Word)

@[simp] theorem State.setPcxi_d : (s.setPcxi v).d = s.d := rfl
@[simp] theorem State.setPcxi_a : (s.setPcxi v).a = s.a := rfl
@[simp] theorem State.setPcxi_pc : (s.setPcxi v).pc = s.pc := rfl
@[simp] theorem State.setPcxi_psw : (s.setPcxi v).psw = s.psw := rfl
@[simp] theorem State.setPcxi_pcxi : (s.setPcxi v).pcxi = v := rfl
@[simp] theorem State.setPcxi_fcx : (s.setPcxi v).fcx = s.fcx := rfl
@[simp] theorem State.setPcxi_icr : (s.setPcxi v).icr = s.icr := rfl
@[simp] theorem State.setPcxi_core : (s.setPcxi v).core = s.core := rfl
@[simp] theorem State.setPcxi_mem : (s.setPcxi v).mem = s.mem := rfl
@[simp] theorem State.setPcxi_fcdDeferred : (s.setPcxi v).fcdDeferred = s.fcdDeferred := rfl
@[simp] theorem State.setPcxi_isyncPending : (s.setPcxi v).isyncPending = s.isyncPending := rfl
@[simp] theorem State.setPcxi_endinit : (s.setPcxi v).endinit = s.endinit := rfl
@[simp] theorem State.setPcxi_safetyEndinit : (s.setPcxi v).safetyEndinit = s.safetyEndinit := rfl
@[simp] theorem State.setPcxi_inputs : (s.setPcxi v).inputs = s.inputs := rfl
@[simp] theorem State.setPcxi_acks : (s.setPcxi v).acks = s.acks := rfl
@[simp] theorem State.setPcxi_platform : (s.setPcxi v).platform = s.platform := rfl
@[simp] theorem State.setPcxi_freeCount : (s.setPcxi v).freeCount = s.freeCount := rfl

end

section
variable (s : State) (v : Word)

@[simp] theorem State.setFcx_d : (s.setFcx v).d = s.d := rfl
@[simp] theorem State.setFcx_a : (s.setFcx v).a = s.a := rfl
@[simp] theorem State.setFcx_pc : (s.setFcx v).pc = s.pc := rfl
@[simp] theorem State.setFcx_psw : (s.setFcx v).psw = s.psw := rfl
@[simp] theorem State.setFcx_pcxi : (s.setFcx v).pcxi = s.pcxi := rfl
@[simp] theorem State.setFcx_fcx : (s.setFcx v).fcx = v := rfl
@[simp] theorem State.setFcx_icr : (s.setFcx v).icr = s.icr := rfl
@[simp] theorem State.setFcx_core : (s.setFcx v).core = s.core := rfl
@[simp] theorem State.setFcx_mem : (s.setFcx v).mem = s.mem := rfl
@[simp] theorem State.setFcx_fcdDeferred : (s.setFcx v).fcdDeferred = s.fcdDeferred := rfl
@[simp] theorem State.setFcx_isyncPending : (s.setFcx v).isyncPending = s.isyncPending := rfl
@[simp] theorem State.setFcx_endinit : (s.setFcx v).endinit = s.endinit := rfl
@[simp] theorem State.setFcx_safetyEndinit : (s.setFcx v).safetyEndinit = s.safetyEndinit := rfl
@[simp] theorem State.setFcx_inputs : (s.setFcx v).inputs = s.inputs := rfl
@[simp] theorem State.setFcx_acks : (s.setFcx v).acks = s.acks := rfl
@[simp] theorem State.setFcx_platform : (s.setFcx v).platform = s.platform := rfl
@[simp] theorem State.setFcx_freeCount : (s.setFcx v).freeCount = s.freeCount := rfl

end

section
variable (s : State) (v : Word)

@[simp] theorem State.setIcr_d : (s.setIcr v).d = s.d := rfl
@[simp] theorem State.setIcr_a : (s.setIcr v).a = s.a := rfl
@[simp] theorem State.setIcr_pc : (s.setIcr v).pc = s.pc := rfl
@[simp] theorem State.setIcr_psw : (s.setIcr v).psw = s.psw := rfl
@[simp] theorem State.setIcr_pcxi : (s.setIcr v).pcxi = s.pcxi := rfl
@[simp] theorem State.setIcr_fcx : (s.setIcr v).fcx = s.fcx := rfl
@[simp] theorem State.setIcr_icr : (s.setIcr v).icr = v := rfl
@[simp] theorem State.setIcr_core : (s.setIcr v).core = s.core := rfl
@[simp] theorem State.setIcr_mem : (s.setIcr v).mem = s.mem := rfl
@[simp] theorem State.setIcr_fcdDeferred : (s.setIcr v).fcdDeferred = s.fcdDeferred := rfl
@[simp] theorem State.setIcr_isyncPending : (s.setIcr v).isyncPending = s.isyncPending := rfl
@[simp] theorem State.setIcr_endinit : (s.setIcr v).endinit = s.endinit := rfl
@[simp] theorem State.setIcr_safetyEndinit : (s.setIcr v).safetyEndinit = s.safetyEndinit := rfl
@[simp] theorem State.setIcr_inputs : (s.setIcr v).inputs = s.inputs := rfl
@[simp] theorem State.setIcr_acks : (s.setIcr v).acks = s.acks := rfl
@[simp] theorem State.setIcr_platform : (s.setIcr v).platform = s.platform := rfl
@[simp] theorem State.setIcr_freeCount : (s.setIcr v).freeCount = s.freeCount := rfl

end

section
variable (s : State) (v : CoreRegs)

@[simp] theorem State.setCore_d : (s.setCore v).d = s.d := rfl
@[simp] theorem State.setCore_a : (s.setCore v).a = s.a := rfl
@[simp] theorem State.setCore_pc : (s.setCore v).pc = s.pc := rfl
@[simp] theorem State.setCore_psw : (s.setCore v).psw = s.psw := rfl
@[simp] theorem State.setCore_pcxi : (s.setCore v).pcxi = s.pcxi := rfl
@[simp] theorem State.setCore_fcx : (s.setCore v).fcx = s.fcx := rfl
@[simp] theorem State.setCore_icr : (s.setCore v).icr = s.icr := rfl
@[simp] theorem State.setCore_core : (s.setCore v).core = v := rfl
@[simp] theorem State.setCore_mem : (s.setCore v).mem = s.mem := rfl
@[simp] theorem State.setCore_fcdDeferred : (s.setCore v).fcdDeferred = s.fcdDeferred := rfl
@[simp] theorem State.setCore_isyncPending : (s.setCore v).isyncPending = s.isyncPending := rfl
@[simp] theorem State.setCore_endinit : (s.setCore v).endinit = s.endinit := rfl
@[simp] theorem State.setCore_safetyEndinit : (s.setCore v).safetyEndinit = s.safetyEndinit := rfl
@[simp] theorem State.setCore_inputs : (s.setCore v).inputs = s.inputs := rfl
@[simp] theorem State.setCore_acks : (s.setCore v).acks = s.acks := rfl
@[simp] theorem State.setCore_platform : (s.setCore v).platform = s.platform := rfl
@[simp] theorem State.setCore_freeCount : (s.setCore v).freeCount = s.freeCount := rfl

end

section
variable (s : State) (v : Memory)

@[simp] theorem State.setMem_d : (s.setMem v).d = s.d := rfl
@[simp] theorem State.setMem_a : (s.setMem v).a = s.a := rfl
@[simp] theorem State.setMem_pc : (s.setMem v).pc = s.pc := rfl
@[simp] theorem State.setMem_psw : (s.setMem v).psw = s.psw := rfl
@[simp] theorem State.setMem_pcxi : (s.setMem v).pcxi = s.pcxi := rfl
@[simp] theorem State.setMem_fcx : (s.setMem v).fcx = s.fcx := rfl
@[simp] theorem State.setMem_icr : (s.setMem v).icr = s.icr := rfl
@[simp] theorem State.setMem_core : (s.setMem v).core = s.core := rfl
@[simp] theorem State.setMem_mem : (s.setMem v).mem = v := rfl
@[simp] theorem State.setMem_fcdDeferred : (s.setMem v).fcdDeferred = s.fcdDeferred := rfl
@[simp] theorem State.setMem_isyncPending : (s.setMem v).isyncPending = s.isyncPending := rfl
@[simp] theorem State.setMem_endinit : (s.setMem v).endinit = s.endinit := rfl
@[simp] theorem State.setMem_safetyEndinit : (s.setMem v).safetyEndinit = s.safetyEndinit := rfl
@[simp] theorem State.setMem_inputs : (s.setMem v).inputs = s.inputs := rfl
@[simp] theorem State.setMem_acks : (s.setMem v).acks = s.acks := rfl
@[simp] theorem State.setMem_platform : (s.setMem v).platform = s.platform := rfl
@[simp] theorem State.setMem_freeCount : (s.setMem v).freeCount = s.freeCount := rfl

end

section
variable (s : State) (v : Vector Word 16)

@[simp] theorem State.setDs_d : (s.setDs v).d = v := rfl
@[simp] theorem State.setDs_a : (s.setDs v).a = s.a := rfl
@[simp] theorem State.setDs_pc : (s.setDs v).pc = s.pc := rfl
@[simp] theorem State.setDs_psw : (s.setDs v).psw = s.psw := rfl
@[simp] theorem State.setDs_pcxi : (s.setDs v).pcxi = s.pcxi := rfl
@[simp] theorem State.setDs_fcx : (s.setDs v).fcx = s.fcx := rfl
@[simp] theorem State.setDs_icr : (s.setDs v).icr = s.icr := rfl
@[simp] theorem State.setDs_core : (s.setDs v).core = s.core := rfl
@[simp] theorem State.setDs_mem : (s.setDs v).mem = s.mem := rfl
@[simp] theorem State.setDs_fcdDeferred : (s.setDs v).fcdDeferred = s.fcdDeferred := rfl
@[simp] theorem State.setDs_isyncPending : (s.setDs v).isyncPending = s.isyncPending := rfl
@[simp] theorem State.setDs_endinit : (s.setDs v).endinit = s.endinit := rfl
@[simp] theorem State.setDs_safetyEndinit : (s.setDs v).safetyEndinit = s.safetyEndinit := rfl
@[simp] theorem State.setDs_inputs : (s.setDs v).inputs = s.inputs := rfl
@[simp] theorem State.setDs_acks : (s.setDs v).acks = s.acks := rfl
@[simp] theorem State.setDs_platform : (s.setDs v).platform = s.platform := rfl
@[simp] theorem State.setDs_freeCount : (s.setDs v).freeCount = s.freeCount := rfl

end

section
variable (s : State) (v : Vector Word 16)

@[simp] theorem State.setAs_d : (s.setAs v).d = s.d := rfl
@[simp] theorem State.setAs_a : (s.setAs v).a = v := rfl
@[simp] theorem State.setAs_pc : (s.setAs v).pc = s.pc := rfl
@[simp] theorem State.setAs_psw : (s.setAs v).psw = s.psw := rfl
@[simp] theorem State.setAs_pcxi : (s.setAs v).pcxi = s.pcxi := rfl
@[simp] theorem State.setAs_fcx : (s.setAs v).fcx = s.fcx := rfl
@[simp] theorem State.setAs_icr : (s.setAs v).icr = s.icr := rfl
@[simp] theorem State.setAs_core : (s.setAs v).core = s.core := rfl
@[simp] theorem State.setAs_mem : (s.setAs v).mem = s.mem := rfl
@[simp] theorem State.setAs_fcdDeferred : (s.setAs v).fcdDeferred = s.fcdDeferred := rfl
@[simp] theorem State.setAs_isyncPending : (s.setAs v).isyncPending = s.isyncPending := rfl
@[simp] theorem State.setAs_endinit : (s.setAs v).endinit = s.endinit := rfl
@[simp] theorem State.setAs_safetyEndinit : (s.setAs v).safetyEndinit = s.safetyEndinit := rfl
@[simp] theorem State.setAs_inputs : (s.setAs v).inputs = s.inputs := rfl
@[simp] theorem State.setAs_acks : (s.setAs v).acks = s.acks := rfl
@[simp] theorem State.setAs_platform : (s.setAs v).platform = s.platform := rfl
@[simp] theorem State.setAs_freeCount : (s.setAs v).freeCount = s.freeCount := rfl

end

section
variable (s : State) (b : Bool)

@[simp] theorem State.setFcdDeferred_d : (s.setFcdDeferred b).d = s.d := rfl
@[simp] theorem State.setFcdDeferred_a : (s.setFcdDeferred b).a = s.a := rfl
@[simp] theorem State.setFcdDeferred_pc : (s.setFcdDeferred b).pc = s.pc := rfl
@[simp] theorem State.setFcdDeferred_psw : (s.setFcdDeferred b).psw = s.psw := rfl
@[simp] theorem State.setFcdDeferred_pcxi : (s.setFcdDeferred b).pcxi = s.pcxi := rfl
@[simp] theorem State.setFcdDeferred_fcx : (s.setFcdDeferred b).fcx = s.fcx := rfl
@[simp] theorem State.setFcdDeferred_icr : (s.setFcdDeferred b).icr = s.icr := rfl
@[simp] theorem State.setFcdDeferred_core : (s.setFcdDeferred b).core = s.core := rfl
@[simp] theorem State.setFcdDeferred_mem : (s.setFcdDeferred b).mem = s.mem := rfl
@[simp] theorem State.setFcdDeferred_fcdDeferred : (s.setFcdDeferred b).fcdDeferred = b := rfl
@[simp] theorem State.setFcdDeferred_isyncPending : (s.setFcdDeferred b).isyncPending = s.isyncPending := rfl
@[simp] theorem State.setFcdDeferred_endinit : (s.setFcdDeferred b).endinit = s.endinit := rfl
@[simp] theorem State.setFcdDeferred_safetyEndinit : (s.setFcdDeferred b).safetyEndinit = s.safetyEndinit := rfl
@[simp] theorem State.setFcdDeferred_inputs : (s.setFcdDeferred b).inputs = s.inputs := rfl
@[simp] theorem State.setFcdDeferred_acks : (s.setFcdDeferred b).acks = s.acks := rfl
@[simp] theorem State.setFcdDeferred_platform : (s.setFcdDeferred b).platform = s.platform := rfl
@[simp] theorem State.setFcdDeferred_freeCount : (s.setFcdDeferred b).freeCount = s.freeCount := rfl

end

section
variable (s : State) (b : Bool)

@[simp] theorem State.setIsyncPending_d : (s.setIsyncPending b).d = s.d := rfl
@[simp] theorem State.setIsyncPending_a : (s.setIsyncPending b).a = s.a := rfl
@[simp] theorem State.setIsyncPending_pc : (s.setIsyncPending b).pc = s.pc := rfl
@[simp] theorem State.setIsyncPending_psw : (s.setIsyncPending b).psw = s.psw := rfl
@[simp] theorem State.setIsyncPending_pcxi : (s.setIsyncPending b).pcxi = s.pcxi := rfl
@[simp] theorem State.setIsyncPending_fcx : (s.setIsyncPending b).fcx = s.fcx := rfl
@[simp] theorem State.setIsyncPending_icr : (s.setIsyncPending b).icr = s.icr := rfl
@[simp] theorem State.setIsyncPending_core : (s.setIsyncPending b).core = s.core := rfl
@[simp] theorem State.setIsyncPending_mem : (s.setIsyncPending b).mem = s.mem := rfl
@[simp] theorem State.setIsyncPending_fcdDeferred : (s.setIsyncPending b).fcdDeferred = s.fcdDeferred := rfl
@[simp] theorem State.setIsyncPending_isyncPending : (s.setIsyncPending b).isyncPending = b := rfl
@[simp] theorem State.setIsyncPending_endinit : (s.setIsyncPending b).endinit = s.endinit := rfl
@[simp] theorem State.setIsyncPending_safetyEndinit : (s.setIsyncPending b).safetyEndinit = s.safetyEndinit := rfl
@[simp] theorem State.setIsyncPending_inputs : (s.setIsyncPending b).inputs = s.inputs := rfl
@[simp] theorem State.setIsyncPending_acks : (s.setIsyncPending b).acks = s.acks := rfl
@[simp] theorem State.setIsyncPending_platform : (s.setIsyncPending b).platform = s.platform := rfl
@[simp] theorem State.setIsyncPending_freeCount : (s.setIsyncPending b).freeCount = s.freeCount := rfl

end

section
variable (s : State) (v : List (BitVec 8))

@[simp] theorem State.setAcks_d : (s.setAcks v).d = s.d := rfl
@[simp] theorem State.setAcks_a : (s.setAcks v).a = s.a := rfl
@[simp] theorem State.setAcks_pc : (s.setAcks v).pc = s.pc := rfl
@[simp] theorem State.setAcks_psw : (s.setAcks v).psw = s.psw := rfl
@[simp] theorem State.setAcks_pcxi : (s.setAcks v).pcxi = s.pcxi := rfl
@[simp] theorem State.setAcks_fcx : (s.setAcks v).fcx = s.fcx := rfl
@[simp] theorem State.setAcks_icr : (s.setAcks v).icr = s.icr := rfl
@[simp] theorem State.setAcks_core : (s.setAcks v).core = s.core := rfl
@[simp] theorem State.setAcks_mem : (s.setAcks v).mem = s.mem := rfl
@[simp] theorem State.setAcks_fcdDeferred : (s.setAcks v).fcdDeferred = s.fcdDeferred := rfl
@[simp] theorem State.setAcks_isyncPending : (s.setAcks v).isyncPending = s.isyncPending := rfl
@[simp] theorem State.setAcks_endinit : (s.setAcks v).endinit = s.endinit := rfl
@[simp] theorem State.setAcks_safetyEndinit : (s.setAcks v).safetyEndinit = s.safetyEndinit := rfl
@[simp] theorem State.setAcks_inputs : (s.setAcks v).inputs = s.inputs := rfl
@[simp] theorem State.setAcks_acks : (s.setAcks v).acks = v := rfl
@[simp] theorem State.setAcks_platform : (s.setAcks v).platform = s.platform := rfl
@[simp] theorem State.setAcks_freeCount : (s.setAcks v).freeCount = s.freeCount := rfl

end

section
variable (s : State) (v : List AgentInput)

@[simp] theorem State.setInputs_d : (s.setInputs v).d = s.d := rfl
@[simp] theorem State.setInputs_a : (s.setInputs v).a = s.a := rfl
@[simp] theorem State.setInputs_pc : (s.setInputs v).pc = s.pc := rfl
@[simp] theorem State.setInputs_psw : (s.setInputs v).psw = s.psw := rfl
@[simp] theorem State.setInputs_pcxi : (s.setInputs v).pcxi = s.pcxi := rfl
@[simp] theorem State.setInputs_fcx : (s.setInputs v).fcx = s.fcx := rfl
@[simp] theorem State.setInputs_icr : (s.setInputs v).icr = s.icr := rfl
@[simp] theorem State.setInputs_core : (s.setInputs v).core = s.core := rfl
@[simp] theorem State.setInputs_mem : (s.setInputs v).mem = s.mem := rfl
@[simp] theorem State.setInputs_fcdDeferred : (s.setInputs v).fcdDeferred = s.fcdDeferred := rfl
@[simp] theorem State.setInputs_isyncPending : (s.setInputs v).isyncPending = s.isyncPending := rfl
@[simp] theorem State.setInputs_endinit : (s.setInputs v).endinit = s.endinit := rfl
@[simp] theorem State.setInputs_safetyEndinit : (s.setInputs v).safetyEndinit = s.safetyEndinit := rfl
@[simp] theorem State.setInputs_inputs : (s.setInputs v).inputs = v := rfl
@[simp] theorem State.setInputs_acks : (s.setInputs v).acks = s.acks := rfl
@[simp] theorem State.setInputs_platform : (s.setInputs v).platform = s.platform := rfl
@[simp] theorem State.setInputs_freeCount : (s.setInputs v).freeCount = s.freeCount := rfl

end

section
variable (s : State) (b c : Bool)

@[simp] theorem State.setEndinits_d : (s.setEndinits b c).d = s.d := rfl
@[simp] theorem State.setEndinits_a : (s.setEndinits b c).a = s.a := rfl
@[simp] theorem State.setEndinits_pc : (s.setEndinits b c).pc = s.pc := rfl
@[simp] theorem State.setEndinits_psw : (s.setEndinits b c).psw = s.psw := rfl
@[simp] theorem State.setEndinits_pcxi : (s.setEndinits b c).pcxi = s.pcxi := rfl
@[simp] theorem State.setEndinits_fcx : (s.setEndinits b c).fcx = s.fcx := rfl
@[simp] theorem State.setEndinits_icr : (s.setEndinits b c).icr = s.icr := rfl
@[simp] theorem State.setEndinits_core : (s.setEndinits b c).core = s.core := rfl
@[simp] theorem State.setEndinits_mem : (s.setEndinits b c).mem = s.mem := rfl
@[simp] theorem State.setEndinits_fcdDeferred : (s.setEndinits b c).fcdDeferred = s.fcdDeferred := rfl
@[simp] theorem State.setEndinits_isyncPending : (s.setEndinits b c).isyncPending = s.isyncPending := rfl
@[simp] theorem State.setEndinits_endinit : (s.setEndinits b c).endinit = b := rfl
@[simp] theorem State.setEndinits_safetyEndinit : (s.setEndinits b c).safetyEndinit = c := rfl
@[simp] theorem State.setEndinits_inputs : (s.setEndinits b c).inputs = s.inputs := rfl
@[simp] theorem State.setEndinits_acks : (s.setEndinits b c).acks = s.acks := rfl
@[simp] theorem State.setEndinits_platform : (s.setEndinits b c).platform = s.platform := rfl
@[simp] theorem State.setEndinits_freeCount : (s.setEndinits b c).freeCount = s.freeCount := rfl

end

section
variable (s : State) (p : Platform)

@[simp] theorem State.setPlatform_d : (s.setPlatform p).d = s.d := rfl
@[simp] theorem State.setPlatform_a : (s.setPlatform p).a = s.a := rfl
@[simp] theorem State.setPlatform_pc : (s.setPlatform p).pc = s.pc := rfl
@[simp] theorem State.setPlatform_psw : (s.setPlatform p).psw = s.psw := rfl
@[simp] theorem State.setPlatform_pcxi : (s.setPlatform p).pcxi = s.pcxi := rfl
@[simp] theorem State.setPlatform_fcx : (s.setPlatform p).fcx = s.fcx := rfl
@[simp] theorem State.setPlatform_icr : (s.setPlatform p).icr = s.icr := rfl
@[simp] theorem State.setPlatform_core : (s.setPlatform p).core = s.core := rfl
@[simp] theorem State.setPlatform_mem : (s.setPlatform p).mem = s.mem := rfl
@[simp] theorem State.setPlatform_fcdDeferred : (s.setPlatform p).fcdDeferred = s.fcdDeferred := rfl
@[simp] theorem State.setPlatform_isyncPending : (s.setPlatform p).isyncPending = s.isyncPending := rfl
@[simp] theorem State.setPlatform_endinit : (s.setPlatform p).endinit = s.endinit := rfl
@[simp] theorem State.setPlatform_safetyEndinit : (s.setPlatform p).safetyEndinit = s.safetyEndinit := rfl
@[simp] theorem State.setPlatform_inputs : (s.setPlatform p).inputs = s.inputs := rfl
@[simp] theorem State.setPlatform_acks : (s.setPlatform p).acks = s.acks := rfl
@[simp] theorem State.setPlatform_platform : (s.setPlatform p).platform = p := rfl
@[simp] theorem State.setPlatform_freeCount : (s.setPlatform p).freeCount = s.freeCount := rfl

end

section
variable (s : State) (n : Nat)

@[simp] theorem State.setFreeCount_d : (s.setFreeCount n).d = s.d := rfl
@[simp] theorem State.setFreeCount_a : (s.setFreeCount n).a = s.a := rfl
@[simp] theorem State.setFreeCount_pc : (s.setFreeCount n).pc = s.pc := rfl
@[simp] theorem State.setFreeCount_psw : (s.setFreeCount n).psw = s.psw := rfl
@[simp] theorem State.setFreeCount_pcxi : (s.setFreeCount n).pcxi = s.pcxi := rfl
@[simp] theorem State.setFreeCount_fcx : (s.setFreeCount n).fcx = s.fcx := rfl
@[simp] theorem State.setFreeCount_icr : (s.setFreeCount n).icr = s.icr := rfl
@[simp] theorem State.setFreeCount_core : (s.setFreeCount n).core = s.core := rfl
@[simp] theorem State.setFreeCount_mem : (s.setFreeCount n).mem = s.mem := rfl
@[simp] theorem State.setFreeCount_fcdDeferred : (s.setFreeCount n).fcdDeferred = s.fcdDeferred := rfl
@[simp] theorem State.setFreeCount_isyncPending : (s.setFreeCount n).isyncPending = s.isyncPending := rfl
@[simp] theorem State.setFreeCount_endinit : (s.setFreeCount n).endinit = s.endinit := rfl
@[simp] theorem State.setFreeCount_safetyEndinit : (s.setFreeCount n).safetyEndinit = s.safetyEndinit := rfl
@[simp] theorem State.setFreeCount_inputs : (s.setFreeCount n).inputs = s.inputs := rfl
@[simp] theorem State.setFreeCount_acks : (s.setFreeCount n).acks = s.acks := rfl
@[simp] theorem State.setFreeCount_platform : (s.setFreeCount n).platform = s.platform := rfl
@[simp] theorem State.setFreeCount_freeCount : (s.setFreeCount n).freeCount = n := rfl

end

section
variable (s : State) (i : Fin 16) (v : Word)

@[simp] theorem State.writeD_d : (s.writeD i v).d = s.d.set i v := rfl
@[simp] theorem State.writeD_a : (s.writeD i v).a = s.a := rfl
@[simp] theorem State.writeD_pc : (s.writeD i v).pc = s.pc := rfl
@[simp] theorem State.writeD_psw : (s.writeD i v).psw = s.psw := rfl
@[simp] theorem State.writeD_pcxi : (s.writeD i v).pcxi = s.pcxi := rfl
@[simp] theorem State.writeD_fcx : (s.writeD i v).fcx = s.fcx := rfl
@[simp] theorem State.writeD_icr : (s.writeD i v).icr = s.icr := rfl
@[simp] theorem State.writeD_core : (s.writeD i v).core = s.core := rfl
@[simp] theorem State.writeD_mem : (s.writeD i v).mem = s.mem := rfl
@[simp] theorem State.writeD_fcdDeferred : (s.writeD i v).fcdDeferred = s.fcdDeferred := rfl
@[simp] theorem State.writeD_isyncPending : (s.writeD i v).isyncPending = s.isyncPending := rfl
@[simp] theorem State.writeD_endinit : (s.writeD i v).endinit = s.endinit := rfl
@[simp] theorem State.writeD_safetyEndinit : (s.writeD i v).safetyEndinit = s.safetyEndinit := rfl
@[simp] theorem State.writeD_inputs : (s.writeD i v).inputs = s.inputs := rfl
@[simp] theorem State.writeD_acks : (s.writeD i v).acks = s.acks := rfl
@[simp] theorem State.writeD_platform : (s.writeD i v).platform = s.platform := rfl
@[simp] theorem State.writeD_freeCount : (s.writeD i v).freeCount = s.freeCount := rfl

end

section
variable (s : State) (i : Fin 16) (v : Word)

@[simp] theorem State.writeA_d : (s.writeA i v).d = s.d := rfl
@[simp] theorem State.writeA_a : (s.writeA i v).a = s.a.set i v := rfl
@[simp] theorem State.writeA_pc : (s.writeA i v).pc = s.pc := rfl
@[simp] theorem State.writeA_psw : (s.writeA i v).psw = s.psw := rfl
@[simp] theorem State.writeA_pcxi : (s.writeA i v).pcxi = s.pcxi := rfl
@[simp] theorem State.writeA_fcx : (s.writeA i v).fcx = s.fcx := rfl
@[simp] theorem State.writeA_icr : (s.writeA i v).icr = s.icr := rfl
@[simp] theorem State.writeA_core : (s.writeA i v).core = s.core := rfl
@[simp] theorem State.writeA_mem : (s.writeA i v).mem = s.mem := rfl
@[simp] theorem State.writeA_fcdDeferred : (s.writeA i v).fcdDeferred = s.fcdDeferred := rfl
@[simp] theorem State.writeA_isyncPending : (s.writeA i v).isyncPending = s.isyncPending := rfl
@[simp] theorem State.writeA_endinit : (s.writeA i v).endinit = s.endinit := rfl
@[simp] theorem State.writeA_safetyEndinit : (s.writeA i v).safetyEndinit = s.safetyEndinit := rfl
@[simp] theorem State.writeA_inputs : (s.writeA i v).inputs = s.inputs := rfl
@[simp] theorem State.writeA_acks : (s.writeA i v).acks = s.acks := rfl
@[simp] theorem State.writeA_platform : (s.writeA i v).platform = s.platform := rfl
@[simp] theorem State.writeA_freeCount : (s.writeA i v).freeCount = s.freeCount := rfl

end

end Sys2Proof.Machine
end

