-- ==== Sys2Proof/Laws/Memory.lean ====
section
/-! SUPPORT. Memory: read after write, the canonical form, and what an access can answer. -/

namespace Sys2Proof.Machine

/-! ### Outcomes -/

@[simp] theorem andThen_next {α β : Type} (a : α) (f : α → Res β) : andThen (.next a) f = f a := rfl
@[simp] theorem andThen_fault {α β : Type} (r : Fault) (f : α → Res β) :
    andThen (.fault r) f = .fault r := rfl
@[simp] theorem andThen_refused {α β : Type} (r : Refusal) (f : α → Res β) :
    andThen (.refused r) f = .refused r := rfl

theorem andThen_eq_next {α β : Type} {x : Res α} {f : α → Res β} {b : β} :
    andThen x f = .next b ↔ ∃ a, x = .next a ∧ f a = .next b := by
  cases x <;> simp [andThen]

/-! ### The byte list -/

theorem Memory.read_write_same (m : Memory) (a : Nat) (b : Byte) : (m.write a b).read a = some b := by
  induction m with
  | nil => simp [Memory.write, Memory.read]
  | cons c m ih =>
    obtain ⟨x, v⟩ := c
    simp only [Memory.write]
    split
    · simp [Memory.read]
    · split
      · simp [Memory.read]
      · rename_i h
        simp only [Memory.read, ih]
        rw [if_neg (fun e => h e.symm)]

theorem Memory.read_write_other (m : Memory) {a c : Nat} (b : Byte) (h : a ≠ c) :
    (m.write a b).read c = m.read c := by
  induction m with
  | nil => simp [Memory.write, Memory.read, h]
  | cons e m ih =>
    obtain ⟨x, v⟩ := e
    simp only [Memory.write]
    split
    · simp [Memory.read, h]
    · split
      · rename_i e
        subst e
        simp [Memory.read, h]
      · simp only [Memory.read, ih]

theorem Memory.wf_cons {x : Nat} {v : Byte} {m : Memory} :
    Memory.wf ((x, v) :: m) = true ↔
      x < 4294967296 ∧ (∀ c ∈ m.head?, x < c.1) ∧ Memory.wf m = true := by
  cases m with
  | nil => simp [Memory.wf]
  | cons c m =>
    obtain ⟨y, w⟩ := c
    cases m with
    | nil => simp [Memory.wf]; omega
    | cons e m =>
      obtain ⟨z, u⟩ := e
      simp only [Memory.wf, Bool.and_eq_true, decide_eq_true_eq, List.head?_cons, Option.mem_def,
        Option.some.injEq, forall_eq']
      constructor
      · rintro ⟨h1, h2, h3⟩
        refine ⟨?_, h1, h2, h3⟩
        have hy : y < 4294967296 := by
          clear h1
          induction m generalizing y w z u with
          | nil => simp [Memory.wf] at h3; omega
          | cons c m ih =>
            obtain ⟨p, q⟩ := c
            simp only [Memory.wf, Bool.and_eq_true, decide_eq_true_eq] at h3
            have := ih z u p q h3.1 h3.2
            omega
        omega
      · rintro ⟨_, h1, h2, h3⟩
        exact ⟨h1, h2, h3⟩

/-- A write keeps the canonical form. -/
theorem Memory.wf_write {m : Memory} (hm : m.wf = true) {a : Nat} (ha : a < 4294967296) (b : Byte) :
    (m.write a b).wf = true := by
  induction m with
  | nil => simpa [Memory.write, Memory.wf] using ha
  | cons c m ih =>
    obtain ⟨x, v⟩ := c
    have hm' := Memory.wf_cons.1 hm
    simp only [Memory.write]
    split
    · rename_i h
      exact Memory.wf_cons.2 ⟨ha, by simpa using h, hm⟩
    · split
      · rename_i e
        subst e
        exact Memory.wf_cons.2 hm'
      · rename_i h1 h2
        refine Memory.wf_cons.2 ⟨hm'.1, ?_, ih hm'.2.2⟩
        intro e he
        cases m with
        | nil => simp [Memory.write] at he; subst he; simp; omega
        | cons f m =>
          obtain ⟨y, w⟩ := f
          have hy : x < y := hm'.2.1 (y, w) (by simp)
          simp only [Memory.write] at he
          split at he
          · simp at he; subst he; simp; omega
          · split at he <;> · simp at he; subst he; simp; omega

/-! ### Words -/

theorem mem_span {a ea : Word} {n : Nat} : a ∈ span ea n ↔ ∃ i, i < n ∧ a = ea + BitVec.ofNat 32 i := by
  simp [span, eq_comm]

theorem Memory.read_writeWord_other (m : Memory) (ea v : Word) {a : Nat}
    (h : ∀ b ∈ span ea 4, b.toNat ≠ a) : (m.writeWord ea v).read a = m.read a := by
  have h0 : ea.toNat ≠ a := h _ (mem_span.2 ⟨0, by omega, by simp⟩)
  have h1 : (ea + 1#32).toNat ≠ a := h _ (mem_span.2 ⟨1, by omega, rfl⟩)
  have h2 : (ea + 2#32).toNat ≠ a := h _ (mem_span.2 ⟨2, by omega, rfl⟩)
  have h3 : (ea + 3#32).toNat ≠ a := h _ (mem_span.2 ⟨3, by omega, rfl⟩)
  simp only [Memory.writeWord]
  rw [Memory.read_write_other _ _ h3, Memory.read_write_other _ _ h2, Memory.read_write_other _ _ h1,
    Memory.read_write_other _ _ h0]

/-- The four bytes of a word joined again. -/
theorem bytes_joined (v : Word) :
    v.extractLsb' 24 8 ++ v.extractLsb' 16 8 ++ v.extractLsb' 8 8 ++ v.extractLsb' 0 8 = v := by
  ext i hi
  simp only [BitVec.getElem_append, BitVec.getElem_extractLsb']
  split
  · rw [← BitVec.getLsbD_eq_getElem]; simp
  · split
    · rw [← BitVec.getLsbD_eq_getElem]; congr 1; omega
    · split
      · rw [← BitVec.getLsbD_eq_getElem]; congr 1; omega
      · rw [← BitVec.getLsbD_eq_getElem]; congr 1; omega

/-- A read of the word written gives it back (20_memory.md R90, R101). -/
theorem Memory.readWord_writeWord_same (m : Memory) (ea v : Word) : (m.writeWord ea v).readWord ea = some v := by
  have n01 : ea.toNat ≠ (ea + 1#32).toNat := by bv_omega
  have n02 : ea.toNat ≠ (ea + 2#32).toNat := by bv_omega
  have n03 : ea.toNat ≠ (ea + 3#32).toNat := by bv_omega
  have n12 : (ea + 1#32).toNat ≠ (ea + 2#32).toNat := by bv_omega
  have n13 : (ea + 1#32).toNat ≠ (ea + 3#32).toNat := by bv_omega
  have n23 : (ea + 2#32).toNat ≠ (ea + 3#32).toNat := by bv_omega
  have r0 : (m.writeWord ea v).read ea.toNat = some (v.extractLsb' 0 8) := by
    simp only [Memory.writeWord]
    rw [Memory.read_write_other _ _ n03.symm, Memory.read_write_other _ _ n02.symm,
      Memory.read_write_other _ _ n01.symm, Memory.read_write_same]
  have r1 : (m.writeWord ea v).read (ea + 1#32).toNat = some (v.extractLsb' 8 8) := by
    simp only [Memory.writeWord]
    rw [Memory.read_write_other _ _ n13.symm, Memory.read_write_other _ _ n12.symm, Memory.read_write_same]
  have r2 : (m.writeWord ea v).read (ea + 2#32).toNat = some (v.extractLsb' 16 8) := by
    simp only [Memory.writeWord]
    rw [Memory.read_write_other _ _ n23.symm, Memory.read_write_same]
  have r3 : (m.writeWord ea v).read (ea + 3#32).toNat = some (v.extractLsb' 24 8) := by
    simp only [Memory.writeWord]
    rw [Memory.read_write_same]
  simp only [Memory.readWord, r0, r1, r2, r3, bytes_joined]

theorem Memory.wf_writeWord {m : Memory} (hm : m.wf = true) (ea v : Word) : (m.writeWord ea v).wf = true := by
  simp only [Memory.writeWord]
  exact Memory.wf_write (Memory.wf_write (Memory.wf_write (Memory.wf_write hm (by omega) _) (by omega) _)
    (by omega) _) (by omega) _

theorem Memory.wf_writeWords {m : Memory} (hm : m.wf = true) (ea : Word) (vs : List Word) :
    (m.writeWords ea vs).wf = true := by
  induction vs generalizing m ea with
  | nil => exact hm
  | cons v vs ih => exact ih (Memory.wf_writeWord hm ea v) _

/-- A word reads the same in two memories that agree on its four bytes. -/
theorem Memory.readWord_congr {m m' : Memory} {ea : Word}
    (h : ∀ b ∈ span ea 4, m'.read b.toNat = m.read b.toNat) : m'.readWord ea = m.readWord ea := by
  have h0 := h ea (mem_span.2 ⟨0, by omega, by simp⟩)
  have h1 := h (ea + 1#32) (mem_span.2 ⟨1, by omega, rfl⟩)
  have h2 := h (ea + 2#32) (mem_span.2 ⟨2, by omega, rfl⟩)
  have h3 := h (ea + 3#32) (mem_span.2 ⟨3, by omega, rfl⟩)
  simp only [Memory.readWord, h0, h1, h2, h3]

theorem Memory.read_writeWords_other (m : Memory) (ea : Word) (vs : List Word) {a : Nat}
    (h : ∀ b ∈ span ea (4 * vs.length), b.toNat ≠ a) : (m.writeWords ea vs).read a = m.read a := by
  induction vs generalizing m ea with
  | nil => rfl
  | cons v vs ih =>
    simp only [Memory.writeWords]
    rw [ih, Memory.read_writeWord_other]
    · intro b hb
      obtain ⟨i, hi, rfl⟩ := mem_span.1 hb
      exact h _ (mem_span.2 ⟨i, by simp only [List.length_cons]; omega, rfl⟩)
    · intro b hb
      obtain ⟨i, hi, rfl⟩ := mem_span.1 hb
      refine h _ (mem_span.2 ⟨i + 4, by simp only [List.length_cons]; omega, ?_⟩)
      rw [show i + 4 = 4 + i by omega, BitVec.ofNat_add, ← BitVec.add_assoc]

/-- Distinct offsets below 2^32 are distinct addresses. -/
theorem offset_ne {ea : Word} {i j : Nat} (hi : i < 4294967296) (hj : j < 4294967296) (h : i ≠ j) :
    (ea + BitVec.ofNat 32 i).toNat ≠ (ea + BitVec.ofNat 32 j).toNat := by
  bv_omega

/-- The words written read back, as long as they do not run round the address space. -/
theorem Memory.readWord_writeWords (m : Memory) (ea : Word) (vs : List Word)
    (hl : 4 * vs.length < 4294967296) (k : Nat) (hk : k < vs.length) :
    (m.writeWords ea vs).readWord (ea + BitVec.ofNat 32 (4 * k)) = some vs[k] := by
  induction vs generalizing m ea k with
  | nil => simp at hk
  | cons v vs ih =>
    simp only [List.length_cons] at hl hk
    simp only [Memory.writeWords]
    cases k with
    | zero =>
      simp only [Nat.mul_zero, BitVec.add_zero, List.getElem_cons_zero]
      rw [Memory.readWord_congr (m := m.writeWord ea v), Memory.readWord_writeWord_same]
      intro b hb
      obtain ⟨i, hi, rfl⟩ := mem_span.1 hb
      apply Memory.read_writeWords_other
      intro c hc
      obtain ⟨j, hj, rfl⟩ := mem_span.1 hc
      rw [BitVec.add_assoc, show (4#32 : Word) + BitVec.ofNat 32 j = BitVec.ofNat 32 (4 + j) from
        (BitVec.ofNat_add ..).symm]
      exact offset_ne (by omega) (by omega) (by omega)
    | succ k =>
      have := ih (m.writeWord ea v) (ea + 4#32) (by omega) k (by omega)
      rw [BitVec.add_assoc, show (4#32 : Word) + BitVec.ofNat 32 (4 * k) = BitVec.ofNat 32 (4 * (k + 1)) by
        rw [show 4 * (k + 1) = 4 + 4 * k by omega]; exact (BitVec.ofNat_add ..).symm] at this
      simpa using this

/-! ### What an access can answer -/

theorem readStop_eq_none {s : State} {k : AccessKind} {a : Word} :
    readStop s k a = none ↔ backed s a = true ∧ (s.mem.read a.toNat).isSome = true := by
  simp only [readStop]
  split
  · rename_i h
    cases hr : s.mem.read a.toNat <;> simp [h]
  · rename_i h
    simp [h]

theorem readStops_eq_none {s : State} {k : AccessKind} {ea : Word} {n : Nat} :
    readStops s k ea n = none ↔ Readable s ea n := by
  simp only [readStops, List.findSome?_eq_none_iff, readStop_eq_none, Readable]

theorem storeStops_eq_none {s : State} {ea : Word} {n : Nat} :
    storeStops s ea n = none ↔ Writable s ea n := by
  simp only [storeStops, List.findSome?_eq_none_iff, Writable]
  refine forall_congr' fun a => forall_congr' fun _ => ?_
  simp only [storeStop]
  cases backed s a <;> cases isText s a <;> simp

theorem readWord_of_readable {s : State} {ea : Word} (h : Readable s ea 4) :
    s.mem.readWord ea = some (wordAt s ea) := by
  have h0 := (h ea (mem_span.2 ⟨0, by omega, by simp⟩)).2
  have h1 := (h (ea + 1#32) (mem_span.2 ⟨1, by omega, rfl⟩)).2
  have h2 := (h (ea + 2#32) (mem_span.2 ⟨2, by omega, rfl⟩)).2
  have h3 := (h (ea + 3#32) (mem_span.2 ⟨3, by omega, rfl⟩)).2
  obtain ⟨b0, h0⟩ := Option.isSome_iff_exists.1 h0
  obtain ⟨b1, h1⟩ := Option.isSome_iff_exists.1 h1
  obtain ⟨b2, h2⟩ := Option.isSome_iff_exists.1 h2
  obtain ⟨b3, h3⟩ := Option.isSome_iff_exists.1 h3
  simp only [Memory.readWord, wordAt, byteAt, h0, h1, h2, h3, Option.getD_some]

/-- Everything `loadWord` can answer with a word. -/
theorem loadWord_eq_next {s : State} {ea w : Word} :
    loadWord s ea = .next w ↔ Readable s ea 4 ∧ s.mem.readWord ea = some w := by
  simp only [loadWord]
  split
  · rename_i h
    have : ¬ Readable s ea 4 := by rw [← readStops_eq_none (k := .load), h]; simp
    simp [this]
  · rename_i h
    have hr := readStops_eq_none.1 h
    simp [hr, readWord_of_readable hr]

theorem readable_block {s : State} {ea : Word} (h : Readable s ea 64) (k : Fin 16) :
    Readable s (blockAddr ea k) 4 := by
  intro a ha
  obtain ⟨i, hi, rfl⟩ := mem_span.1 ha
  refine h _ (mem_span.2 ⟨4 * k.val + i, by omega, ?_⟩)
  simp only [blockAddr, BitVec.ofNat_add, BitVec.add_assoc]

/-- Everything `loadBlock` can answer with words. -/
theorem loadBlock_eq_next {s : State} {ea : Word} {w : Vector Word 16} :
    loadBlock s ea = .next w ↔ Readable s ea 64 ∧ WordsAt s ea w := by
  simp only [loadBlock]
  split
  · rename_i h
    have : ¬ Readable s ea 64 := by rw [← readStops_eq_none (k := .load), h]; simp
    simp [this]
  · rename_i h
    have hr := readStops_eq_none.1 h
    have hw : ∀ k, s.mem.readWord (blockAddr ea k) = some (wordAt s (blockAddr ea k)) :=
      fun k => readWord_of_readable (readable_block hr k)
    simp only [Host.Outcome.next.injEq, hr, true_and, WordsAt, hw, Option.some.injEq]
    constructor
    · rintro rfl k
      simp
    · intro h
      refine Vector.ext fun k hk => ?_
      simpa using h ⟨k, hk⟩

/-- Everything `storeWords` can answer with a state. -/
theorem storeWords_eq_next {s t : State} {ea : Word} {ws : List Word} :
    storeWords s ea ws = .next t ↔
      Writable s ea (4 * ws.length) ∧ t = s.setMem (s.mem.writeWords ea ws) := by
  simp only [storeWords]
  split
  · rename_i h
    have : ¬ Writable s ea (4 * ws.length) := by rw [← storeStops_eq_none, h]; simp
    simp [this]
  · rename_i h
    have : ¬ Writable s ea (4 * ws.length) := by rw [← storeStops_eq_none, h]; simp
    simp [this]
  · rename_i h
    simp [storeStops_eq_none.1 h, eq_comm]

/-- Everything `storeWord` can answer with a state. -/
theorem storeWord_eq_next {s t : State} {ea v : Word} :
    storeWord s ea v = .next t ↔ Writable s ea 4 ∧ t = s.setMem (s.mem.writeWord ea v) := by
  simp only [storeWord, storeWords_eq_next, List.length_cons, List.length_nil, Memory.writeWords]

/-- Everything `storeBlock` can answer with a state. -/
theorem storeBlock_eq_next {s t : State} {ea : Word} {w : Vector Word 16} :
    storeBlock s ea w = .next t ↔ Writable s ea 64 ∧ t = s.setMem (s.mem.writeWords ea w.toList) := by
  simp [storeBlock, storeWords_eq_next]

/-! ### How an access stops -/

theorem readStop_eq_some {s : State} {k : AccessKind} {a : Word} {r : Fault} (h : readStop s k a = some r) :
    (backed s a = false ∧ r = .notBacked k a) ∨
      (backed s a = true ∧ s.mem.read a.toNat = none ∧ r = .unwritten k a) := by
  simp only [readStop] at h
  split at h
  · rename_i hb
    split at h
    · cases h
    · rename_i hr
      exact .inr ⟨hb, hr, by simpa using h.symm⟩
  · rename_i hb
    exact .inl ⟨by simpa using hb, by simpa using h.symm⟩

/-- Bytes that cannot be read: the fault is that of one of them. -/
theorem readStops_of_not_readable {s : State} {ea : Word} {n : Nat} (k : AccessKind)
    (h : ¬ Readable s ea n) :
    ∃ r, readStops s k ea n = some r ∧ ∀ α : Type, StopsUnread (α := α) (.fault r) k s ea n := by
  cases e : readStops s k ea n with
  | none => exact absurd (readStops_eq_none.1 e) h
  | some r =>
    obtain ⟨a, ha, hr⟩ := List.exists_of_findSome?_eq_some e
    refine ⟨r, rfl, fun α => ⟨a, ha, ?_⟩⟩
    rcases readStop_eq_some hr with ⟨hb, rfl⟩ | ⟨hb, hm, rfl⟩
    · exact .inl ⟨hb, rfl⟩
    · exact .inr ⟨hb, hm, rfl⟩

theorem StopsUnread.andThen {α β : Type} {x : Res α} {k : AccessKind} {s : State} {ea : Word} {n : Nat}
    (h : StopsUnread x k s ea n) (f : α → Res β) : StopsUnread (andThen x f) k s ea n := by
  obtain ⟨a, ha, ⟨hb, rfl⟩ | ⟨hb, hm, rfl⟩⟩ := h
  · exact ⟨a, ha, .inl ⟨hb, rfl⟩⟩
  · exact ⟨a, ha, .inr ⟨hb, hm, rfl⟩⟩

theorem StopsUnwritten.andThen {α β : Type} {x : Res α} {s : State} {ea : Word} {n : Nat}
    (h : StopsUnwritten x s ea n) (f : α → Res β) : StopsUnwritten (andThen x f) s ea n := by
  obtain ⟨a, ha, ⟨hb, rfl⟩ | ⟨hb, ht, rfl⟩⟩ := h
  · exact ⟨a, ha, .inl ⟨hb, rfl⟩⟩
  · exact ⟨a, ha, .inr ⟨hb, ht, rfl⟩⟩

theorem loadWord_stops {s : State} {ea : Word} (h : ¬ Readable s ea 4) :
    StopsUnread (loadWord s ea) .load s ea 4 := by
  obtain ⟨r, hr, hs⟩ := readStops_of_not_readable .load h
  simpa only [loadWord, hr] using hs Word

theorem loadBlock_stops {s : State} {ea : Word} (h : ¬ Readable s ea 64) :
    StopsUnread (loadBlock s ea) .load s ea 64 := by
  obtain ⟨r, hr, hs⟩ := readStops_of_not_readable .load h
  simpa only [loadBlock, hr] using hs (Vector Word 16)

theorem storeStop_eq_some {s : State} {a : Word} {r : Fault ⊕ Refusal} (h : storeStop s a = some r) :
    (backed s a = false ∧ r = .inl (.notBacked .store a)) ∨
      (backed s a = true ∧ isText s a = true ∧ r = .inr (.programText a)) := by
  simp only [storeStop] at h
  split at h
  · rename_i hb
    split at h
    · rename_i ht
      exact .inr ⟨hb, ht, by simpa using h.symm⟩
    · cases h
  · rename_i hb
    exact .inl ⟨by simpa using hb, by simpa using h.symm⟩

theorem storeWords_stops {s : State} {ea : Word} {ws : List Word} (h : ¬ Writable s ea (4 * ws.length)) :
    StopsUnwritten (storeWords s ea ws) s ea (4 * ws.length) := by
  cases e : storeStops s ea (4 * ws.length) with
  | none => exact absurd (storeStops_eq_none.1 e) h
  | some r =>
    obtain ⟨a, ha, hr⟩ := List.exists_of_findSome?_eq_some e
    refine ⟨a, ha, ?_⟩
    rcases storeStop_eq_some hr with ⟨hb, rfl⟩ | ⟨hb, ht, rfl⟩
    · exact .inl ⟨hb, by simp only [storeWords, e]⟩
    · exact .inr ⟨hb, ht, by simp only [storeWords, e]⟩

theorem storeWord_stops {s : State} {ea : Word} (v : Word) (h : ¬ Writable s ea 4) :
    StopsUnwritten (storeWord s ea v) s ea 4 := storeWords_stops h

theorem storeBlock_stops {s : State} {ea : Word} (w : Vector Word 16) (h : ¬ Writable s ea 64) :
    StopsUnwritten (storeBlock s ea w) s ea 64 := by
  have := storeWords_stops (s := s) (ea := ea) (ws := w.toList) (by simpa using h)
  simpa [storeBlock] using this

theorem wordsAt_of_writeWords {t : State} {m : Memory} {ea : Word} {w : Vector Word 16}
    (h : t.mem = m.writeWords ea w.toList) : WordsAt t ea w := by
  intro k
  rw [h, blockAddr, Memory.readWord_writeWords _ _ _ (by simp) _ (by simp)]
  simp

theorem sameMemoryOutside_of_writeWords {s t : State} {ea : Word} {w : Vector Word 16}
    (h : t.mem = s.mem.writeWords ea w.toList) : SameMemoryOutside ea 64 s t := by
  intro a ha
  rw [h]
  exact Memory.read_writeWords_other _ _ _ (by simpa using ha)

theorem sameMemoryOutside_of_writeWord {s t : State} {ea v : Word}
    (h : t.mem = s.mem.writeWord ea v) : SameMemoryOutside ea 4 s t := by
  intro a ha
  rw [h]
  exact Memory.read_writeWord_other _ _ _ ha

end Sys2Proof.Machine
end

