-- ==== Sys2Proof/Laws/Ops.lean ====
section
/-! SUPPORT. For each shared operation, once, everything it can answer with a next state. -/

namespace Sys2Proof.Machine

/-! ### Context save and restore -/

/-- The state a save of the kind leaves when the head CSA's link word is `link` (R141). -/
def savedState (upper : Bool) (link : Word) (s : State) : State :=
  (((s.setMem (s.mem.writeWords (csaEA (pointerOf s.fcx)) (contextWords upper s).toList)).setPcxi
    (Pcxi.make (Icr.ccpn s.icr) (Icr.ie s.icr) upper (pointerOf s.fcx))).setFcx
      (ofPointer (pointerOf (csfrFrom s .fcx link)))).setFcdDeferred
        (s.fcdDeferred || pointerOf s.fcx == pointerOf s.core.lcx)

/-- Everything a context save can answer with a next state. -/
theorem saveContext_eq_next {upper : Bool} {s t : State} :
    saveContext upper s = .next t ↔ CanSave s ∧
      ∃ link, s.mem.readWord (csaEA (pointerOf s.fcx)) = some link ∧ t = savedState upper link s := by
  simp only [saveContext, CanSave]
  split
  · rename_i h; simp [h]
  · rename_i h
    simp only [andThen_eq_next, loadWord_eq_next, storeBlock_eq_next, Host.Outcome.next.injEq]
    constructor
    · rintro ⟨link, ⟨hr, hl⟩, s', ⟨hw, rfl⟩, rfl⟩
      exact ⟨⟨h, hr, hw⟩, link, hl, rfl⟩
    · rintro ⟨⟨_, hr, hw⟩, link, hl, rfl⟩
      exact ⟨link, ⟨hr, hl⟩, _, ⟨hw, rfl⟩, rfl⟩

theorem saveContext_of_null {upper : Bool} {s : State} (h : pointerOf s.fcx = 0#20) :
    saveContext upper s = .fault .freeListUnderflow := by
  simp [saveContext, h]

/-- A save that can be made is made. -/
theorem saveContext_of_canSave (upper : Bool) {s : State} (h : CanSave s) :
    ∃ link, s.mem.readWord (csaEA (pointerOf s.fcx)) = some link ∧
      saveContext upper s = .next (savedState upper link s) :=
  have hl := readWord_of_readable h.2.1
  ⟨_, hl, saveContext_eq_next.2 ⟨h, _, hl, rfl⟩⟩

section
variable (upper : Bool) (link : Word) (s : State)
@[simp] theorem savedState_d : (savedState upper link s).d = s.d := rfl
@[simp] theorem savedState_a : (savedState upper link s).a = s.a := rfl
@[simp] theorem savedState_pc : (savedState upper link s).pc = s.pc := rfl
@[simp] theorem savedState_psw : (savedState upper link s).psw = s.psw := rfl
@[simp] theorem savedState_pcxi : (savedState upper link s).pcxi =
    Pcxi.make (Icr.ccpn s.icr) (Icr.ie s.icr) upper (pointerOf s.fcx) := rfl
@[simp] theorem savedState_fcx : (savedState upper link s).fcx =
    ofPointer (pointerOf (csfrFrom s .fcx link)) := rfl
@[simp] theorem savedState_icr : (savedState upper link s).icr = s.icr := rfl
@[simp] theorem savedState_core : (savedState upper link s).core = s.core := rfl
@[simp] theorem savedState_mem : (savedState upper link s).mem =
    s.mem.writeWords (csaEA (pointerOf s.fcx)) (contextWords upper s).toList := rfl
@[simp] theorem savedState_fcdDeferred : (savedState upper link s).fcdDeferred =
    (s.fcdDeferred || pointerOf s.fcx == pointerOf s.core.lcx) := rfl
@[simp] theorem savedState_isyncPending : (savedState upper link s).isyncPending = s.isyncPending := rfl
@[simp] theorem savedState_endinit : (savedState upper link s).endinit = s.endinit := rfl
@[simp] theorem savedState_safetyEndinit : (savedState upper link s).safetyEndinit = s.safetyEndinit := rfl
@[simp] theorem savedState_inputs : (savedState upper link s).inputs = s.inputs := rfl
@[simp] theorem savedState_acks : (savedState upper link s).acks = s.acks := rfl
@[simp] theorem savedState_platform : (savedState upper link s).platform = s.platform := rfl
@[simp] theorem savedState_freeCount : (savedState upper link s).freeCount = s.freeCount := rfl
end

/-- The state a restore that read the words `w` leaves, before the registers are assigned (R143). -/
def restoredState (w : Vector Word 16) (s : State) : State :=
  ((s.setMem (s.mem.writeWord (csaEA (Pcxi.pcx s.pcxi)) (csfrWord s .fcx))).setFcx
    (ofPointer (Pcxi.pcx s.pcxi))).setPcxi (csfrFrom s .pcxi w[0] &&& 0x3FFFFFFF#32)

/-- Everything a context restore can answer. -/
theorem restoreContext_eq_next {s t : State} {w : Vector Word 16} :
    restoreContext s = .next (w, t) ↔ Readable s (csaEA (Pcxi.pcx s.pcxi)) 64 ∧
      Writable s (csaEA (Pcxi.pcx s.pcxi)) 4 ∧ WordsAt s (csaEA (Pcxi.pcx s.pcxi)) w ∧
        t = restoredState w s := by
  simp only [restoreContext, andThen_eq_next, loadBlock_eq_next, storeWord_eq_next,
    Host.Outcome.next.injEq, Prod.mk.injEq]
  constructor
  · rintro ⟨w', ⟨hr, hw'⟩, s', ⟨hw, rfl⟩, rfl, rfl⟩
    exact ⟨hr, hw, hw', rfl⟩
  · rintro ⟨hr, hw, hw', rfl⟩
    exact ⟨w, ⟨hr, hw'⟩, _, ⟨hw, rfl⟩, rfl, rfl⟩

/-- Words that can be read are read. -/
theorem wordsAt_of_readable {s : State} {ea : Word} (h : Readable s ea 64) : ∃ w, WordsAt s ea w :=
  ⟨Vector.ofFn fun k => wordAt s (blockAddr ea k), fun k => by
    rw [readWord_of_readable (readable_block h k)]; simp⟩

/-- The words at an address are determined. -/
theorem wordsAt_unique {s : State} {ea : Word} {w w' : Vector Word 16} (h : WordsAt s ea w)
    (h' : WordsAt s ea w') : w = w' := by
  refine Vector.ext fun k hk => ?_
  have := (h ⟨k, hk⟩).symm.trans (h' ⟨k, hk⟩)
  simpa using this

section
variable (w : Vector Word 16) (s : State)
@[simp] theorem restoredState_d : (restoredState w s).d = s.d := rfl
@[simp] theorem restoredState_a : (restoredState w s).a = s.a := rfl
@[simp] theorem restoredState_pc : (restoredState w s).pc = s.pc := rfl
@[simp] theorem restoredState_psw : (restoredState w s).psw = s.psw := rfl
@[simp] theorem restoredState_pcxi : (restoredState w s).pcxi =
    csfrFrom s .pcxi w[0] &&& 0x3FFFFFFF#32 := rfl
@[simp] theorem restoredState_fcx : (restoredState w s).fcx = ofPointer (Pcxi.pcx s.pcxi) := rfl
@[simp] theorem restoredState_icr : (restoredState w s).icr = s.icr := rfl
@[simp] theorem restoredState_core : (restoredState w s).core = s.core := rfl
@[simp] theorem restoredState_mem :
    (restoredState w s).mem =
      s.mem.writeWord (csaEA (Pcxi.pcx s.pcxi)) (csfrWord s .fcx) := rfl
@[simp] theorem restoredState_fcdDeferred : (restoredState w s).fcdDeferred = s.fcdDeferred := rfl
@[simp] theorem restoredState_isyncPending : (restoredState w s).isyncPending = s.isyncPending := rfl
@[simp] theorem restoredState_endinit : (restoredState w s).endinit = s.endinit := rfl
@[simp] theorem restoredState_safetyEndinit : (restoredState w s).safetyEndinit = s.safetyEndinit := rfl
@[simp] theorem restoredState_inputs : (restoredState w s).inputs = s.inputs := rfl
@[simp] theorem restoredState_acks : (restoredState w s).acks = s.acks := rfl
@[simp] theorem restoredState_platform : (restoredState w s).platform = s.platform := rfl
@[simp] theorem restoredState_freeCount : (restoredState w s).freeCount = s.freeCount := rfl
end

/-! ### Register assignments: the fields they leave -/

section
variable (w : Vector Word 16) (s : State)
@[simp] theorem assignUpper_pc : (assignUpper w s).pc = s.pc := rfl
@[simp] theorem assignUpper_psw : (assignUpper w s).psw = s.psw := rfl
@[simp] theorem assignUpper_pcxi : (assignUpper w s).pcxi = s.pcxi := rfl
@[simp] theorem assignUpper_fcx : (assignUpper w s).fcx = s.fcx := rfl
@[simp] theorem assignUpper_icr : (assignUpper w s).icr = s.icr := rfl
@[simp] theorem assignUpper_core : (assignUpper w s).core = s.core := rfl
@[simp] theorem assignUpper_mem : (assignUpper w s).mem = s.mem := rfl
@[simp] theorem assignUpper_fcdDeferred : (assignUpper w s).fcdDeferred = s.fcdDeferred := rfl
@[simp] theorem assignUpper_isyncPending : (assignUpper w s).isyncPending = s.isyncPending := rfl
@[simp] theorem assignUpper_endinit : (assignUpper w s).endinit = s.endinit := rfl
@[simp] theorem assignUpper_safetyEndinit : (assignUpper w s).safetyEndinit = s.safetyEndinit := rfl
@[simp] theorem assignUpper_inputs : (assignUpper w s).inputs = s.inputs := rfl
@[simp] theorem assignUpper_acks : (assignUpper w s).acks = s.acks := rfl
@[simp] theorem assignUpper_platform : (assignUpper w s).platform = s.platform := rfl
@[simp] theorem assignUpper_freeCount : (assignUpper w s).freeCount = s.freeCount := rfl
@[simp] theorem assignLower_pc : (assignLower w s).pc = s.pc := rfl
@[simp] theorem assignLower_psw : (assignLower w s).psw = s.psw := rfl
@[simp] theorem assignLower_pcxi : (assignLower w s).pcxi = s.pcxi := rfl
@[simp] theorem assignLower_fcx : (assignLower w s).fcx = s.fcx := rfl
@[simp] theorem assignLower_icr : (assignLower w s).icr = s.icr := rfl
@[simp] theorem assignLower_core : (assignLower w s).core = s.core := rfl
@[simp] theorem assignLower_mem : (assignLower w s).mem = s.mem := rfl
@[simp] theorem assignLower_fcdDeferred : (assignLower w s).fcdDeferred = s.fcdDeferred := rfl
@[simp] theorem assignLower_isyncPending : (assignLower w s).isyncPending = s.isyncPending := rfl
@[simp] theorem assignLower_endinit : (assignLower w s).endinit = s.endinit := rfl
@[simp] theorem assignLower_safetyEndinit : (assignLower w s).safetyEndinit = s.safetyEndinit := rfl
@[simp] theorem assignLower_inputs : (assignLower w s).inputs = s.inputs := rfl
@[simp] theorem assignLower_acks : (assignLower w s).acks = s.acks := rfl
@[simp] theorem assignLower_platform : (assignLower w s).platform = s.platform := rfl
@[simp] theorem assignLower_freeCount : (assignLower w s).freeCount = s.freeCount := rfl
@[simp] theorem forgetUpper_pc : (forgetUpper s).pc = s.pc := rfl
@[simp] theorem forgetUpper_psw : (forgetUpper s).psw = s.psw := rfl
@[simp] theorem forgetUpper_pcxi : (forgetUpper s).pcxi = s.pcxi := rfl
@[simp] theorem forgetUpper_fcx : (forgetUpper s).fcx = s.fcx := rfl
@[simp] theorem forgetUpper_icr : (forgetUpper s).icr = s.icr := rfl
@[simp] theorem forgetUpper_core : (forgetUpper s).core = s.core := rfl
@[simp] theorem forgetUpper_mem : (forgetUpper s).mem = s.mem := rfl
@[simp] theorem forgetUpper_fcdDeferred : (forgetUpper s).fcdDeferred = s.fcdDeferred := rfl
@[simp] theorem forgetUpper_isyncPending : (forgetUpper s).isyncPending = s.isyncPending := rfl
@[simp] theorem forgetUpper_endinit : (forgetUpper s).endinit = s.endinit := rfl
@[simp] theorem forgetUpper_safetyEndinit : (forgetUpper s).safetyEndinit = s.safetyEndinit := rfl
@[simp] theorem forgetUpper_inputs : (forgetUpper s).inputs = s.inputs := rfl
@[simp] theorem forgetUpper_acks : (forgetUpper s).acks = s.acks := rfl
@[simp] theorem forgetUpper_platform : (forgetUpper s).platform = s.platform := rfl
@[simp] theorem forgetUpper_freeCount : (forgetUpper s).freeCount = s.freeCount + 12 := rfl
end

/-- `forgetUpper` leaves D[0] to D[7] alone. -/
theorem forgetUpper_d (s : State) (r : Fin 16) (h : r.val < 8) : (forgetUpper s).d[r] = s.d[r] := by
  obtain ⟨r, hr⟩ := r
  simp only at h
  interval_cases r <;> rfl

/-- `forgetUpper` leaves A[0] to A[11] alone. -/
theorem forgetUpper_a (s : State) (r : Fin 16) (h : r.val < 12) : (forgetUpper s).a[r] = s.a[r] := by
  obtain ⟨r, hr⟩ := r
  simp only at h
  interval_cases r <;> rfl

/-- `assignUpper` leaves D[0] to D[7] alone. -/
theorem assignUpper_d (w : Vector Word 16) (s : State) (r : Fin 16) (h : r.val < 8) :
    (assignUpper w s).d[r] = s.d[r] := by
  obtain ⟨r, hr⟩ := r
  simp only at h
  interval_cases r <;> rfl

/-- `assignUpper` leaves A[0] to A[9] alone. -/
theorem assignUpper_a (w : Vector Word 16) (s : State) (r : Fin 16) (h : r.val < 10) :
    (assignUpper w s).a[r] = s.a[r] := by
  obtain ⟨r, hr⟩ := r
  simp only at h
  interval_cases r <;> rfl

/-- `assignLower` leaves D[8] to D[15] alone. -/
theorem assignLower_d (w : Vector Word 16) (s : State) (r : Fin 16) (h : 8 ≤ r.val) :
    (assignLower w s).d[r] = s.d[r] := by
  obtain ⟨r, hr⟩ := r
  simp only at h
  interval_cases r <;> rfl

/-- `assignLower` leaves the address registers outside the lower context alone. -/
theorem assignLower_a (w : Vector Word 16) (s : State) (r : Fin 16)
    (h : r.val < 2 ∨ 8 ≤ r.val ∧ r.val ≠ 11) : (assignLower w s).a[r] = s.a[r] := by
  obtain ⟨r, hr⟩ := r
  simp only at h
  interval_cases r <;> first | rfl | omega

/-! ### One register -/

theorem writeD_d (s : State) (i r : Fin 16) (v : Word) :
    (s.writeD i v).d[r] = if r = i then v else s.d[r] := by
  simp only [State.writeD_d, Fin.getElem_fin, Vector.getElem_set]
  by_cases h : r = i
  · simp [h]
  · have : ¬ i.val = r.val := fun e => h (Fin.ext e.symm)
    simp [h, this]

theorem writeA_a (s : State) (i r : Fin 16) (v : Word) :
    (s.writeA i v).a[r] = if r = i then v else s.a[r] := by
  simp only [State.writeA_a, Fin.getElem_fin, Vector.getElem_set]
  by_cases h : r = i
  · simp [h]
  · have : ¬ i.val = r.val := fun e => h (Fin.ext e.symm)
    simp [h, this]

/-! ### Handler entry -/

section
variable (ret : Word) (safety : Bool) (s : State)

@[simp] theorem enterHandler_pc : (enterHandler ret safety s).pc = s.pc := by
  simp only [enterHandler]; split <;> rfl
@[simp] theorem enterHandler_psw : (enterHandler ret safety s).psw = entryPsw s.psw safety := by
  simp only [enterHandler]; split <;> rfl
@[simp] theorem enterHandler_pcxi : (enterHandler ret safety s).pcxi = s.pcxi := by
  simp only [enterHandler]; split <;> rfl
@[simp] theorem enterHandler_fcx : (enterHandler ret safety s).fcx = s.fcx := by
  simp only [enterHandler]; split <;> rfl
@[simp] theorem enterHandler_icr : (enterHandler ret safety s).icr = Icr.setIe s.icr false := by
  simp only [enterHandler]; split <;> rfl
@[simp] theorem enterHandler_core : (enterHandler ret safety s).core = s.core := by
  simp only [enterHandler]; split <;> rfl
@[simp] theorem enterHandler_mem : (enterHandler ret safety s).mem = s.mem := by
  simp only [enterHandler]; split <;> rfl
@[simp] theorem enterHandler_fcdDeferred : (enterHandler ret safety s).fcdDeferred = s.fcdDeferred := by
  simp only [enterHandler]; split <;> rfl
@[simp] theorem enterHandler_isyncPending : (enterHandler ret safety s).isyncPending = s.isyncPending := by
  simp only [enterHandler]; split <;> rfl
@[simp] theorem enterHandler_endinit : (enterHandler ret safety s).endinit = s.endinit := by
  simp only [enterHandler]; split <;> rfl
@[simp] theorem enterHandler_safetyEndinit :
    (enterHandler ret safety s).safetyEndinit = s.safetyEndinit := by
  simp only [enterHandler]; split <;> rfl
@[simp] theorem enterHandler_inputs : (enterHandler ret safety s).inputs = s.inputs := by
  simp only [enterHandler]; split <;> rfl
@[simp] theorem enterHandler_acks : (enterHandler ret safety s).acks = s.acks := by
  simp only [enterHandler]; split <;> rfl
@[simp] theorem enterHandler_platform : (enterHandler ret safety s).platform = s.platform := by
  simp only [enterHandler]; split <;> rfl
@[simp] theorem enterHandler_freeCount : (enterHandler ret safety s).freeCount = s.freeCount + 12 := by
  simp only [enterHandler]; split <;> rfl

theorem enterHandler_d (r : Fin 16) (h : r.val < 8) : (enterHandler ret safety s).d[r] = s.d[r] := by
  have e : (enterHandler ret safety s).d = (forgetUpper s).d := by
    simp only [enterHandler]; split <;> rfl
  rw [e, forgetUpper_d s r h]

theorem enterHandler_a (r : Fin 16) (h : r.val < 10) : (enterHandler ret safety s).a[r] = s.a[r] := by
  have h1 : r ≠ 11 := fun e => by subst e; revert h; decide
  have h2 : r ≠ 10 := fun e => by subst e; revert h; decide
  simp only [enterHandler]
  split <;>
    simp only [State.setIcr_a, State.setPsw_a, writeA_a, h1, h2, if_false, forgetUpper_a s r (by omega)]

theorem enterHandler_a11 : (enterHandler ret safety s).a[11] = ret := by
  simp only [enterHandler]; split <;> rfl

theorem enterHandler_a10 : (enterHandler ret safety s).a[10] =
    if Psw.is s.psw then s.a[10] else s.core.isp := by
  by_cases h : Psw.is s.psw = true
  · simp only [enterHandler, if_pos h]; rfl
  · simp only [enterHandler, if_neg h]; rfl
end

/-- Everything trap entry can answer with a next state. -/
theorem trapEntry_eq_next {t : Trap} {ret : Word} {s s' : State} :
    trapEntry t ret s = .next s' ↔ CanSave s ∧
      ∃ link, s.mem.readWord (csaEA (pointerOf s.fcx)) = some link ∧
        s' = ((enterHandler ret (Syscon.ts s.core.syscon) (savedState true link s)).writeD 15
          (t.tin.setWidth 32)).setPc (trapVector s.core.btv t.cls) := by
  simp only [trapEntry, andThen_eq_next, saveContext_eq_next, Host.Outcome.next.injEq]
  constructor
  · rintro ⟨_, ⟨hc, link, hl, rfl⟩, rfl⟩
    exact ⟨hc, link, hl, rfl⟩
  · rintro ⟨hc, link, hl, rfl⟩
    exact ⟨_, ⟨hc, link, hl, rfl⟩, rfl⟩

/-- Everything interrupt entry can answer with a next state. -/
theorem interruptEntry_eq_next {s s' : State} :
    interruptEntry s = .next s' ↔ CanSave s ∧
      ∃ link, s.mem.readWord (csaEA (pointerOf s.fcx)) = some link ∧
        s' = (((enterHandler s.pc (Syscon.is s.core.syscon) (savedState true link s)).setIcr
          (Icr.setCcpn (Icr.setIe s.icr false) (Icr.pipn s.icr))).setAcks
            (s.acks ++ [Icr.pipn s.icr])).setPc (interruptVector s.core.biv (Icr.pipn s.icr)) := by
  simp only [interruptEntry, andThen_eq_next, saveContext_eq_next, Host.Outcome.next.injEq]
  constructor
  · rintro ⟨_, ⟨hc, link, hl, rfl⟩, rfl⟩
    exact ⟨hc, link, hl, by simp⟩
  · rintro ⟨hc, link, hl, rfl⟩
    exact ⟨_, ⟨hc, link, hl, rfl⟩, by simp⟩

theorem trapEntry_of_null {t : Trap} {ret : Word} {s : State} (h : pointerOf s.fcx = 0#20) :
    trapEntry t ret s = .fault .freeListUnderflow := by
  simp [trapEntry, saveContext_of_null h]

/-! ### Calls and returns -/

/-- Everything a call can answer with a next state: the CDO trap, or the call. -/
theorem callTo_eq_next {target len : Word} {s s' : State} :
    callTo target len s = .next s' ↔
      ((Psw.cde s.psw && cdcIncOverflows (Psw.cdc s.psw)) = true ∧ raiseTrap .cdo s = .next s') ∨
      ((Psw.cde s.psw && cdcIncOverflows (Psw.cdc s.psw)) = false ∧ CanSave s ∧
        ∃ link, s.mem.readWord (csaEA (pointerOf s.fcx)) = some link ∧
          s' = (((forgetUpper (savedState true link s)).setPsw (callPsw s.psw)).writeA 11
            (s.pc + len)).setPc target) := by
  simp only [callTo]
  split
  · rename_i h
    simp [CanSave, h, raiseTrap, trapEntry_of_null h]
  · split
    · rename_i h; simp [h]
    · rename_i h
      simp only [Bool.not_eq_true] at h
      simp only [h, true_and, Bool.false_eq_true, false_and, false_or, andThen_eq_next,
        saveContext_eq_next, Host.Outcome.next.injEq]
      constructor
      · rintro ⟨_, ⟨hc, link, hl, rfl⟩, rfl⟩
        exact ⟨hc, link, hl, rfl⟩
      · rintro ⟨hc, link, hl, rfl⟩
        exact ⟨_, ⟨hc, link, hl, rfl⟩, rfl⟩

/-- The state RET leaves when it restored the words `w`. -/
def returnedState (w : Vector Word 16) (s : State) : State :=
  ((assignUpper w (restoredState w s)).setPsw (retPsw s.platform.retRestoresRm s.psw
    (csfrFrom s .psw w[1]))).setPc (regTarget s.a[11])

/-- Everything RET can answer with a next state: one of three traps, or the return. -/
theorem returnFromCall_eq_next {s s' : State} :
    returnFromCall s = .next s' ↔
      ((Psw.cde s.psw && cdcDecUnderflows (Psw.cdc s.psw)) = true ∧ raiseTrap .cdu s = .next s') ∨
      ((Psw.cde s.psw && cdcDecUnderflows (Psw.cdc s.psw)) = false ∧
        ((Pcxi.pcx s.pcxi = 0#20 ∧ raiseTrap .csu s = .next s') ∨
         (Pcxi.pcx s.pcxi ≠ 0#20 ∧ Pcxi.ul s.pcxi = false ∧ raiseTrap .ctyp s = .next s') ∨
         (CanRestore true s ∧ ∃ w, WordsAt s (csaEA (Pcxi.pcx s.pcxi)) w ∧ s' = returnedState w s))) := by
  simp only [returnFromCall, CanRestore]
  split
  · rename_i h; simp [h]
  · rename_i h
    simp only [Bool.not_eq_true] at h
    simp only [h, Bool.false_eq_true, false_and, true_and, false_or]
    split
    · rename_i h1; simp [h1]
    · rename_i h1
      split
      · rename_i h2; simp [h1, h2]
      · rename_i h2
        simp only [Bool.not_eq_false] at h2
        simp only [h1, h2, not_false_eq_true, true_and, Bool.true_eq_false, false_and, and_false, false_or,
          ne_eq, andThen_eq_next, Prod.exists, restoreContext_eq_next, Host.Outcome.next.injEq]
        constructor
        · rintro ⟨w, _, ⟨hr, hw, hwa, rfl⟩, rfl⟩
          exact ⟨⟨hr, hw⟩, w, hwa, rfl⟩
        · rintro ⟨⟨hr, hw⟩, w, hwa, rfl⟩
          exact ⟨w, _, ⟨hr, hw, hwa, rfl⟩, rfl⟩

/-- The state RFE leaves when it restored the words `w`. -/
def resumedState (w : Vector Word 16) (s : State) : State :=
  (((assignUpper w (restoredState w s)).setPsw (rfePsw (csfrFrom s .psw w[1]))).setIcr
    (Icr.setCcpn (Icr.setIe s.icr (Pcxi.pie s.pcxi)) (Pcxi.pcpn s.pcxi))).setPc (regTarget s.a[11])

/-- Everything RFE can answer with a next state: one of three traps, or the return. -/
theorem returnFromException_eq_next {s s' : State} :
    returnFromException s = .next s' ↔
      (Pcxi.pcx s.pcxi = 0#20 ∧ raiseTrap .csu s = .next s') ∨
      (Pcxi.pcx s.pcxi ≠ 0#20 ∧ Pcxi.ul s.pcxi = false ∧ raiseTrap .ctyp s = .next s') ∨
      (Pcxi.pcx s.pcxi ≠ 0#20 ∧ Pcxi.ul s.pcxi = true ∧
        (Psw.cde s.psw && !cdcZero (Psw.cdc s.psw)) = true ∧ raiseTrap .nest s = .next s') ∨
      ((Psw.cde s.psw && !cdcZero (Psw.cdc s.psw)) = false ∧ CanRestore true s ∧
        ∃ w, WordsAt s (csaEA (Pcxi.pcx s.pcxi)) w ∧ s' = resumedState w s) := by
  simp only [returnFromException, CanRestore]
  split
  · rename_i h1; simp [h1]
  · rename_i h1
    split
    · rename_i h2; simp [h1, h2]
    · rename_i h2
      simp only [Bool.not_eq_false] at h2
      split
      · rename_i h; simp [h, h1, h2]
      · rename_i h
        simp only [Bool.not_eq_true] at h
        simp only [h, h1, h2, not_false_eq_true, true_and, Bool.true_eq_false, Bool.false_eq_true, false_and,
          and_false, false_or, ne_eq, andThen_eq_next, Prod.exists, restoreContext_eq_next,
          Host.Outcome.next.injEq]
        constructor
        · rintro ⟨w, _, ⟨hr, hw, hwa, rfl⟩, rfl⟩
          exact ⟨⟨hr, hw⟩, w, hwa, rfl⟩
        · rintro ⟨⟨hr, hw⟩, w, hwa, rfl⟩
          exact ⟨w, _, ⟨hr, hw, hwa, rfl⟩, rfl⟩

/-- Everything RSLCX can answer with a next state: one of two traps, or the restore. -/
theorem execRslcx_eq_next {s s' : State} :
    execRslcx s = .next s' ↔
      (Pcxi.pcx s.pcxi = 0#20 ∧ raiseTrap .csu s = .next s') ∨
      (Pcxi.pcx s.pcxi ≠ 0#20 ∧ Pcxi.ul s.pcxi = true ∧ raiseTrap .ctyp s = .next s') ∨
      (CanRestore false s ∧ ∃ w, WordsAt s (csaEA (Pcxi.pcx s.pcxi)) w ∧
        s' = advance 4#32 (assignLower w (restoredState w s))) := by
  simp only [execRslcx, CanRestore]
  split
  · rename_i h1; simp [h1]
  · rename_i h1
    split
    · rename_i h2; simp [h1, h2]
    · rename_i h2
      simp only [Bool.not_eq_true] at h2
      simp only [h1, h2, not_false_eq_true, true_and, Bool.false_eq_true, false_and, and_false, false_or,
        ne_eq, andThen_eq_next, Prod.exists, restoreContext_eq_next, Host.Outcome.next.injEq]
      constructor
      · rintro ⟨w, _, ⟨hr, hw, hwa, rfl⟩, rfl⟩
        exact ⟨⟨hr, hw⟩, w, hwa, rfl⟩
      · rintro ⟨⟨hr, hw⟩, w, hwa, rfl⟩
        exact ⟨w, _, ⟨hr, hw, hwa, rfl⟩, rfl⟩

/-- Everything SVLCX can answer with a next state. -/
theorem execSvlcx_eq_next {s s' : State} :
    execSvlcx s = .next s' ↔ CanSave s ∧
      ∃ link, s.mem.readWord (csaEA (pointerOf s.fcx)) = some link ∧
        s' = advance 4#32 (savedState false link s) := by
  simp only [execSvlcx, andThen_eq_next, saveContext_eq_next, Host.Outcome.next.injEq]
  constructor
  · rintro ⟨_, ⟨hc, link, hl, rfl⟩, rfl⟩
    exact ⟨hc, link, hl, rfl⟩
  · rintro ⟨hc, link, hl, rfl⟩
    exact ⟨_, ⟨hc, link, hl, rfl⟩, rfl⟩

/-- Everything BISR can answer with a next state: the PRIV trap, or the save with ICR changed. -/
theorem beginIsr_eq_next {p : BitVec 8} {len : Word} {s s' : State} :
    beginIsr p len s = .next s' ↔
      (supervisor s = false ∧ raiseTrap .priv s = .next s') ∨
      (supervisor s = true ∧ CanSave s ∧
        ∃ link, s.mem.readWord (csaEA (pointerOf s.fcx)) = some link ∧
          s' = advance len ((savedState false link s).setIcr
            (Icr.setCcpn (Icr.setIe s.icr true) p))) := by
  simp only [beginIsr]
  split
  · rename_i h
    simp only [h, Bool.true_eq_false, false_and, false_or, true_and, andThen_eq_next, saveContext_eq_next,
      Host.Outcome.next.injEq]
    constructor
    · rintro ⟨_, ⟨hc, link, hl, rfl⟩, rfl⟩
      exact ⟨hc, link, hl, by rw [savedState_icr]⟩
    · rintro ⟨hc, link, hl, rfl⟩
      exact ⟨_, ⟨hc, link, hl, rfl⟩, by rw [savedState_icr]⟩
  · rename_i h; simp [h]

/-! ### Fast calls, stores and loads -/

/-- Everything a fast call can answer with a next state. -/
theorem fastCallTo_eq_next {target : Word} {s s' : State} :
    fastCallTo target s = .next s' ↔ wordAligned s.a[10] = true ∧ Writable s (fastCallSlot s) 4 ∧
      s' = (((s.setMem (s.mem.writeWord (fastCallSlot s) s.a[11])).writeA 11 (s.pc + 4#32)).writeA 10
        (fastCallSlot s)).setPc target := by
  simp only [fastCallTo]
  split
  · rename_i h
    simp only [h, true_and, andThen_eq_next, storeWord_eq_next, Host.Outcome.next.injEq]
    constructor
    · rintro ⟨_, ⟨hw, rfl⟩, rfl⟩
      exact ⟨hw, rfl⟩
    · rintro ⟨hw, rfl⟩
      exact ⟨_, ⟨hw, rfl⟩, rfl⟩
  · rename_i h; simp [h]

/-- Everything a fast return can answer with a next state. -/
theorem fastReturn_eq_next {s s' : State} :
    fastReturn s = .next s' ↔ wordAligned s.a[10] = true ∧ Readable s s.a[10] 4 ∧
      ∃ ra, s.mem.readWord s.a[10] = some ra ∧
        s' = ((s.writeA 11 ra).writeA 10 (s.a[10] + 4#32)).setPc (regTarget s.a[11]) := by
  simp only [fastReturn]
  split
  · rename_i h
    simp only [h, true_and, andThen_eq_next, loadWord_eq_next, Host.Outcome.next.injEq]
    constructor
    · rintro ⟨ra, ⟨hr, hra⟩, rfl⟩
      exact ⟨hr, ra, hra, rfl⟩
    · rintro ⟨hr, ra, hra, rfl⟩
      exact ⟨ra, ⟨hr, hra⟩, rfl⟩
  · rename_i h; simp [h]

/-- Everything a context store can answer with a next state. -/
theorem storeContext_eq_next {form : AlignedForm} {upper : Bool} {ea : Word} {s s' : State} :
    storeContext form upper ea s = .next s' ↔ blockAligned ea = true ∧ Writable s ea 64 ∧
      s' = advance 4#32 (s.setMem (s.mem.writeWords ea (contextWords upper s).toList)) := by
  simp only [storeContext]
  split
  · rename_i h
    simp only [h, true_and, andThen_eq_next, storeBlock_eq_next, Host.Outcome.next.injEq]
    constructor
    · rintro ⟨_, ⟨hw, rfl⟩, rfl⟩
      exact ⟨hw, rfl⟩
    · rintro ⟨hw, rfl⟩
      exact ⟨_, ⟨hw, rfl⟩, rfl⟩
  · rename_i h; simp [h]

/-- Everything a context load can answer with a next state. -/
theorem loadContext_eq_next {form : AlignedForm} {upper : Bool} {ea : Word} {s s' : State} :
    loadContext form upper ea s = .next s' ↔ blockAligned ea = true ∧ Readable s ea 64 ∧
      ∃ w, WordsAt s ea w ∧
        s' = advance 4#32 (if upper then assignUpper w s else assignLower w s) := by
  simp only [loadContext]
  split
  · rename_i h
    simp only [h, true_and, andThen_eq_next, loadBlock_eq_next, Host.Outcome.next.injEq]
    constructor
    · rintro ⟨w, ⟨hr, hw⟩, rfl⟩
      exact ⟨hr, w, hw, rfl⟩
    · rintro ⟨hr, w, hw, rfl⟩
      exact ⟨w, ⟨hr, hw⟩, rfl⟩
  · rename_i h; simp [h]

/-! ### Core registers -/

/-- Everything MTCR can answer with a next state: the PRIV trap, or the write. -/
theorem execMtcr_eq_next {addr : BitVec 16} {a : Nat} {s s' : State} :
    execMtcr addr a s = .next s' ↔
      (supervisor s = false ∧ raiseTrap .priv s = .next s') ∨
      (supervisor s = true ∧ ∃ r mask, csfrOfAddr s addr = some r ∧ csfrWriteMask r = some mask ∧
        (endinitProtects r && s.endinit) = false ∧ (safetyEndinitProtects r && s.safetyEndinit) = false ∧
        ¬ (r = .psw ∧ Psw.io (csfrFrom s r (readD s a)) = Io.reserved) ∧
        s' = advance 4#32 ((setCsfr s r (maskedWrite mask (csfrValue s r)
          (csfrFrom s r (readD s a)))).setIsyncPending true)) := by
  simp only [execMtcr]
  split
  · rename_i h
    simp only [h, Bool.true_eq_false, false_and, false_or, true_and]
    split
    · rename_i h1; simp [h1]
    · rename_i r h1
      split
      · rename_i h2; simp [h1, h2]
      · rename_i mask h2
        split
        · rename_i h3
          constructor
          · intro h; cases h
          · intro h
            obtain ⟨r', _, e, _, h3', _⟩ := h
            rw [h1, Option.some.injEq] at e
            rw [← e, h3] at h3'
            cases h3'
        · rename_i h3
          split
          · rename_i h4
            constructor
            · intro h; cases h
            · intro h
              obtain ⟨r', _, e, _, _, h4', _⟩ := h
              rw [h1, Option.some.injEq] at e
              rw [← e, h4] at h4'
              cases h4'
          · rename_i h4
            simp only [Bool.not_eq_true] at h3 h4
            simp only [writeCoreRegister]
            split
            · rename_i h5
              obtain ⟨rfl, h5⟩ := h5
              simp [h1, h2, h5]
            · rename_i h5
              simp only [h1, Option.some.injEq, Host.Outcome.next.injEq]
              constructor
              · rintro rfl
                exact ⟨r, mask, rfl, h2, h3, h4, h5, rfl⟩
              · rintro ⟨r', mask', rfl, h2', _, _, _, rfl⟩
                rw [h2] at h2'
                cases h2'
                rfl
  · rename_i h; simp [h]

/-- Everything MFCR can answer with a next state. -/
theorem execMfcr_eq_next {c : Nat} {addr : BitVec 16} {s s' : State} :
    execMfcr c addr s = .next s' ↔ ∃ r, csfrOfAddr s addr = some r ∧
      s' = advance 4#32 (s.writeD (regIndex c) (readCsfr s r)) := by
  simp only [execMfcr]
  split <;> rename_i h <;> simp [h, eq_comm]

/-! ### The fetch -/

/-- Everything `fetchHalf` can answer with bytes. -/
theorem fetchHalf_eq_next {s : State} {ea : Word} {bytes : List Byte} :
    fetchHalf s ea = .next bytes ↔ Readable s ea 2 ∧ (∀ a ∈ span ea 2, isText s a = true) ∧
      bytes = [byteAt s ea, byteAt s (ea + 1#32)] := by
  simp only [fetchHalf]
  split
  · rename_i h
    have : ¬ Readable s ea 2 := by rw [← readStops_eq_none (k := .fetch), h]; simp
    simp [this]
  · rename_i h
    simp only [readStops_eq_none.1 h, true_and]
    split
    · rename_i a ha
      have hm := List.mem_of_find?_eq_some ha
      have ht := List.find?_some ha
      have : ¬ ∀ a ∈ span ea 2, isText s a = true := fun hc => by simp [hc a hm] at ht
      simp [this]
    · rename_i ha
      rw [List.find?_eq_none] at ha
      have : ∀ a ∈ span ea 2, isText s a = true := fun a hm => by simpa using ha a hm
      rw [Host.Outcome.next.injEq, and_iff_right this, eq_comm]

/-- A halfword that cannot be read is a fault of the fetch. -/
theorem fetchHalf_stops {s : State} {ea : Word} (h : ¬ Readable s ea 2) :
    StopsUnread (fetchHalf s ea) .fetch s ea 2 := by
  obtain ⟨r, hr, hs⟩ := readStops_of_not_readable .fetch h
  simpa only [fetchHalf, hr] using hs (List Byte)

/-- A halfword that is not all program text is refused. -/
theorem fetchHalf_notText {s : State} {ea : Word} (h : Readable s ea 2)
    (ht : ∃ a ∈ span ea 2, isText s a = false) :
    ∃ a ∈ span ea 2, isText s a = false ∧ fetchHalf s ea = .refused (.notProgramText a) := by
  cases e : (span ea 2).find? fun a => !isText s a with
  | none =>
    obtain ⟨a, ha, hf⟩ := ht
    rw [List.find?_eq_none] at e
    have := e a ha
    simp [hf] at this
  | some a =>
    refine ⟨a, List.mem_of_find?_eq_some e, by simpa using List.find?_some e, ?_⟩
    simp only [fetchHalf, (readStops_eq_none (k := .fetch)).2 h, e]

/-! ### The step -/

/-- Everything a step can answer with a next state: the FCD trap, an interrupt entry, or an instruction. -/
theorem coreStep_eq_next {s s' : State} :
    coreStep s = .next s' ↔ reservedMode s = false ∧
      ((s.fcdDeferred = true ∧ takeDeferredFcd s = .next s') ∨
       (s.fcdDeferred = false ∧ interruptTaken s = true ∧ interruptEntry s = .next s') ∨
       (s.fcdDeferred = false ∧ interruptTaken s = false ∧
         ∃ i, fetch s = .next i ∧ awaitsIsync i s = false ∧ exec i s = .next s')) := by
  simp only [coreStep]
  split
  · rename_i h; simp [h]
  · rename_i h
    simp only [Bool.not_eq_true] at h
    simp only [h, true_and]
    split
    · rename_i h1; simp [h1]
    · rename_i h1
      simp only [Bool.not_eq_true] at h1
      simp only [h1, Bool.false_eq_true, false_and, true_and, false_or]
      split
      · rename_i h2; simp [h2]
      · rename_i h2
        simp only [Bool.not_eq_true] at h2
        simp only [h2, Bool.false_eq_true, false_and, true_and, false_or, andThen_eq_next]
        refine exists_congr fun i => and_congr_right fun _ => ?_
        cases hi : awaitsIsync i s <;> simp

end Sys2Proof.Machine
end

