-- ==== Sys2Proof/Laws/Effects.lean ====
section
/-! SUPPORT. What the shared operations leave, in the terms of Sys2Proof/Safety.lean. -/

namespace Sys2Proof.Machine

/-! ### Memory around a stored block -/

theorem span_mono {ea b : Word} {n m : Nat} (h : n ≤ m) (hb : b ∈ span ea n) : b ∈ span ea m := by
  obtain ⟨i, hi, rfl⟩ := mem_span.1 hb
  exact mem_span.2 ⟨i, by omega, rfl⟩

theorem Readable.mono {s : State} {ea : Word} {n m : Nat} (h : n ≤ m) (hr : Readable s ea m) :
    Readable s ea n := fun a ha => hr a (span_mono h ha)

theorem Writable.mono {s : State} {ea : Word} {n m : Nat} (h : n ≤ m) (hr : Writable s ea m) :
    Writable s ea n := fun a ha => hr a (span_mono h ha)

theorem SameMemoryOutside.trans {s t u : State} {ea : Word} {n m : Nat} (hn : n ≤ m)
    (h1 : SameMemoryOutside ea m s t) (h2 : SameMemoryOutside ea n t u) : SameMemoryOutside ea m s u :=
  fun a ha => (h2 a fun b hb => ha b (span_mono hn hb)).trans (h1 a ha)

/-- A word that reads has a value in each of its bytes. -/
theorem Memory.read_of_readWord {m : Memory} {ea w : Word} (h : m.readWord ea = some w) (i : Nat) (hi : i < 4) :
    (m.read (ea + BitVec.ofNat 32 i).toNat).isSome = true := by
  simp only [Memory.readWord] at h
  split at h
  · rename_i h0 h1 h2 h3
    interval_cases i
    · simp [h0]
    · exact h1 ▸ rfl
    · exact h2 ▸ rfl
    · exact h3 ▸ rfl
  · cases h

/-- Words that stand in backed memory can be read. -/
theorem readable_of_wordsAt {t : State} {ea : Word} {w : Vector Word 16} (h : WordsAt t ea w)
    (hb : ∀ a ∈ span ea 64, backed t a = true) : Readable t ea 64 := by
  intro a ha
  refine ⟨hb a ha, ?_⟩
  obtain ⟨i, hi, rfl⟩ := mem_span.1 ha
  have := Memory.read_of_readWord (h ⟨i / 4, by omega⟩) (i % 4) (by omega)
  have e : blockAddr ea ⟨i / 4, by omega⟩ + BitVec.ofNat 32 (i % 4) = ea + BitVec.ofNat 32 i := by
    simp only [blockAddr]
    rw [BitVec.add_assoc, ← BitVec.ofNat_add]
    congr 2
    omega
  rwa [e] at this

/-- Word 0 of either context is PCXI's. -/
@[simp] theorem contextWords_zero (upper : Bool) (s : State) : (contextWords upper s)[0] = csfrWord s .pcxi := by
  cases upper <;> rfl

/-- Word 1 of an upper context is PSW's. -/
@[simp] theorem upperWords_one (s : State) : (upperWords s)[1] = csfrWord s .psw := rfl

/-- The words of a context stand in the order of 20_memory.md R85 or R86. -/
theorem contextImage_of_wordsAt {s t : State} {upper : Bool} {ea : Word}
    (h : WordsAt t ea (contextWords upper s)) : ContextImage upper t.mem ea s := by
  have h0 : t.mem.readWord ea = some (contextWords upper s)[0] := by simpa [blockAddr] using h 0
  constructor <;> rintro rfl
  · exact ⟨h0, h 1, h 2, h 3, h 4, h 5, h 6, h 7, h 8, h 9, h 10, h 11, h 12, h 13, h 14, h 15⟩
  · exact ⟨h0, h 1, h 2, h 3, h 4, h 5, h 6, h 7, h 8, h 9, h 10, h 11, h 12, h 13, h 14, h 15⟩

/-! ### Save and restore -/

/-- After a save, and after anything that leaves memory, PCXI, FCX and the FCD flag as the save did. -/
theorem saved_of_savedState {upper : Bool} {link : Word} {s t : State}
    (hl : s.mem.readWord (csaEA (pointerOf s.fcx)) = some link)
    (hm : t.mem = (savedState upper link s).mem) (hp : t.pcxi = (savedState upper link s).pcxi)
    (hf : t.fcx = (savedState upper link s).fcx) (hd : t.fcdDeferred = (savedState upper link s).fcdDeferred) :
    Saved upper s t where
  words := contextImage_of_wordsAt (wordsAt_of_writeWords (by rw [hm]; rfl))
  memory := sameMemoryOutside_of_writeWords (by rw [hm]; rfl)
  pcxi := hp
  fcx := ⟨link, hl, hf⟩
  fcd := hd

/-- After a restore, and after anything that leaves memory, PCXI, FCX and the FCD flag as the restore did. -/
theorem restored_of_restoredState {w : Vector Word 16} {s t : State}
    (hw : WordsAt s (csaEA (Pcxi.pcx s.pcxi)) w)
    (hm : t.mem = (restoredState w s).mem) (hp : t.pcxi = (restoredState w s).pcxi)
    (hf : t.fcx = (restoredState w s).fcx) (hd : t.fcdDeferred = (restoredState w s).fcdDeferred) :
    Restored w s t where
  words := hw
  link := by rw [hm]; exact Memory.readWord_writeWord_same _ _ _
  memory := sameMemoryOutside_of_writeWord (by rw [hm]; rfl)
  fcx := hf
  pcxi := hp
  fcd := hd

/-- After an upper context's registers are assigned. -/
theorem upperFrom_of_assignUpper {w : Vector Word 16} {s r t : State} (hd : t.d = (assignUpper w r).d)
    (ha : t.a = (assignUpper w r).a) (hrd : r.d = s.d) (hra : r.a = s.a) : UpperFrom w s t where
  a10 := by rw [ha]; rfl
  a11 := by rw [ha]; rfl
  d8 := by rw [hd]; rfl
  d9 := by rw [hd]; rfl
  d10 := by rw [hd]; rfl
  d11 := by rw [hd]; rfl
  a12 := by rw [ha]; rfl
  a13 := by rw [ha]; rfl
  a14 := by rw [ha]; rfl
  a15 := by rw [ha]; rfl
  d12 := by rw [hd]; rfl
  d13 := by rw [hd]; rfl
  d14 := by rw [hd]; rfl
  d15 := by rw [hd]; rfl
  dataKept := by
    intro q hq
    have h : q.val < 8 := by revert hq; revert q; decide
    rw [hd, assignUpper_d w r q h, hrd]
  addressKept := by
    intro q hq
    have h : q.val < 10 := by revert hq; revert q; decide
    rw [ha, assignUpper_a w r q h, hra]

/-- After a lower context's registers are assigned. -/
theorem lowerFrom_of_assignLower {w : Vector Word 16} {s r t : State} (hd : t.d = (assignLower w r).d)
    (ha : t.a = (assignLower w r).a) (hrd : r.d = s.d) (hra : r.a = s.a) : LowerFrom w s t where
  a11 := by rw [ha]; rfl
  a2 := by rw [ha]; rfl
  a3 := by rw [ha]; rfl
  d0 := by rw [hd]; rfl
  d1 := by rw [hd]; rfl
  d2 := by rw [hd]; rfl
  d3 := by rw [hd]; rfl
  a4 := by rw [ha]; rfl
  a5 := by rw [ha]; rfl
  a6 := by rw [ha]; rfl
  a7 := by rw [ha]; rfl
  d4 := by rw [hd]; rfl
  d5 := by rw [hd]; rfl
  d6 := by rw [hd]; rfl
  d7 := by rw [hd]; rfl
  dataKept := by
    intro q hq
    have h : 8 ≤ q.val := by revert hq; revert q; decide
    rw [hd, assignLower_d w r q h, hrd]
  addressKept := by
    intro q hq
    have h : q.val < 2 ∨ 8 ≤ q.val ∧ q.val ≠ 11 := by revert hq; revert q; decide
    rw [ha, assignLower_a w r q h, hra]

/-- Assigning the words of a state's own upper context to a state that agrees with it elsewhere gives its
general registers back. -/
theorem assignUpper_upperWords {s r : State} (hd : ∀ q : Fin 16, q.val < 8 → r.d[q] = s.d[q])
    (ha : ∀ q : Fin 16, q.val < 10 → r.a[q] = s.a[q]) :
    (assignUpper (upperWords s) r).d = s.d ∧ (assignUpper (upperWords s) r).a = s.a := by
  constructor
  · refine Vector.ext fun k hk => ?_
    by_cases h : k < 8
    · exact (assignUpper_d _ r ⟨k, hk⟩ h).trans (hd ⟨k, hk⟩ h)
    · interval_cases k <;> first | omega | rfl
  · refine Vector.ext fun k hk => ?_
    by_cases h : k < 10
    · exact (assignUpper_a _ r ⟨k, hk⟩ h).trans (ha ⟨k, hk⟩ h)
    · interval_cases k <;> first | omega | rfl

/-- As `assignUpper_upperWords`, for the lower context. -/
theorem assignLower_lowerWords {s r : State} (hd : ∀ q : Fin 16, 8 ≤ q.val → r.d[q] = s.d[q])
    (ha : ∀ q : Fin 16, (q.val < 2 ∨ 8 ≤ q.val ∧ q.val ≠ 11) → r.a[q] = s.a[q]) :
    (assignLower (lowerWords s) r).d = s.d ∧ (assignLower (lowerWords s) r).a = s.a := by
  constructor
  · refine Vector.ext fun k hk => ?_
    by_cases h : 8 ≤ k
    · exact (assignLower_d _ r ⟨k, hk⟩ h).trans (hd ⟨k, hk⟩ h)
    · interval_cases k <;> first | omega | rfl
  · refine Vector.ext fun k hk => ?_
    by_cases h : k < 2 ∨ 8 ≤ k ∧ k ≠ 11
    · exact (assignLower_a _ r ⟨k, hk⟩ h).trans (ha ⟨k, hk⟩ h)
    · interval_cases k <;> first | omega | rfl

end Sys2Proof.Machine
end

