-- ==== Sys2Proof/Laws/Encoding.lean ====
section
/-! SUPPORT. The encoding formats: each field of a format's word, and each word from its fields. -/

namespace Sys2Proof

/-- A halfword from its bytes. -/
theorem half_joined (v : Half) : v.extractLsb' 8 8 ++ v.extractLsb' 0 8 = v := by
  apply BitVec.eq_of_getLsbD_eq
  intro i hi
  simp only [BitVec.getLsbD_append, BitVec.getLsbD_extractLsb']
  interval_cases i <;> simp

/-- A word from its bytes. -/
theorem word_joined (v : Word) :
    v.extractLsb' 24 8 ++ v.extractLsb' 16 8 ++ v.extractLsb' 8 8 ++ v.extractLsb' 0 8 = v := by
  apply BitVec.eq_of_getLsbD_eq
  intro i hi
  simp only [BitVec.getLsbD_append, BitVec.getLsbD_extractLsb']
  interval_cases i <;> simp

theorem decode_long (w : Word) (rest : List Byte) (h : isLong (w.extractLsb' 0 8) = true) :
    decode ((Code.long w).bytes ++ rest) = (decode32 w).map (fun i => (i, rest)) := by
  simp only [Code.bytes, List.cons_append, List.nil_append, decode, h, if_true, word_joined]
  cases decode32 w <;> rfl

theorem decode_short (w : Half) (rest : List Byte) (h : isLong (w.extractLsb' 0 8) = false) :
    decode ((Code.short w).bytes ++ rest) = (decode16 w).map (fun i => (i, rest)) := by
  simp only [Code.bytes, List.cons_append, List.nil_append, decode, h, Bool.false_eq_true, if_false,
    half_joined]
  cases decode16 w <;> rfl

/-- A register number survives its field (R115). -/
theorem regBits_toNat {n : Nat} (h : n < 16) : (regBits n).toNat = n := by
  simp [regBits]
  omega

theorem regBits_regField (w : Word) (lo : Nat) : regBits (regField w lo) = w.extractLsb' lo 4 := by
  rw [regBits, regField, BitVec.ofNat_toNat, BitVec.setWidth_eq]

theorem regNumberOk_regField (w : Word) (lo : Nat) : regNumberOk (regField w lo) = true :=
  decide_eq_true (by simpa [regField] using (w.extractLsb' lo 4).isLt)

theorem whenUnusedZero_eq_ok {z : Bool} {m : String} {i j : Instr} :
    whenUnusedZero z m i = .ok j ↔ z = true ∧ i = j := by
  cases z <;> simp [whenUnusedZero]

/-! ### The fields of a format -/

@[simp] theorem formatB_op1 (op : Byte) (d : BitVec 24) :
    (formatB op d).extractLsb' 0 8 = op := by
  apply BitVec.eq_of_getLsbD_eq
  intro i hi
  simp only [formatB, BitVec.getLsbD_append, BitVec.getLsbD_extractLsb']
  interval_cases i <;> simp

@[simp] theorem dispOfB_formatB (op : Byte) (d : BitVec 24) :
    dispOfB (formatB op d) = d := by
  apply BitVec.eq_of_getLsbD_eq
  intro i hi
  simp only [dispOfB, formatB, BitVec.getLsbD_append, BitVec.getLsbD_extractLsb']
  interval_cases i <;> simp

@[simp] theorem formatRr_op1 (op : Byte) (a : BitVec 4) :
    (formatRr op a).extractLsb' 0 8 = 0x2D#8 := by
  apply BitVec.eq_of_getLsbD_eq
  intro i hi
  simp only [formatRr, BitVec.getLsbD_append, BitVec.getLsbD_extractLsb']
  interval_cases i <;> simp

@[simp] theorem formatRr_op2 (op : Byte) (a : BitVec 4) :
    (formatRr op a).extractLsb' 20 8 = op := by
  apply BitVec.eq_of_getLsbD_eq
  intro i hi
  simp only [formatRr, BitVec.getLsbD_append, BitVec.getLsbD_extractLsb']
  interval_cases i <;> simp

@[simp] theorem formatRr_c (op : Byte) (a : BitVec 4) :
    (formatRr op a).extractLsb' 28 4 = 0#4 := by
  apply BitVec.eq_of_getLsbD_eq
  intro i hi
  simp only [formatRr, BitVec.getLsbD_append, BitVec.getLsbD_extractLsb']
  interval_cases i <;> simp

@[simp] theorem formatRr_n_s2 (op : Byte) (a : BitVec 4) :
    (formatRr op a).extractLsb' 12 8 = 0#8 := by
  apply BitVec.eq_of_getLsbD_eq
  intro i hi
  simp only [formatRr, BitVec.getLsbD_append, BitVec.getLsbD_extractLsb']
  interval_cases i <;> simp

@[simp] theorem formatRr_s1 (op : Byte) (a : BitVec 4) :
    (formatRr op a).extractLsb' 8 4 = a := by
  apply BitVec.eq_of_getLsbD_eq
  intro i hi
  simp only [formatRr, BitVec.getLsbD_append, BitVec.getLsbD_extractLsb']
  interval_cases i <;> simp

@[simp] theorem formatRc_op1 (op : BitVec 7) (v : BitVec 9) :
    (formatRc op v).extractLsb' 0 8 = 0xAD#8 := by
  apply BitVec.eq_of_getLsbD_eq
  intro i hi
  simp only [formatRc, BitVec.getLsbD_append, BitVec.getLsbD_extractLsb']
  interval_cases i <;> simp

@[simp] theorem formatRc_op2 (op : BitVec 7) (v : BitVec 9) :
    (formatRc op v).extractLsb' 21 7 = op := by
  apply BitVec.eq_of_getLsbD_eq
  intro i hi
  simp only [formatRc, BitVec.getLsbD_append, BitVec.getLsbD_extractLsb']
  interval_cases i <;> simp

@[simp] theorem formatRc_c (op : BitVec 7) (v : BitVec 9) :
    (formatRc op v).extractLsb' 28 4 = 0#4 := by
  apply BitVec.eq_of_getLsbD_eq
  intro i hi
  simp only [formatRc, BitVec.getLsbD_append, BitVec.getLsbD_extractLsb']
  interval_cases i <;> simp

@[simp] theorem formatRc_s1 (op : BitVec 7) (v : BitVec 9) :
    (formatRc op v).extractLsb' 8 4 = 0#4 := by
  apply BitVec.eq_of_getLsbD_eq
  intro i hi
  simp only [formatRc, BitVec.getLsbD_append, BitVec.getLsbD_extractLsb']
  interval_cases i <;> simp

@[simp] theorem formatRc_const9 (op : BitVec 7) (v : BitVec 9) :
    (formatRc op v).extractLsb' 12 9 = v := by
  apply BitVec.eq_of_getLsbD_eq
  intro i hi
  simp only [formatRc, BitVec.getLsbD_append, BitVec.getLsbD_extractLsb']
  interval_cases i <;> simp

@[simp] theorem formatAbs_op1 (op : BitVec 2) (v : BitVec 18) :
    (formatAbs op v).extractLsb' 0 8 = 0x15#8 := by
  apply BitVec.eq_of_getLsbD_eq
  intro i hi
  simp only [formatAbs, BitVec.getLsbD_append, BitVec.getLsbD_extractLsb']
  interval_cases i <;> simp

@[simp] theorem formatAbs_op2 (op : BitVec 2) (v : BitVec 18) :
    (formatAbs op v).extractLsb' 26 2 = op := by
  apply BitVec.eq_of_getLsbD_eq
  intro i hi
  simp only [formatAbs, BitVec.getLsbD_append, BitVec.getLsbD_extractLsb']
  interval_cases i <;> simp

@[simp] theorem formatAbs_s1 (op : BitVec 2) (v : BitVec 18) :
    (formatAbs op v).extractLsb' 8 4 = 0#4 := by
  apply BitVec.eq_of_getLsbD_eq
  intro i hi
  simp only [formatAbs, BitVec.getLsbD_append, BitVec.getLsbD_extractLsb']
  interval_cases i <;> simp

@[simp] theorem offOfAbs_formatAbs (op : BitVec 2) (v : BitVec 18) :
    offOfAbs (formatAbs op v) = v := by
  apply BitVec.eq_of_getLsbD_eq
  intro i hi
  simp only [offOfAbs, formatAbs, BitVec.getLsbD_append, BitVec.getLsbD_extractLsb']
  interval_cases i <;> simp

@[simp] theorem formatBo_op1 (op : BitVec 6) (b : BitVec 4) (v : BitVec 10) :
    (formatBo op b v).extractLsb' 0 8 = 0x49#8 := by
  apply BitVec.eq_of_getLsbD_eq
  intro i hi
  simp only [formatBo, BitVec.getLsbD_append, BitVec.getLsbD_extractLsb']
  interval_cases i <;> simp

@[simp] theorem formatBo_op2 (op : BitVec 6) (b : BitVec 4) (v : BitVec 10) :
    (formatBo op b v).extractLsb' 22 6 = op := by
  apply BitVec.eq_of_getLsbD_eq
  intro i hi
  simp only [formatBo, BitVec.getLsbD_append, BitVec.getLsbD_extractLsb']
  interval_cases i <;> simp

@[simp] theorem formatBo_s1 (op : BitVec 6) (b : BitVec 4) (v : BitVec 10) :
    (formatBo op b v).extractLsb' 8 4 = 0#4 := by
  apply BitVec.eq_of_getLsbD_eq
  intro i hi
  simp only [formatBo, BitVec.getLsbD_append, BitVec.getLsbD_extractLsb']
  interval_cases i <;> simp

@[simp] theorem formatBo_s2 (op : BitVec 6) (b : BitVec 4) (v : BitVec 10) :
    (formatBo op b v).extractLsb' 12 4 = b := by
  apply BitVec.eq_of_getLsbD_eq
  intro i hi
  simp only [formatBo, BitVec.getLsbD_append, BitVec.getLsbD_extractLsb']
  interval_cases i <;> simp

@[simp] theorem offOfBo_formatBo (op : BitVec 6) (b : BitVec 4) (v : BitVec 10) :
    offOfBo (formatBo op b v) = v := by
  apply BitVec.eq_of_getLsbD_eq
  intro i hi
  simp only [offOfBo, formatBo, BitVec.getLsbD_append, BitVec.getLsbD_extractLsb']
  interval_cases i <;> simp

@[simp] theorem formatRlc_op1 (op : Byte) (c : BitVec 4) (v : BitVec 16) (s : BitVec 4) :
    (formatRlc op c v s).extractLsb' 0 8 = op := by
  apply BitVec.eq_of_getLsbD_eq
  intro i hi
  simp only [formatRlc, BitVec.getLsbD_append, BitVec.getLsbD_extractLsb']
  interval_cases i <;> simp

@[simp] theorem formatRlc_c (op : Byte) (c : BitVec 4) (v : BitVec 16) (s : BitVec 4) :
    (formatRlc op c v s).extractLsb' 28 4 = c := by
  apply BitVec.eq_of_getLsbD_eq
  intro i hi
  simp only [formatRlc, BitVec.getLsbD_append, BitVec.getLsbD_extractLsb']
  interval_cases i <;> simp

@[simp] theorem formatRlc_s1 (op : Byte) (c : BitVec 4) (v : BitVec 16) (s : BitVec 4) :
    (formatRlc op c v s).extractLsb' 8 4 = s := by
  apply BitVec.eq_of_getLsbD_eq
  intro i hi
  simp only [formatRlc, BitVec.getLsbD_append, BitVec.getLsbD_extractLsb']
  interval_cases i <;> simp

@[simp] theorem formatRlc_const16 (op : Byte) (c : BitVec 4) (v : BitVec 16) (s : BitVec 4) :
    (formatRlc op c v s).extractLsb' 12 16 = v := by
  apply BitVec.eq_of_getLsbD_eq
  intro i hi
  simp only [formatRlc, BitVec.getLsbD_append, BitVec.getLsbD_extractLsb']
  interval_cases i <;> simp

@[simp] theorem formatS8_op1 (op : Byte) (v : BitVec 8) :
    (formatS8 op v).extractLsb' 0 8 = op := by
  apply BitVec.eq_of_getLsbD_eq
  intro i hi
  simp only [formatS8, BitVec.getLsbD_append, BitVec.getLsbD_extractLsb']
  interval_cases i <;> simp

@[simp] theorem formatS8_operand (op : Byte) (v : BitVec 8) :
    (formatS8 op v).extractLsb' 8 8 = v := by
  apply BitVec.eq_of_getLsbD_eq
  intro i hi
  simp only [formatS8, BitVec.getLsbD_append, BitVec.getLsbD_extractLsb']
  interval_cases i <;> simp

/-! ### A format from its fields -/

theorem formatB_of_fields (w : Word) :
    formatB (w.extractLsb' 0 8) (dispOfB w) = w := by
  apply BitVec.eq_of_getLsbD_eq
  intro i hi
  simp only [formatB, dispOfB, BitVec.getLsbD_append, BitVec.getLsbD_extractLsb']
  interval_cases i <;> simp

theorem formatRr_of_fields {w : Word} (h1 : w.extractLsb' 0 8 = 0x2D#8) (hc : w.extractLsb' 28 4 = 0#4)
    (hz : w.extractLsb' 12 8 = 0#8) :
    formatRr (w.extractLsb' 20 8) (w.extractLsb' 8 4) = w := by
  apply BitVec.eq_of_getLsbD_eq
  intro i hi
  have bh1 := congrArg (fun v => v.getLsbD (i - 0)) h1
  have bhc := congrArg (fun v => v.getLsbD (i - 28)) hc
  have bhz := congrArg (fun v => v.getLsbD (i - 12)) hz
  simp only [formatRr, BitVec.getLsbD_append, BitVec.getLsbD_extractLsb'] at bh1 bhc bhz ⊢
  clear h1 hc hz
  interval_cases i <;> simp_all

theorem formatSys_of_fields {w : Word} (h1 : w.extractLsb' 0 8 = 0x0D#8) (hc : w.extractLsb' 28 4 = 0#4)
    (hz : w.extractLsb' 8 14 = 0#14) :
    formatSys (w.extractLsb' 22 6) = w := by
  apply BitVec.eq_of_getLsbD_eq
  intro i hi
  have bh1 := congrArg (fun v => v.getLsbD (i - 0)) h1
  have bhc := congrArg (fun v => v.getLsbD (i - 28)) hc
  have bhz := congrArg (fun v => v.getLsbD (i - 8)) hz
  simp only [formatSys, BitVec.getLsbD_append, BitVec.getLsbD_extractLsb'] at bh1 bhc bhz ⊢
  clear h1 hc hz
  interval_cases i <;> simp_all

theorem formatAbs_of_fields {w : Word} (h1 : w.extractLsb' 0 8 = 0x15#8) (hz : w.extractLsb' 8 4 = 0#4) :
    formatAbs (w.extractLsb' 26 2) (offOfAbs w) = w := by
  apply BitVec.eq_of_getLsbD_eq
  intro i hi
  have bh1 := congrArg (fun v => v.getLsbD (i - 0)) h1
  have bhz := congrArg (fun v => v.getLsbD (i - 8)) hz
  simp only [formatAbs, offOfAbs, BitVec.getLsbD_append, BitVec.getLsbD_extractLsb'] at bh1 bhz ⊢
  clear h1 hz
  interval_cases i <;> simp_all

theorem formatBo_of_fields {w : Word} (h1 : w.extractLsb' 0 8 = 0x49#8) (hz : w.extractLsb' 8 4 = 0#4) :
    formatBo (w.extractLsb' 22 6) (w.extractLsb' 12 4) (offOfBo w) = w := by
  apply BitVec.eq_of_getLsbD_eq
  intro i hi
  have bh1 := congrArg (fun v => v.getLsbD (i - 0)) h1
  have bhz := congrArg (fun v => v.getLsbD (i - 8)) hz
  simp only [formatBo, offOfBo, BitVec.getLsbD_append, BitVec.getLsbD_extractLsb'] at bh1 bhz ⊢
  clear h1 hz
  interval_cases i <;> simp_all

theorem formatRc_of_fields {w : Word} (h1 : w.extractLsb' 0 8 = 0xAD#8) (hc : w.extractLsb' 28 4 = 0#4)
    (hz : w.extractLsb' 8 4 = 0#4) :
    formatRc (w.extractLsb' 21 7) (w.extractLsb' 12 9) = w := by
  apply BitVec.eq_of_getLsbD_eq
  intro i hi
  have bh1 := congrArg (fun v => v.getLsbD (i - 0)) h1
  have bhc := congrArg (fun v => v.getLsbD (i - 28)) hc
  have bhz := congrArg (fun v => v.getLsbD (i - 8)) hz
  simp only [formatRc, BitVec.getLsbD_append, BitVec.getLsbD_extractLsb'] at bh1 bhc bhz ⊢
  clear h1 hc hz
  interval_cases i <;> simp_all

theorem formatRlc_of_fields (w : Word) :
    formatRlc (w.extractLsb' 0 8) (w.extractLsb' 28 4) (w.extractLsb' 12 16)
      (w.extractLsb' 8 4) = w := by
  apply BitVec.eq_of_getLsbD_eq
  intro i hi
  simp only [formatRlc, BitVec.getLsbD_append, BitVec.getLsbD_extractLsb']
  interval_cases i <;> simp

end Sys2Proof
end

