-- ==== Sys2Proof/Laws/Exec.lean ====
section
/-! SUPPORT. Every instruction by its form, everything an instruction can answer with a next state, and the
fields that presenting inputs and writing a core register leave alone. -/

namespace Sys2Proof.Machine

/-! ### Presenting inputs -/

section
variable (s : State)

@[simp] theorem presentInputs_d : (presentInputs s).d = s.d := by
  unfold presentInputs; split <;> rfl
@[simp] theorem presentInputs_a : (presentInputs s).a = s.a := by
  unfold presentInputs; split <;> rfl
@[simp] theorem presentInputs_pc : (presentInputs s).pc = s.pc := by
  unfold presentInputs; split <;> rfl
@[simp] theorem presentInputs_psw : (presentInputs s).psw = s.psw := by
  unfold presentInputs; split <;> rfl
@[simp] theorem presentInputs_pcxi : (presentInputs s).pcxi = s.pcxi := by
  unfold presentInputs; split <;> rfl
@[simp] theorem presentInputs_fcx : (presentInputs s).fcx = s.fcx := by
  unfold presentInputs; split <;> rfl
@[simp] theorem presentInputs_core : (presentInputs s).core = s.core := by
  unfold presentInputs; split <;> rfl
@[simp] theorem presentInputs_mem : (presentInputs s).mem = s.mem := by
  unfold presentInputs; split <;> rfl
@[simp] theorem presentInputs_fcdDeferred : (presentInputs s).fcdDeferred = s.fcdDeferred := by
  unfold presentInputs; split <;> rfl
@[simp] theorem presentInputs_isyncPending : (presentInputs s).isyncPending = s.isyncPending := by
  unfold presentInputs; split <;> rfl
@[simp] theorem presentInputs_acks : (presentInputs s).acks = s.acks := by
  unfold presentInputs; split <;> rfl
@[simp] theorem presentInputs_platform : (presentInputs s).platform = s.platform := by
  unfold presentInputs; split <;> rfl
@[simp] theorem presentInputs_freeCount : (presentInputs s).freeCount = s.freeCount := by
  unfold presentInputs; split <;> rfl

theorem presentInputs_nil (h : s.inputs = []) : presentInputs s = s := by
  simp [presentInputs, h]

theorem presentInputs_cons {x : AgentInput} {xs : List AgentInput} (h : s.inputs = x :: xs) :
    presentInputs s = ((s.setInputs xs).setIcr (Icr.setPipn s.icr x.pipn)).setEndinits x.endinit
      x.safetyEndinit := by
  simp [presentInputs, h]

theorem presentInputs_inputs : (presentInputs s).inputs = s.inputs.tail := by
  cases h : s.inputs with
  | nil => rw [presentInputs_nil s h, h]; rfl
  | cons x xs => rw [presentInputs_cons s h]; rfl

end

/-! ### Writing a core register -/

section
variable (s : State) (r : Csfr) (v : Word)

@[simp] theorem setCsfr_d : (setCsfr s r v).d = s.d := by cases r <;> rfl
@[simp] theorem setCsfr_a : (setCsfr s r v).a = s.a := by cases r <;> rfl
@[simp] theorem setCsfr_pc : (setCsfr s r v).pc = s.pc := by cases r <;> rfl
@[simp] theorem setCsfr_mem : (setCsfr s r v).mem = s.mem := by cases r <;> rfl
@[simp] theorem setCsfr_fcdDeferred : (setCsfr s r v).fcdDeferred = s.fcdDeferred := by cases r <;> rfl
@[simp] theorem setCsfr_isyncPending : (setCsfr s r v).isyncPending = s.isyncPending := by cases r <;> rfl
@[simp] theorem setCsfr_endinit : (setCsfr s r v).endinit = s.endinit := by cases r <;> rfl
@[simp] theorem setCsfr_safetyEndinit : (setCsfr s r v).safetyEndinit = s.safetyEndinit := by cases r <;> rfl
@[simp] theorem setCsfr_inputs : (setCsfr s r v).inputs = s.inputs := by cases r <;> rfl
@[simp] theorem setCsfr_acks : (setCsfr s r v).acks = s.acks := by cases r <;> rfl
@[simp] theorem setCsfr_platform : (setCsfr s r v).platform = s.platform := by cases r <;> rfl
@[simp] theorem setCsfr_freeCount : (setCsfr s r v).freeCount = s.freeCount := by cases r <;> rfl

end

theorem csfrValue_setCsfr_same {r : Csfr} {mask : Word} (h : csfrWriteMask r = some mask) (s : State)
    (v : Word) : csfrValue (setCsfr s r v) r = v := by
  cases r <;> first | rfl | cases h

theorem csfrValue_setCsfr_other {r q : Csfr} (h : q ≠ r) (s : State) (v : Word) :
    csfrValue (setCsfr s r v) q = csfrValue s q := by
  cases r <;> cases q <;> first | rfl | exact absurd rfl h

/-! ### Register operands -/

@[simp] theorem regIndex_val (a : Fin 16) : regIndex a.val = a := by simp [regIndex]

theorem readD_val (s : State) (a : Fin 16) : readD s a.val = s.d[a] := by
  simp only [readD, regIndex_val]

theorem readA_val (s : State) (a : Fin 16) : readA s a.val = s.a[a] := by
  simp only [readA, regIndex_val]

/-! ### An instruction by its form -/

theorem CallForm.exec_eq {s : State} {i : Instr} {target len : Word} (h : CallForm s i target len) :
    exec i s = callTo target len s := by
  cases h with
  | indirect a => simp only [exec, execCalliA, readA_val]
  | _ => rfl

theorem FastCallForm.exec_eq {s : State} {i : Instr} {target : Word} (h : FastCallForm s i target) :
    exec i s = fastCallTo target s := by
  cases h with
  | indirect a => simp only [exec, execFcalliA, readA_val]
  | _ => rfl

theorem ReturnForm.exec_eq {i : Instr} (h : ReturnForm i) (s : State) : exec i s = returnFromCall s := by
  cases h <;> rfl

theorem ResumeForm.exec_eq {i : Instr} (h : ResumeForm i) (s : State) :
    exec i s = returnFromException s := by
  cases h <;> rfl

theorem FastReturnForm.exec_eq {i : Instr} (h : FastReturnForm i) (s : State) : exec i s = fastReturn s := by
  cases h <;> rfl

theorem BisrForm.exec_eq {i : Instr} {p : BitVec 8} {len : Word} (h : BisrForm i p len) (s : State) :
    exec i s = beginIsr p len s := by
  cases h <;> rfl

theorem StoreForm.exec_eq {s : State} {i : Instr} {upper : Bool} {ea : Word} (h : StoreForm s i upper ea) :
    exec i s = storeContext (if upper then .stucx else .stlcx) upper ea s := by
  cases h with
  | lowerBo b off => simp only [exec, execStlcxBo, readA_val]; rfl
  | upperBo b off => simp only [exec, execStucxBo, readA_val]; rfl
  | _ => rfl

theorem LoadForm.exec_eq {s : State} {i : Instr} {upper : Bool} {ea : Word} (h : LoadForm s i upper ea) :
    exec i s = loadContext (if upper then .lducx else .ldlcx) upper ea s := by
  cases h with
  | lowerBo b off => simp only [exec, execLdlcxBo, readA_val]; rfl
  | upperBo b off => simp only [exec, execLducxBo, readA_val]; rfl
  | _ => rfl

/-! ### Everything an instruction can do -/

/-- What `exec i s` can answer with a next state: the entry of one of the instruction's traps, or its own
effect. -/
inductive Effect (s : State) : Instr → State → Prop
  | trap {i : Instr} {t : State} (trap : Trap) (ret : Word) (h : trapEntry trap ret s = .next t)
      (hr : s.pc.getLsbD 0 = false → ret.getLsbD 0 = false) : Effect s i t
  | call {i : Instr} {target len link : Word} (hc : CanSave s)
      (hl : s.mem.readWord (csaEA (pointerOf s.fcx)) = some link)
      (ht : s.pc.getLsbD 0 = false → target.getLsbD 0 = false) :
      Effect s i ((((forgetUpper (savedState true link s)).setPsw (callPsw s.psw)).writeA 11
        (s.pc + len)).setPc target)
  | ret {i : Instr} {w : Vector Word 16} (hi : ReturnForm i) (hc : CanRestore true s)
      (hw : WordsAt s (csaEA (Pcxi.pcx s.pcxi)) w) : Effect s i (returnedState w s)
  | rfe {i : Instr} {w : Vector Word 16} (hi : ResumeForm i) (hc : CanRestore true s)
      (hw : WordsAt s (csaEA (Pcxi.pcx s.pcxi)) w) : Effect s i (resumedState w s)
  | fastCall {i : Instr} {target : Word} (hw : Writable s (fastCallSlot s) 4)
      (ht : s.pc.getLsbD 0 = false → target.getLsbD 0 = false) :
      Effect s i ((((s.setMem (s.mem.writeWord (fastCallSlot s) s.a[11])).writeA 11
        (s.pc + 4#32)).writeA 10 (fastCallSlot s)).setPc target)
  | fastReturn {i : Instr} {ra : Word} :
      Effect s i (((s.writeA 11 ra).writeA 10 (s.a[10] + 4#32)).setPc (regTarget s.a[11]))
  | svlcx {i : Instr} {link : Word} (hc : CanSave s)
      (hl : s.mem.readWord (csaEA (pointerOf s.fcx)) = some link) :
      Effect s i (advance 4#32 (savedState false link s))
  | rslcx {i : Instr} {w : Vector Word 16} (hc : CanRestore false s)
      (hw : WordsAt s (csaEA (Pcxi.pcx s.pcxi)) w) :
      Effect s i (advance 4#32 (assignLower w (restoredState w s)))
  | store {i : Instr} {upper : Bool} {ea : Word} (hw : Writable s ea 64) :
      Effect s i (advance 4#32 (s.setMem (s.mem.writeWords ea (contextWords upper s).toList)))
  | load {i : Instr} {upper : Bool} {w : Vector Word 16} :
      Effect s i (advance 4#32 (if upper then assignUpper w s else assignLower w s))
  | enable : Effect s .enable (advance 4#32 (s.setIcr (Icr.setIe s.icr true)))
  | disable : Effect s .disable (advance 4#32 (s.setIcr (Icr.setIe s.icr false)))
  | bisr {i : Instr} {p : BitVec 8} {len link : Word} (hi : BisrForm i p len) (hc : CanSave s)
      (hl : s.mem.readWord (csaEA (pointerOf s.fcx)) = some link) :
      Effect s i (advance len ((savedState false link s).setIcr (Icr.setCcpn (Icr.setIe s.icr true) p)))
  | mtcr {addr : BitVec 16} {a : Nat} {r : Csfr} {mask v : Word} (hs : supervisor s = true)
      (hr : csfrOfAddr s addr = some r) (hm : csfrWriteMask r = some mask) :
      Effect s (.mtcr addr a)
        (advance 4#32 ((setCsfr s r (maskedWrite mask (csfrValue s r) v)).setIsyncPending true))
  | mfcr {i : Instr} {c : Fin 16} {v : Word} : Effect s i (advance 4#32 (s.writeD c v))
  | isync : Effect s .isync (advance 4#32 (s.setIsyncPending false))

theorem raiseTrap_effect {i : Instr} {trap : Trap} {s t : State} (h : raiseTrap trap s = .next t) :
    Effect s i t := .trap trap s.pc h id

theorem callTo_effect {i : Instr} {target len : Word} {s t : State} (h : callTo target len s = .next t)
    (ht : s.pc.getLsbD 0 = false → target.getLsbD 0 = false) : Effect s i t := by
  rcases callTo_eq_next.1 h with ⟨_, h⟩ | ⟨_, hc, link, hl, rfl⟩
  · exact raiseTrap_effect h
  · exact .call hc hl ht

theorem returnFromCall_effect {i : Instr} {s t : State} (hi : ReturnForm i)
    (h : returnFromCall s = .next t) : Effect s i t := by
  rcases returnFromCall_eq_next.1 h with ⟨_, h⟩ | ⟨_, ⟨_, h⟩ | ⟨_, _, h⟩ | ⟨hc, w, hw, rfl⟩⟩
  · exact raiseTrap_effect h
  · exact raiseTrap_effect h
  · exact raiseTrap_effect h
  · exact .ret hi hc hw

theorem returnFromException_effect {i : Instr} {s t : State} (hi : ResumeForm i)
    (h : returnFromException s = .next t) : Effect s i t := by
  rcases returnFromException_eq_next.1 h with ⟨_, h⟩ | ⟨_, _, h⟩ | ⟨_, _, _, h⟩ | ⟨_, hc, w, hw, rfl⟩
  · exact raiseTrap_effect h
  · exact raiseTrap_effect h
  · exact raiseTrap_effect h
  · exact .rfe hi hc hw

theorem fastCallTo_effect {i : Instr} {target : Word} {s t : State} (h : fastCallTo target s = .next t)
    (ht : s.pc.getLsbD 0 = false → target.getLsbD 0 = false) : Effect s i t := by
  obtain ⟨_, hw, rfl⟩ := fastCallTo_eq_next.1 h
  exact .fastCall hw ht

theorem fastReturn_effect {i : Instr} {s t : State} (h : fastReturn s = .next t) : Effect s i t := by
  obtain ⟨_, _, ra, _, rfl⟩ := fastReturn_eq_next.1 h
  exact .fastReturn

theorem storeContext_effect {i : Instr} {form : AlignedForm} {upper : Bool} {ea : Word} {s t : State}
    (h : storeContext form upper ea s = .next t) : Effect s i t := by
  obtain ⟨_, hw, rfl⟩ := storeContext_eq_next.1 h
  exact .store hw

theorem loadContext_effect {i : Instr} {form : AlignedForm} {upper : Bool} {ea : Word} {s t : State}
    (h : loadContext form upper ea s = .next t) : Effect s i t := by
  obtain ⟨_, _, w, _, rfl⟩ := loadContext_eq_next.1 h
  exact .load

theorem beginIsr_effect {i : Instr} {p : BitVec 8} {len : Word} {s t : State} (hi : BisrForm i p len)
    (h : beginIsr p len s = .next t) : Effect s i t := by
  rcases beginIsr_eq_next.1 h with ⟨_, h⟩ | ⟨_, hc, link, hl, rfl⟩
  · exact raiseTrap_effect h
  · exact .bisr hi hc hl

/-- A sum of even addresses is even. -/
theorem even_add {x y : Word} (hx : x.getLsbD 0 = false) (hy : y.getLsbD 0 = false) :
    (x + y).getLsbD 0 = false := by
  rw [BitVec.getLsbD_add (by omega), hx, hy]
  simp

/-- Twice a word is even. -/
theorem even_double (x : Word) : (x * 2#32).getLsbD 0 = false := by
  have e : x * 2#32 = x <<< 1 := by
    apply BitVec.eq_of_toNat_eq
    simp [BitVec.toNat_mul, Nat.shiftLeft_eq]
  rw [e]
  simp

theorem absTarget24_even (d : BitVec 24) : (absTarget24 d).getLsbD 0 = false := by
  rw [absTarget24, BitVec.getLsbD_append, if_pos (by omega)]
  rfl

theorem exec_effect {i : Instr} {s t : State} (h : exec i s = .next t) : Effect s i t := by
  cases i with
  | callDisp24 d => exact callTo_effect (len := 4#32) h fun e => even_add e (even_double _)
  | callaDisp24 d => exact callTo_effect (len := 4#32) h fun _ => absTarget24_even d
  | calliA a => exact callTo_effect (len := 4#32) h fun _ => evenBase_even _
  | callDisp8 d => exact callTo_effect (len := 2#32) h fun e => even_add e (even_double _)
  | ret => exact returnFromCall_effect .long h
  | ret16 => exact returnFromCall_effect .short h
  | fcallDisp24 d => exact fastCallTo_effect h fun e => even_add e (even_double _)
  | fcallaDisp24 d => exact fastCallTo_effect h fun _ => absTarget24_even d
  | fcalliA a => exact fastCallTo_effect h fun _ => evenBase_even _
  | fret => exact fastReturn_effect h
  | fret16 => exact fastReturn_effect h
  | svlcx =>
    obtain ⟨hc, link, hl, rfl⟩ := execSvlcx_eq_next.1 h
    exact .svlcx hc hl
  | rslcx =>
    rcases execRslcx_eq_next.1 h with ⟨_, h⟩ | ⟨_, _, h⟩ | ⟨hc, w, hw, rfl⟩
    · exact raiseTrap_effect h
    · exact raiseTrap_effect h
    · exact .rslcx hc hw
  | stlcxAbs off => exact storeContext_effect h
  | stucxAbs off => exact storeContext_effect h
  | stlcxBo b off => exact storeContext_effect h
  | stucxBo b off => exact storeContext_effect h
  | ldlcxAbs off => exact loadContext_effect h
  | lducxAbs off => exact loadContext_effect h
  | ldlcxBo b off => exact loadContext_effect h
  | lducxBo b off => exact loadContext_effect h
  | enable =>
    simp only [exec, execEnable] at h
    split at h
    · cases h; exact .enable
    · exact raiseTrap_effect h
  | disable =>
    simp only [exec, execDisable] at h
    split at h
    · cases h; exact .disable
    · exact raiseTrap_effect h
  | bisrConst9 c => exact beginIsr_effect (.const9 c) h
  | bisrConst8 c => exact beginIsr_effect (.const8 c) h
  | rfe => exact returnFromException_effect .long h
  | rfe16 => exact returnFromException_effect .short h
  | mtcr addr a =>
    rcases execMtcr_eq_next.1 h with ⟨_, h⟩ | ⟨hs, r, mask, hr, hm, _, _, _, rfl⟩
    · exact raiseTrap_effect h
    · exact .mtcr hs hr hm
  | mfcr c addr =>
    obtain ⟨r, _, rfl⟩ := execMfcr_eq_next.1 h
    exact .mfcr
  | isync => cases h; exact .isync
  | syscall c => exact .trap _ _ h fun e => even_add e (by decide)

end Sys2Proof.Machine
end

