-- ==== Sys2Proof/Laws/Invariant.lean ====
section
/-! SUPPORT. The invariant under each update and each shared operation. -/

namespace Sys2Proof.Machine

/-! ### Masked bits -/

/-- A word has none of a mask's bits exactly when each of them is 0. -/
theorem and_eq_zero_iff_bits {w m : Word} :
    w &&& m = 0#32 ↔ ∀ j < 32, m.getLsbD j = true → w.getLsbD j = false := by
  constructor
  · intro h j hj hm
    have := congrArg (·.getLsbD j) h
    simpa [BitVec.getLsbD_and, hm] using this
  · intro h
    apply BitVec.eq_of_getLsbD_eq
    intro j hj
    rw [BitVec.getLsbD_and, BitVec.getLsbD_zero]
    cases hm : m.getLsbD j
    · simp
    · simp [h j hj hm]

theorem bits_of_reservedPsw : ∀ j < 32, (0x00FF0000#32).getLsbD j = true → 16 ≤ j ∧ j < 24 := by decide
theorem bits_of_reservedPcxi : ∀ j < 32, (0xC0000000#32).getLsbD j = true → 30 ≤ j := by decide
theorem bits_of_reservedPointer : ∀ j < 32, (0xFFF00000#32).getLsbD j = true → 20 ≤ j := by decide
theorem bits_of_reservedIcr :
    ∀ j < 32, (0xFF007F00#32).getLsbD j = true → 8 ≤ j ∧ j ≠ 15 ∧ (j < 16 ∨ 24 ≤ j) := by decide

/-- The loads of PSW leave its reserved bits 0. -/
theorem pswImplemented_reserved (w : Word) : (w &&& pswImplemented) &&& 0x00FF0000#32 = 0#32 := by
  rw [pswImplemented, BitVec.and_assoc, show (0xFF00FFFF#32 &&& 0x00FF0000#32) = 0#32 from by decide,
    BitVec.and_zero]

/-- A masked write keeps the reserved bits 0 that the mask leaves out. -/
theorem maskedWrite_reserved {old new mask k : Word} (h : old &&& k = 0#32) (hk : mask &&& k = 0#32) :
    maskedWrite mask old new &&& k = 0#32 := by
  rw [and_eq_zero_iff_bits] at *
  intro j hj hm
  rw [getLsbD_maskedWrite]
  cases e : mask.getLsbD j
  · simp [h j hj hm]
  · rw [hk j hj hm] at e
    cases e

theorem callPsw_reserved {w : Word} (h : w &&& 0x00FF0000#32 = 0#32) :
    callPsw w &&& 0x00FF0000#32 = 0#32 := by
  rw [and_eq_zero_iff_bits] at *
  intro j hj hm
  rw [callPsw_others _ _ (by have := bits_of_reservedPsw j hj hm; omega)]
  exact h j hj hm

theorem setCcpn_reserved {w : Word} (v : BitVec 8) (h : w &&& 0xFF007F00#32 = 0#32) :
    Icr.setCcpn w v &&& 0xFF007F00#32 = 0#32 := by
  rw [and_eq_zero_iff_bits] at *
  intro j hj hm
  rw [Icr.getLsbD_setCcpn, if_neg (by have := bits_of_reservedIcr j hj hm; omega)]
  exact h j hj hm

theorem setIe_reserved {w : Word} (b : Bool) (h : w &&& 0xFF007F00#32 = 0#32) :
    Icr.setIe w b &&& 0xFF007F00#32 = 0#32 := by
  rw [and_eq_zero_iff_bits] at *
  intro j hj hm
  rw [Icr.getLsbD_setIe, if_neg (by have := bits_of_reservedIcr j hj hm; omega)]
  exact h j hj hm

theorem setPipn_reserved {w : Word} (v : BitVec 8) (h : w &&& 0xFF007F00#32 = 0#32) :
    Icr.setPipn w v &&& 0xFF007F00#32 = 0#32 := by
  rw [and_eq_zero_iff_bits] at *
  intro j hj hm
  rw [Icr.getLsbD_setPipn, if_neg (by have := bits_of_reservedIcr j hj hm; omega)]
  exact h j hj hm

/-! ### Vectors -/

theorem trapVector_even (btv : Word) (c : BitVec 3) : (trapVector btv c).getLsbD 0 = false := by
  rw [trapVector, BitVec.getLsbD_or, evenBase_even]
  simp

theorem interruptVector_even (biv : Word) (p : BitVec 8) : (interruptVector biv p).getLsbD 0 = false := by
  rw [interruptVector, BitVec.getLsbD_or, evenBase_even]
  split <;> simp

/-! ### The invariant -/

/-- The invariant looks at ten parts of the state only. -/
theorem Inv.congr {s t : State} (h : Inv s) (h1 : t.mem = s.mem) (h2 : t.pc = s.pc) (h3 : t.psw = s.psw)
    (h4 : t.pcxi = s.pcxi) (h5 : t.fcx = s.fcx) (h6 : t.core = s.core) (h7 : t.icr = s.icr)
    (h8 : t.fcdDeferred = s.fcdDeferred) (h9 : t.isyncPending = s.isyncPending)
    (h10 : t.platform = s.platform) : Inv t where
  memory := by rw [h1]; exact h.memory
  pcEven := by rw [h2]; exact h.pcEven
  psw := by rw [h3]; exact h.psw
  pcxi := by rw [h4]; exact h.pcxi
  fcx := by rw [h5]; exact h.fcx
  lcx := by rw [h6]; exact h.lcx
  icr := by rw [h7]; exact h.icr
  btv := by rw [h6]; exact h.btv
  syscon := by rw [h6]; exact h.syscon
  pending := by rw [h8, h9]; exact h.pending
  layout := by rw [h10]; exact h.layout

theorem Inv.setPc {s : State} (h : Inv s) {v : Word} (hv : v.getLsbD 0 = false) : Inv (s.setPc v) :=
  ⟨h.memory, hv, h.psw, h.pcxi, h.fcx, h.lcx, h.icr, h.btv, h.syscon, h.pending, h.layout⟩

theorem Inv.setMem {s : State} (h : Inv s) {m : Memory} (hm : m.wf = true) : Inv (s.setMem m) :=
  ⟨hm, h.pcEven, h.psw, h.pcxi, h.fcx, h.lcx, h.icr, h.btv, h.syscon, h.pending, h.layout⟩

theorem Inv.setPsw {s : State} (h : Inv s) {v : Word} (hv : v &&& 0x00FF0000#32 = 0#32) : Inv (s.setPsw v) :=
  ⟨h.memory, h.pcEven, hv, h.pcxi, h.fcx, h.lcx, h.icr, h.btv, h.syscon, h.pending, h.layout⟩

theorem Inv.setIcr {s : State} (h : Inv s) {v : Word} (hv : v &&& 0xFF007F00#32 = 0#32) : Inv (s.setIcr v) :=
  ⟨h.memory, h.pcEven, h.psw, h.pcxi, h.fcx, h.lcx, hv, h.btv, h.syscon, h.pending, h.layout⟩

theorem Inv.advance {s : State} (h : Inv s) {len : Word} (hl : len.getLsbD 0 = false) :
    Inv (advance len s) := h.setPc (even_add h.pcEven hl)

/-- A context save keeps the invariant where no ISYNC is awaited. -/
theorem Inv.savedState {s : State} (h : Inv s) (hn : s.isyncPending = false) (upper : Bool) (link : Word) :
    Inv (savedState upper link s) where
  memory := by rw [savedState_mem]; exact Memory.wf_writeWords h.memory _ _
  pcEven := h.pcEven
  psw := h.psw
  pcxi := by
    rw [savedState_pcxi, and_eq_zero_iff_bits]
    intro j hj hm
    have := bits_of_reservedPcxi j hj hm
    rw [getLsbD_pcxiMake]
    simp [show ¬ j < 20 from by omega, show ¬ j = 20 from by omega, show ¬ j = 21 from by omega]
    exact BitVec.getLsbD_of_ge _ _ (by omega)
  fcx := by
    rw [savedState_fcx, and_eq_zero_iff_bits]
    intro j hj hm
    have := bits_of_reservedPointer j hj hm
    rw [getLsbD_ofPointer]
    exact BitVec.getLsbD_of_ge _ _ (by omega)
  lcx := h.lcx
  icr := h.icr
  btv := h.btv
  syscon := h.syscon
  pending := by simp [hn]
  layout := h.layout

/-- A context restore keeps the invariant where no ISYNC is awaited. -/
theorem Inv.restoredState {s : State} (h : Inv s) (hn : s.isyncPending = false) (w : Vector Word 16) :
    Inv (restoredState w s) where
  memory := by rw [restoredState_mem]; exact Memory.wf_writeWord h.memory _ _
  pcEven := h.pcEven
  psw := h.psw
  pcxi := by
    rw [restoredState_pcxi, BitVec.and_assoc,
      show (0x3FFFFFFF#32 &&& 0xC0000000#32) = 0#32 from by decide, BitVec.and_zero]
  fcx := by
    rw [restoredState_fcx, and_eq_zero_iff_bits]
    intro j hj hm
    have := bits_of_reservedPointer j hj hm
    rw [getLsbD_ofPointer]
    exact BitVec.getLsbD_of_ge _ _ (by omega)
  lcx := h.lcx
  icr := h.icr
  btv := h.btv
  syscon := h.syscon
  pending := by simp [hn]
  layout := h.layout

/-- The part of an entry after the save keeps the invariant. -/
theorem Inv.enterHandler {s : State} (h : Inv s) (ret : Word) (safety : Bool) :
    Inv (enterHandler ret safety s) where
  memory := by simpa using h.memory
  pcEven := by simpa using h.pcEven
  psw := by
    rw [enterHandler_psw, and_eq_zero_iff_bits]
    intro j hj hm
    rw [entryPsw_others _ _ _ (bits_of_reservedPsw j hj hm).1]
    exact and_eq_zero_iff_bits.1 h.psw j hj hm
  pcxi := by simpa using h.pcxi
  fcx := by simpa using h.fcx
  lcx := by simpa using h.lcx
  icr := by rw [enterHandler_icr]; exact setIe_reserved _ h.icr
  btv := by simpa using h.btv
  syscon := by simpa using h.syscon
  pending := by simpa using h.pending
  layout := by simpa using h.layout

/-! ### Core registers -/

theorem setCsfr_icr_other {s : State} {r : Csfr} (v : Word) (e : r ≠ .icr) : (setCsfr s r v).icr = s.icr :=
  csfrValue_setCsfr_other (q := .icr) (Ne.symm e) s v

theorem setCsfr_psw_other {s : State} {r : Csfr} (v : Word) (e : r ≠ .psw) : (setCsfr s r v).psw = s.psw :=
  csfrValue_setCsfr_other (q := .psw) (Ne.symm e) s v

end Sys2Proof.Machine
end

