-- ==== Sys2Proof/Laws/PerInstr.lean ====
section
/-! SUPPORT. Families of lemmas with one member per constructor of `Instr`. -/

namespace Sys2Proof.Laws

/-- The encoder writes as many bytes as the instruction's length, 2 or 4, and bit 0 of the first byte says
which (30_encoding.md R110). -/
def EncodedLength.Statement (i : Instr) : Prop :=
  (encode i).length = i.length ∧ ∃ b, (encode i).head? = some b ∧ (isLong b = true ↔ i.length = 4)

/-- A format whose low byte is the opcode keeps the opcode there. -/
theorem low_byte_append {n : Nat} (v : BitVec n) (op : Byte) : (v ++ op).extractLsb' 0 8 = op := by
  ext i hi
  simp only [BitVec.getElem_extractLsb', Nat.zero_add, BitVec.getLsbD_append, hi, if_true]
  exact BitVec.getLsbD_eq_getElem hi

theorem encodedLength_long {i : Instr} {w : Word} {op : Byte} (hc : i.code = .long w)
    (ho : w.extractLsb' 0 8 = op) (hop : isLong op = true) : EncodedLength.Statement i := by
  refine ⟨by simp [encode, Instr.length, hc, Code.bytes], op, by simp [encode, hc, Code.bytes, ho], ?_⟩
  simp [Instr.length, hc, hop]

theorem encodedLength_short {i : Instr} {h : Half} {op : Byte} (hc : i.code = .short h)
    (ho : h.extractLsb' 0 8 = op) (hop : isLong op = false) : EncodedLength.Statement i := by
  refine ⟨by simp [encode, Instr.length, hc, Code.bytes], op, by simp [encode, hc, Code.bytes, ho], ?_⟩
  simp [Instr.length, hc, hop]

theorem EncodedLength.callDisp24 (disp : BitVec 24) : EncodedLength.Statement (.callDisp24 disp) :=
  encodedLength_long rfl (low_byte_append _ _) (by decide)

theorem EncodedLength.callaDisp24 (disp : BitVec 24) : EncodedLength.Statement (.callaDisp24 disp) :=
  encodedLength_long rfl (low_byte_append _ _) (by decide)

theorem EncodedLength.calliA (a : Nat) : EncodedLength.Statement (.calliA a) :=
  encodedLength_long rfl (low_byte_append _ _) (by decide)

theorem EncodedLength.ret : EncodedLength.Statement .ret :=
  encodedLength_long rfl (low_byte_append _ _) (by decide)

theorem EncodedLength.fcallDisp24 (disp : BitVec 24) : EncodedLength.Statement (.fcallDisp24 disp) :=
  encodedLength_long rfl (low_byte_append _ _) (by decide)

theorem EncodedLength.fcallaDisp24 (disp : BitVec 24) : EncodedLength.Statement (.fcallaDisp24 disp) :=
  encodedLength_long rfl (low_byte_append _ _) (by decide)

theorem EncodedLength.fcalliA (a : Nat) : EncodedLength.Statement (.fcalliA a) :=
  encodedLength_long rfl (low_byte_append _ _) (by decide)

theorem EncodedLength.fret : EncodedLength.Statement .fret :=
  encodedLength_long rfl (low_byte_append _ _) (by decide)

theorem EncodedLength.svlcx : EncodedLength.Statement .svlcx :=
  encodedLength_long rfl (low_byte_append _ _) (by decide)

theorem EncodedLength.rslcx : EncodedLength.Statement .rslcx :=
  encodedLength_long rfl (low_byte_append _ _) (by decide)

theorem EncodedLength.stlcxAbs (off : BitVec 18) : EncodedLength.Statement (.stlcxAbs off) :=
  encodedLength_long rfl (low_byte_append _ _) (by decide)

theorem EncodedLength.stucxAbs (off : BitVec 18) : EncodedLength.Statement (.stucxAbs off) :=
  encodedLength_long rfl (low_byte_append _ _) (by decide)

theorem EncodedLength.ldlcxAbs (off : BitVec 18) : EncodedLength.Statement (.ldlcxAbs off) :=
  encodedLength_long rfl (low_byte_append _ _) (by decide)

theorem EncodedLength.lducxAbs (off : BitVec 18) : EncodedLength.Statement (.lducxAbs off) :=
  encodedLength_long rfl (low_byte_append _ _) (by decide)

theorem EncodedLength.ldlcxBo (b : Nat) (off : BitVec 10) : EncodedLength.Statement (.ldlcxBo b off) :=
  encodedLength_long rfl (low_byte_append _ _) (by decide)

theorem EncodedLength.lducxBo (b : Nat) (off : BitVec 10) : EncodedLength.Statement (.lducxBo b off) :=
  encodedLength_long rfl (low_byte_append _ _) (by decide)

theorem EncodedLength.stlcxBo (b : Nat) (off : BitVec 10) : EncodedLength.Statement (.stlcxBo b off) :=
  encodedLength_long rfl (low_byte_append _ _) (by decide)

theorem EncodedLength.stucxBo (b : Nat) (off : BitVec 10) : EncodedLength.Statement (.stucxBo b off) :=
  encodedLength_long rfl (low_byte_append _ _) (by decide)

theorem EncodedLength.enable : EncodedLength.Statement .enable :=
  encodedLength_long rfl (low_byte_append _ _) (by decide)

theorem EncodedLength.disable : EncodedLength.Statement .disable :=
  encodedLength_long rfl (low_byte_append _ _) (by decide)

theorem EncodedLength.bisrConst9 (const : BitVec 9) : EncodedLength.Statement (.bisrConst9 const) :=
  encodedLength_long rfl (low_byte_append _ _) (by decide)

theorem EncodedLength.rfe : EncodedLength.Statement .rfe :=
  encodedLength_long rfl (low_byte_append _ _) (by decide)

theorem EncodedLength.mtcr (addr : BitVec 16) (a : Nat) : EncodedLength.Statement (.mtcr addr a) :=
  encodedLength_long rfl (low_byte_append _ _) (by decide)

theorem EncodedLength.mfcr (c : Nat) (addr : BitVec 16) : EncodedLength.Statement (.mfcr c addr) :=
  encodedLength_long rfl (low_byte_append _ _) (by decide)

theorem EncodedLength.isync : EncodedLength.Statement .isync :=
  encodedLength_long rfl (low_byte_append _ _) (by decide)

theorem EncodedLength.syscall (const : BitVec 9) : EncodedLength.Statement (.syscall const) :=
  encodedLength_long rfl (low_byte_append _ _) (by decide)

theorem EncodedLength.callDisp8 (disp : BitVec 8) : EncodedLength.Statement (.callDisp8 disp) :=
  encodedLength_short rfl (low_byte_append _ _) (by decide)

theorem EncodedLength.ret16 : EncodedLength.Statement .ret16 :=
  encodedLength_short rfl (low_byte_append _ _) (by decide)

theorem EncodedLength.rfe16 : EncodedLength.Statement .rfe16 :=
  encodedLength_short rfl (low_byte_append _ _) (by decide)

theorem EncodedLength.fret16 : EncodedLength.Statement .fret16 :=
  encodedLength_short rfl (low_byte_append _ _) (by decide)

theorem EncodedLength.bisrConst8 (const : BitVec 8) : EncodedLength.Statement (.bisrConst8 const) :=
  encodedLength_short rfl (low_byte_append _ _) (by decide)

end Sys2Proof.Laws
end

