-- ==== Sys2Proof/Tests/Slice0.lean ====
section
/-! SUPPORT. Tests: the term checks, one decoded word for every instruction, one or two steps for every
instruction, and a state that meets the hypotheses of every obligation. Expected values come from
95_test_vectors.md (V10 to V31) and 30_encoding.md (R112 to R117), not from the model. -/

section

set_option Elab.async false

open Sys2Proof Sys2Proof.Machine

/-! ### Ill-formed terms (R115) -/

theorem test_wf_refuses_calliA : (Instr.calliA 16).wf = false := by decide
theorem test_wf_refuses_fcalliA : (Instr.fcalliA 16).wf = false := by decide
theorem test_wf_refuses_ldlcxBo : (Instr.ldlcxBo 16 0#10).wf = false := by decide
theorem test_wf_refuses_lducxBo : (Instr.lducxBo 17 0#10).wf = false := by decide
theorem test_wf_refuses_stlcxBo : (Instr.stlcxBo 16 0#10).wf = false := by decide
theorem test_wf_refuses_stucxBo : (Instr.stucxBo 255 0#10).wf = false := by decide
theorem test_wf_refuses_mtcr : (Instr.mtcr 0xFE00#16 16).wf = false := by decide
theorem test_wf_refuses_mfcr : (Instr.mfcr 16 0xFE00#16).wf = false := by decide

/-! ### Decoding: the fields of R112 and R113 written out from bit 31 (15) down, or a vector's word -/

/-- V10; V19: the two ends of disp24. -/
theorem test_decode_callDisp24 :
    decodeTableWord 32 0x0010006D = some (.callDisp24 0x000010#24) ∧
    decodeTableWord 32 0x0000806D = some (.callDisp24 0x800000#24) ∧
    decodeTableWord 32 0xFFFF7F6D = some (.callDisp24 0x7FFFFF#24) := by decide
/-- V18. -/
theorem test_decode_callaDisp24 : decodeTableWord 32 0x008080ED = some (.callaDisp24 0x800080#24) := by
  decide
/-- V18. -/
theorem test_decode_calliA : decodeTableWord 32 0x0000042D = some (.calliA 4) := by decide
/-- V11. -/
theorem test_decode_ret : decodeTableWord 32 0b00000001100000000000000000001101 = some .ret := by decide
/-- V14. -/
theorem test_decode_fcallDisp24 : decodeTableWord 32 0x00200061 = some (.fcallDisp24 0x000020#24) := by
  decide
/-- R112, R116: disp24 is 0x123456. -/
theorem test_decode_fcallaDisp24 : decodeTableWord 32 0x345612E1 = some (.fcallaDisp24 0x123456#24) := by
  decide
/-- R112, R116: op2 is 01, s1 is 15. -/
theorem test_decode_fcalliA :
    decodeTableWord 32 0b00000000000100000000111100101101 = some (.fcalliA 15) := by decide
/-- V15. -/
theorem test_decode_fret : decodeTableWord 32 0x00C0000D = some .fret := by decide
/-- V12. -/
theorem test_decode_svlcx : decodeTableWord 32 0x0200000D = some .svlcx := by decide
/-- V13. -/
theorem test_decode_rslcx : decodeTableWord 32 0x0240000D = some .rslcx := by decide
/-- R112: off18 is 0x34440; its bits 9:6, 13:10, 5:0, 17:14 are 0001, 0001, 000000, 1101. -/
theorem test_decode_stlcxAbs :
    decodeTableWord 32 0b00010000010000001101000000010101 = some (.stlcxAbs 0x34440#18) := by decide
/-- V17. -/
theorem test_decode_stucxAbs : decodeTableWord 32 0x1440D015 = some (.stucxAbs 0x34440#18) := by decide
/-- R112: off18 is 0x2AAAA; its bits 9:6, 13:10, 5:0, 17:14 are 1010, 1010, 101010, 1010. -/
theorem test_decode_ldlcxAbs :
    decodeTableWord 32 0b10101010101010101010000000010101 = some (.ldlcxAbs 0x2AAAA#18) := by decide
/-- V17. -/
theorem test_decode_lducxAbs : decodeTableWord 32 0x1C40D015 = some (.lducxAbs 0x34440#18) := by decide
/-- V17. -/
theorem test_decode_ldlcxBo : decodeTableWord 32 0x09004049 = some (.ldlcxBo 4 0#10) := by decide
/-- R112: off10 is 0x1BF; its bits 9:6 and 5:0 are 0110 and 111111; the base is A[12]. -/
theorem test_decode_lducxBo :
    decodeTableWord 32 0b01101001011111111100000001001001 = some (.lducxBo 12 0x1BF#10) := by decide
/-- V16. -/
theorem test_decode_stlcxBo : decodeTableWord 32 0x09804049 = some (.stlcxBo 4 0#10) := by decide
/-- V17. -/
theorem test_decode_stucxBo : decodeTableWord 32 0xF9C04049 = some (.stucxBo 4 0x3C0#10) := by decide
/-- R112, R116: op2 is 0C. -/
theorem test_decode_enable : decodeTableWord 32 0b00000011000000000000000000001101 = some .enable := by
  decide
/-- P5. -/
theorem test_decode_disable : decodeTableWord 32 0x0340000D = some .disable := by decide
/-- V20. -/
theorem test_decode_bisrConst9 : decodeTableWord 32 0x000050AD = some (.bisrConst9 5#9) := by decide
/-- V22. -/
theorem test_decode_rfe : decodeTableWord 32 0x01C0000D = some .rfe := by decide
/-- V24. -/
theorem test_decode_mtcr :
    decodeTableWord 32 0x0FE380CD = some (.mtcr 0xFE38#16 0) ∧
    decodeTableWord 32 0x0FE3C1CD = some (.mtcr 0xFE3C#16 1) := by decide
/-- V25. -/
theorem test_decode_mfcr : decodeTableWord 32 0x2FE2C04D = some (.mfcr 2 0xFE2C#16) := by decide
/-- P4. -/
theorem test_decode_isync : decodeTableWord 32 0x04C0000D = some .isync := by decide
/-- V26. -/
theorem test_decode_syscall : decodeTableWord 32 0x008030AD = some (.syscall 3#9) := by decide
/-- V18. -/
theorem test_decode_callDisp8 : decodeTableWord 16 0xFE5C = some (.callDisp8 0xFE#8) := by decide
/-- R117. -/
theorem test_decode_ret16 : decodeTableWord 16 0x9000 = some .ret16 := by decide
/-- V22. -/
theorem test_decode_rfe16 : decodeTableWord 16 0x8000 = some .rfe16 := by decide
/-- R117. -/
theorem test_decode_fret16 : decodeTableWord 16 0x7000 = some .fret16 := by decide
/-- V20. -/
theorem test_decode_bisrConst8 : decodeTableWord 16 0x05E0 = some (.bisrConst8 5#8) := by decide

/-- R119 (b), (c), (d): an unused field, an out-of-scope instruction, a word of no instruction. -/
theorem test_decode_refuses :
    decode32 0x1180000D#32 = .error (.unusedField "RET") ∧
    decode32 0x0000000D#32 = .error (.outOfScope "NOP") ∧
    decode32 0x00000001#32 = .error .notShown := by decide

/-! ### The states of the vectors -/

/-- The value of a next state's part. -/
def result {α : Type} (o : Host.Outcome State Fault Refusal) (f : State → α) : Option α :=
  match o with
  | .next t => some (f t)
  | .fault _ => none
  | .refused _ => none

/-- The reason of a refusal. -/
def refusal (o : Host.Outcome State Fault Refusal) : Option Refusal :=
  match o with
  | .next _ => none
  | .fault _ => none
  | .refused r => some r

theorem next_of_result {α : Type} {o : Host.Outcome State Fault Refusal} {f : State → α} {v : α}
    (h : result o f = some v) : ∃ t, o = .next t ∧ f t = v := by
  cases o with
  | next t => exact ⟨t, rfl, by simpa [result] using h⟩
  | fault _ => cases h
  | refused _ => cases h

/-- The cells of words at rising addresses, little-endian (R90). -/
def cells : Nat → List Word → Memory
  | _, [] => []
  | a, v :: vs => (a, v.extractLsb' 0 8) :: (a + 1, v.extractLsb' 8 8) :: (a + 2, v.extractLsb' 16 8) ::
      (a + 3, v.extractLsb' 24 8) :: cells (a + 4) vs

/-- The link word of CSA3. -/
def linkMemory : Memory := cells 0xD00000C0 [0x000D0004#32]

/-- A word on the stack. -/
def stackMemory : Memory := cells 0xD0001000 [0x80000104#32]

/-- An upper context in CSA2. -/
def upperMemory : Memory := cells 0xD0000080
  [0x001D0001#32, 0x10000481#32, 0xD0001000#32, 0x80000050#32, 0xD8#32, 0xD9#32, 0xDA#32, 0xDB#32,
    0xA000000C#32, 0xA000000D#32, 0xA000000E#32, 0xA000000F#32, 0xDC#32, 0xDD#32, 0xDE#32, 0xDF#32]

/-- A lower context in CSA16, at 0xD0000400. -/
def lowerMemory : Memory := cells 0xD0000400
  [0x001D0002#32, 0x80000050#32, 0xA0000002#32, 0xA0000003#32, 0xD0#32, 0xD1#32, 0xD2#32, 0xD3#32,
    0xD0000400#32, 0xA0000005#32, 0xA0000006#32, 0xA0000007#32, 0xD4#32, 0xD5#32, 0xD6#32, 0xD7#32]

/-- S0 of 95_test_vectors.md, with ISP and BIV of V21. -/
def s0 : State :=
  { State.reset with
    d := #v[0xD0#32, 0xD1#32, 0xD2#32, 0xD3#32, 0xD4#32, 0xD5#32, 0xD6#32, 0xD7#32, 0xD8#32, 0xD9#32,
      0xDA#32, 0xDB#32, 0xDC#32, 0xDD#32, 0xDE#32, 0xDF#32]
    a := #v[0xA0000000#32, 0xA0000001#32, 0xA0000002#32, 0xA0000003#32, 0xD0000400#32, 0xA0000005#32,
      0xA0000006#32, 0xA0000007#32, 0xA0000008#32, 0xA0000009#32, 0xD0001000#32, 0x80000050#32,
      0xA000000C#32, 0xA000000D#32, 0xA000000E#32, 0xA000000F#32]
    pc := 0x80000100#32
    psw := 0x00000B80#32
    pcxi := 0x001D0002#32
    fcx := 0x000D0003#32
    core := { CoreRegs.reset with lcx := 0x000D0005#32, isp := 0xD0002000#32, biv := 0x80002000#32 }
    mem := linkMemory }

/-- S0 with the words of CSA2, and one call counted so that RET finds nothing to trap. -/
def counted : State := (s0.setPsw 0x00000B81#32).setMem upperMemory

/-- S0 with the lower context of CSA16 at the head of the previous list. -/
def lowerHead : State := (s0.setPcxi 0x000D0010#32).setMem lowerMemory

/-- S0 with a word on the stack. -/
def stacked : State := s0.setMem stackMemory

/-- S0 in User-0 mode with IS = 0. -/
def userMode : State := s0.setPsw 0x00000080#32

/-- The state V21 starts from. -/
def interrupted : State :=
  ((s0.setPc 0x80000500#32).setPsw 0x10000481#32).setIcr 0x00058000#32

/-- S0 with the bytes stored at pc. -/
def withWord (w : Word) : State := s0.setMem (s0.mem.writeWord s0.pc w)

/-! ### One step -/

/-- V10. -/
theorem test_call : result (exec (.callDisp24 0x10#24) s0)
    (fun t => (t.pc, t.a[11], t.psw, t.pcxi, t.fcx, t.mem.readWord 0xD00000C0#32)) =
    some (0x80000120#32, 0x80000104#32, 0x00000B81#32, 0x001D0003#32, 0x000D0004#32, some 0x001D0002#32) := by
  decide +kernel
/-- V19: the target wraps. -/
theorem test_call_wraps : result (exec (.callDisp24 0x10#24) (s0.setPc 0xFFFFFFF0#32))
    (fun t => (t.pc, t.a[11])) = some (0x00000010#32, 0xFFFFFFF4#32) := by decide +kernel
/-- V18. -/
theorem test_calla : result (exec (.callaDisp24 0x800080#24) (s0.setPc 0x80000600#32))
    (fun t => (t.pc, t.a[11])) = some (0x80000100#32, 0x80000604#32) := by decide +kernel
/-- V18. -/
theorem test_calli :
    result (exec (.calliA 4) ((s0.setPc 0x80000600#32).writeA 4 0x80000201#32))
      (fun t => (t.pc, t.a[11])) = some (0x80000200#32, 0x80000604#32) := by decide +kernel
/-- V18. -/
theorem test_call16 : result (exec (.callDisp8 0xFE#8) (s0.setPc 0x80000600#32))
    (fun t => (t.pc, t.a[11])) = some (0x800005FC#32, 0x80000602#32) := by decide +kernel
/-- R150, on the context in CSA2. -/
theorem test_ret : result (exec .ret counted)
    (fun t => (t.pc, t.psw, t.pcxi, t.fcx, t.d[15], t.mem.readWord 0xD0000080#32)) =
    some (0x80000050#32, 0x10000481#32, 0x001D0001#32, 0x000D0002#32, 0xDF#32, some 0x000D0003#32) := by
  decide +kernel
/-- V30: the CDU row. -/
theorem test_ret_underflow : result (exec .ret s0) (fun t => (t.pc, t.d[15], t.a[11])) =
    some (0xA0000160#32, 3#32, 0x80000100#32) := by decide +kernel
/-- R152. -/
theorem test_ret16 : result (exec .ret16 counted) (fun t => (t.pc, t.a[12])) =
    some (0x80000050#32, 0xA000000C#32) := by decide +kernel
/-- V14. -/
theorem test_fcall : result (exec (.fcallDisp24 0x20#24) ((s0.setPc 0x80000200#32).writeA 11 0x80000104#32))
    (fun t => (t.pc, t.a[10], t.a[11], t.mem.readWord 0xD0000FFC#32)) =
    some (0x80000240#32, 0xD0000FFC#32, 0x80000204#32, some 0x80000104#32) := by decide +kernel
/-- R154, R114. -/
theorem test_fcalla : result (exec (.fcallaDisp24 0x800080#24) s0) (fun t => (t.pc, t.a[11])) =
    some (0x80000100#32, 0x80000104#32) := by decide +kernel
/-- R155: bit 0 of the target is cleared. -/
theorem test_fcalli : result (exec (.fcalliA 4) (s0.writeA 4 0x80000201#32)) (fun t => (t.pc, t.a[10])) =
    some (0x80000200#32, 0xD0000FFC#32) := by decide +kernel
/-- V15. -/
theorem test_fret : result (exec .fret (stacked.writeA 11 0x80000051#32)) (fun t => (t.pc, t.a[10], t.a[11])) =
    some (0x80000050#32, 0xD0001004#32, 0x80000104#32) := by decide +kernel
/-- R158. -/
theorem test_fret16 : result (exec .fret16 stacked) (fun t => (t.pc, t.a[10], t.a[11])) =
    some (0x80000050#32, 0xD0001004#32, 0x80000104#32) := by decide +kernel
/-- V12. -/
theorem test_svlcx : result (exec .svlcx s0)
    (fun t => (t.pc, t.pcxi, t.fcx, t.mem.readWord 0xD00000C4#32, t.mem.readWord 0xD00000FC#32)) =
    some (0x80000104#32, 0x000D0003#32, 0x000D0004#32, some 0x80000050#32, some 0xD7#32) := by decide +kernel
/-- V13, on the lower context in CSA16. -/
theorem test_rslcx : result (exec .rslcx ((lowerHead.writeD 0 1#32).writeA 2 2#32))
    (fun t => (t.d[0], t.a[2], t.pcxi, t.fcx, t.mem.readWord 0xD0000400#32)) =
    some (0xD0#32, 0xA0000002#32, 0x001D0002#32, 0x000D0010#32, some 0x000D0003#32) := by decide +kernel
/-- V30: the CTYP row of RSLCX. -/
theorem test_rslcx_type : result (exec .rslcx s0) (fun t => (t.pc, t.d[15])) =
    some (0xA0000160#32, 6#32) := by decide +kernel
/-- V16. -/
theorem test_stlcxBo : result (exec (.stlcxBo 4 0#10) s0)
    (fun t => (t.pc, t.mem.readWord 0xD0000400#32, t.mem.readWord 0xD0000420#32)) =
    some (0x80000104#32, some 0x001D0002#32, some 0xD0000400#32) := by decide +kernel
/-- R163, R114. -/
theorem test_stlcxAbs : result (exec (.stlcxAbs 0x34440#18) s0)
    (fun t => (t.mem.readWord 0xD0000440#32, t.mem.readWord 0xD000047C#32)) =
    some (some 0x001D0002#32, some 0xD7#32) := by decide +kernel
/-- V17. -/
theorem test_stucxAbs : result (exec (.stucxAbs 0x34440#18) s0)
    (fun t => (t.mem.readWord 0xD0000444#32, t.mem.readWord 0xD000047C#32)) =
    some (some 0x00000B80#32, some 0xDF#32) := by decide +kernel
/-- V17. -/
theorem test_stucxBo : result (exec (.stucxBo 4 0x3C0#10) s0)
    (fun t => (t.mem.readWord 0xD00003C0#32, t.mem.readWord 0xD00003C8#32)) =
    some (some 0x001D0002#32, some 0xD0001000#32) := by decide +kernel
/-- V17. -/
theorem test_ldlcxBo : result (exec (.ldlcxBo 4 0#10) ((lowerHead.writeD 0 1#32).writeA 11 0x12345678#32))
    (fun t => (t.d[0], t.a[11], t.a[4], t.pcxi)) =
    some (0xD0#32, 0x80000050#32, 0xD0000400#32, 0x000D0010#32) := by decide +kernel
/-- R165, R114. -/
theorem test_ldlcxAbs : result (exec (.ldlcxAbs 0x34400#18) (lowerHead.writeD 7 1#32))
    (fun t => (t.d[7], t.pc)) = some (0xD7#32, 0x80000104#32) := by decide +kernel
/-- V17: PSW and PCXI are not loaded. -/
theorem test_lducxAbs : result (exec (.lducxAbs 0x34080#18) (counted.writeD 15 1#32))
    (fun t => (t.d[15], t.a[10], t.psw, t.pcxi)) =
    some (0xDF#32, 0xD0001000#32, 0x00000B81#32, 0x001D0002#32) := by decide +kernel
/-- R166: A[4] is 0xD0000100, off10 is -128. -/
theorem test_lducxBo : result (exec (.lducxBo 4 0x380#10) ((counted.writeA 4 0xD0000100#32).writeA 12 1#32))
    (fun t => (t.a[12], t.a[15])) = some (0xA000000C#32, 0xA000000F#32) := by decide +kernel
/-- V30: ENABLE in User-1 mode. -/
theorem test_enable : result (exec .enable (s0.setPsw 0x00000480#32)) (fun t => (t.icr, t.pc)) =
    some (0x00008000#32, 0x80000104#32) := by decide +kernel
/-- V30: the PRIV row of ENABLE in User-0 mode. -/
theorem test_enable_user0 : result (exec .enable userMode) (fun t => (t.pc, t.d[15])) =
    some (0xA0000120#32, 1#32) := by decide +kernel
/-- R182. -/
theorem test_disable : result (exec .disable (s0.setIcr 0x00008005#32)) (fun t => t.icr) =
    some 0x00000005#32 := by decide +kernel
/-- P5, step 4. -/
theorem test_disable_user0 : result (exec .disable userMode) (fun t => (t.pc, t.a[10], t.psw)) =
    some (0xA0000120#32, 0xD0002000#32, 0x00000A80#32) := by decide +kernel
/-- V20, on the lists of S0. -/
theorem test_bisr : result (exec (.bisrConst9 5#9) (s0.setIcr 0x00000005#32))
    (fun t => (t.pcxi, t.icr, t.pc)) = some (0x014D0003#32, 0x00008005#32, 0x80000104#32) := by
  decide +kernel
/-- V20: only bits 7:0 of const9 are used (R184). -/
theorem test_bisr_bit8 : result (exec (.bisrConst9 0x105#9) s0) (fun t => t.icr) =
    some 0x00008005#32 := by decide +kernel
/-- V20. -/
theorem test_bisr16 : result (exec (.bisrConst8 5#8) s0) (fun t => (t.icr, t.pc)) =
    some (0x00008005#32, 0x80000102#32) := by decide +kernel
/-- V22, on the context in CSA2. -/
theorem test_rfe : result
    (exec .rfe ((((counted.setPsw 0x00000A80#32).setPcxi 0x003D0002#32).setIcr 0x00000005#32).writeA 11
      0x80000500#32))
    (fun t => (t.icr, t.psw, t.a[11], t.pc)) =
    some (0x00008000#32, 0x10000481#32, 0x80000050#32, 0x80000500#32) := by decide +kernel
/-- V30: the NEST row. -/
theorem test_rfe_nest : result (exec .rfe (s0.setPsw 0x00000B81#32)) (fun t => (t.pc, t.d[15])) =
    some (0xA0000160#32, 7#32) := by decide +kernel
/-- R189. -/
theorem test_rfe16 : result (exec .rfe16 (counted.setPsw 0x00000B80#32)) (fun t => (t.pc, t.fcx)) =
    some (0x80000050#32, 0x000D0002#32) := by decide +kernel
/-- V24: the mask of PSW. -/
theorem test_mtcr : result (exec (.mtcr 0xFE04#16 0) (s0.writeD 0 0xFFFFF7FF#32)) (fun t => t.psw) =
    some 0xFF00F7FF#32 := by decide +kernel
/-- V24: MTCR in User-1 mode. -/
theorem test_mtcr_user1 : result (exec (.mtcr 0xFE38#16 0) (s0.setPsw 0x00000480#32))
    (fun t => (t.pc, t.d[15], t.a[11])) = some (0xA0000120#32, 1#32, 0x80000100#32) := by decide +kernel
/-- V25. -/
theorem test_mfcr : result (exec (.mfcr 2 0xFE2C#16) (userMode.setIcr 0x00038005#32)) (fun t => t.d[2]) =
    some 0x00038005#32 := by decide +kernel
/-- R64: CORE_ID is written in the initialisation state. -/
theorem test_mtcr_coreId : result (exec (.mtcr 0xFE1C#16 0) s0) (fun t => t.core.coreId) = some 0xD0#32 := by
  decide +kernel
/-- R45: PCXI with the layout of V1.3.x, PCPN at 31:24, PIE at 23 and UL at 22, the reserved bits at 21:20. -/
def earlierLayout : Layout :=
  { Reset.layout with
    pcxi := #v[0, 1, 2, 3, 4, 5, 6, 7, 8, 9, 10, 11, 12, 13, 14, 15, 16, 17, 18, 19, 22, 23, 24, 25, 26, 27,
      28, 29, 30, 31, 20, 21] }
/-- S0 on a platform with that layout. -/
def earlier : State := s0.setPlatform { s0.platform with layout := earlierLayout }
/-- R45, R195, R193: PCPN = 5, PIE = 1, UL = 1 as MFCR reads them and as MTCR writes them. -/
theorem test_layout_pcxi : earlierLayout.wf = true ∧
    result (exec (.mfcr 2 0xFE00#16) (earlier.setPcxi (Pcxi.make 5#8 true true 0xD0002#20))) (fun t => t.d[2]) =
      some 0x05CD0002#32 ∧
    result (exec (.mtcr 0xFE00#16 0) (earlier.writeD 0 0x05CD0002#32))
      (fun t => (Pcxi.pcpn t.pcxi, Pcxi.pie t.pcxi, Pcxi.ul t.pcxi, Pcxi.pcx t.pcxi)) =
      some (5#8, true, true, 0xD0002#20) := by decide +kernel
/-- R198. -/
theorem test_isync : result (exec .isync (s0.setIsyncPending true)) (fun t => (t.pc, t.isyncPending)) =
    some (0x80000104#32, false) := by decide +kernel
/-- V26, on the lists of S0. -/
theorem test_syscall : result (exec (.syscall 3#9) ((userMode.setIcr 0x00008000#32).setPc 0x80000300#32))
    (fun t => (t.pc, t.d[15], t.a[11], t.psw, t.icr, t.pcxi)) =
    some (0xA00001C0#32, 3#32, 0x80000304#32, 0x00000A80#32, 0#32, 0x003D0003#32) := by decide +kernel

/-- V21: the step is the interrupt entry. -/
theorem test_interrupt : result (step interrupted)
    (fun t => (t.pc, t.psw, t.a[10], t.a[11], t.pcxi, t.icr)) =
    some (0x800020A0#32, 0x10000A80#32, 0xD0002000#32, 0x80000500#32, 0x003D0003#32, 0x00050005#32) := by
  decide +kernel
/-- V31: the second step of it. -/
theorem test_fcd : result (step (s0.setFcdDeferred true)) (fun t => (t.pc, t.d[15], t.a[11], t.fcdDeferred)) =
    some (0xA0000160#32, 1#32, 0x80000100#32, false) := by decide +kernel
/-- A step fetches, decodes and runs: the word of V10 at pc. -/
theorem test_step_runs_call : result (step (withWord 0x0010006D#32)) (fun t => (t.pc, t.a[11])) =
    some (0x80000120#32, 0x80000104#32) := by decide +kernel

/-- Outside the text the loader declared nothing runs, by the model's choice (log 10); a word given to the step is
declared. -/
theorem test_step_text :
    refusal (step ((withWord 0x0010006D#32).setPlatform { s0.platform with text := [⟨0xA0000000, 16⟩] })) =
      some (.notProgramText 0x80000100#32) ∧
    result (step ((s0.setPc 0xFFFFFFFC#32).withFetchWord 32 0x0010006D)) (fun t => t.pc) =
      some 0x0000001C#32 := by decide +kernel

/-! ### The hypotheses of the obligations can be met -/

/-- `Readable` as a check. -/
def readableCheck (s : State) (ea : Word) (n : Nat) : Bool :=
  (span ea n).all fun a => backed s a && (s.mem.read a.toNat).isSome

/-- `Writable` as a check. -/
def writableCheck (s : State) (ea : Word) (n : Nat) : Bool :=
  (span ea n).all fun a => backed s a && !isText s a

theorem readable_of_check {s : State} {ea : Word} {n : Nat} (h : readableCheck s ea n = true) :
    Readable s ea n := by
  intro a ha
  simpa [readableCheck] using List.all_eq_true.1 h a ha

theorem writable_of_check {s : State} {ea : Word} {n : Nat} (h : writableCheck s ea n = true) :
    Writable s ea n := by
  intro a ha
  simpa [writableCheck] using List.all_eq_true.1 h a ha

theorem canSave_of_checks {s : State} (h0 : pointerOf s.fcx ≠ 0#20)
    (h1 : readableCheck s (csaEA (pointerOf s.fcx)) 4 = true)
    (h2 : writableCheck s (csaEA (pointerOf s.fcx)) 64 = true) : CanSave s :=
  ⟨h0, readable_of_check h1, writable_of_check h2⟩

theorem canRestore_of_checks {s : State} {upper : Bool} (h0 : Pcxi.pcx s.pcxi ≠ 0#20)
    (hu : Pcxi.ul s.pcxi = upper) (h1 : readableCheck s (csaEA (Pcxi.pcx s.pcxi)) 64 = true)
    (h2 : writableCheck s (csaEA (Pcxi.pcx s.pcxi)) 4 = true) : CanRestore upper s :=
  ⟨h0, hu, readable_of_check h1, writable_of_check h2⟩

/-- A next state exists. -/
theorem next_exists {o : Host.Outcome State Fault Refusal} (h : result o (fun _ => ()) = some ()) :
    ∃ t, o = .next t := by
  obtain ⟨t, ht, _⟩ := next_of_result h
  exact ⟨t, ht⟩

/-- A next state exists for which a test says yes. -/
theorem next_where {o : Host.Outcome State Fault Refusal} {f : State → Bool} (h : result o f = some true) :
    ∃ t, o = .next t ∧ f t = true := next_of_result h

/-- The state has PSW as given, so that each mode and each call depth can be tried. -/
def withPsw (w : Word) : State := s0.setPsw w

theorem test_witness_canSave : CanSave s0 :=
  canSave_of_checks (by decide +kernel) (by decide +kernel) (by decide +kernel)

/-- `CanSave` does not look at PSW. -/
theorem canSave_withPsw (w : Word) : CanSave (withPsw w) := test_witness_canSave

theorem test_witness_inv : Inv s0 :=
  ⟨by decide +kernel, by decide, by decide, by decide, by decide, by decide, by decide, by decide, by decide,
    by decide, Layout.wf_reset⟩

theorem test_witness_inv_interrupted : Inv interrupted :=
  ⟨by decide +kernel, by decide, by decide, by decide, by decide, by decide, by decide, by decide, by decide,
    by decide, Layout.wf_reset⟩

theorem test_witness_DecodeInvertsEncode :
    (Instr.mtcr 0xFFFF#16 15).wf = true ∧ (Instr.stucxBo 0 0x3FF#10).wf = true := by decide

theorem test_witness_EncodeInvertsDecode :
    decode [0x6D#8, 0x00#8, 0x10#8, 0x00#8, 0xFF#8] = .ok (.callDisp24 0x10#24, [0xFF#8]) := by decide

theorem test_witness_OutOfScopeSystemWordsRefusedByName :
    [0x0000000D#32, 0x0100000D#32, 0x0380000D#32, 0x03C0000D#32, 0x0480000D#32, 0x0500000D#32, 0x0540000D#32,
      0x0580000D#32, 0xF58FFF0D#32].map (fun w : Word => (w.extractLsb' 0 8, w.extractLsb' 22 6)) =
    [(0x0D#8, 0x00#6), (0x0D#8, 0x04#6), (0x0D#8, 0x0E#6), (0x0D#8, 0x0F#6), (0x0D#8, 0x12#6),
      (0x0D#8, 0x14#6), (0x0D#8, 0x15#6), (0x0D#8, 0x16#6), (0x0D#8, 0x16#6)] := by decide

/-- V29: the lowest and the highest CSA address. -/
theorem test_witness_ContextAddressAlignedAndInvertible :
    (0#32).extractLsb' 22 6 = 0#6 ∧ (0#32).extractLsb' 0 6 = 0#6 ∧
    (0xF03FFFC0#32).extractLsb' 22 6 = 0#6 ∧ (0xF03FFFC0#32).extractLsb' 0 6 = 0#6 ∧
    csaEA 0xFFFFF#20 = 0xF03FFFC0#32 := by decide

theorem test_witness_RelativeTargetsCountHalfwords :
    (0x80000600#32).getLsbD 0 = false ∧ (0xFFFFFFFE#32).getLsbD 0 = false := by decide

/-- V27: bases with the bits under the number clear; the last entry of each table. -/
theorem test_witness_InterruptVectorIsBaseOrShiftedNumber :
    Biv.vss 0x80002000#32 = false ∧ (0x80002000#32).extractLsb' 5 8 = 0#8 ∧
    interruptVector 0x80002000#32 255#8 = 0x80003FE0#32 ∧
    Biv.vss 0x80002001#32 = true ∧ (0x80002001#32).extractLsb' 3 8 = 0#8 ∧
    interruptVector 0x80002001#32 255#8 = 0x800027F8#32 := by decide

/-- V28: counters that do not overflow, the first and the last of them; any counter that counts. -/
theorem test_witness_CallDepthCounterCounts :
    cdcIncOverflows 0b0000000#7 = false ∧ cdcIncOverflows 0b0111110#7 = false ∧
    cdcIncOverflows 0b1111100#7 = false ∧ 0b1111110#7 ≠ 0b1111111#7 := by decide

/-- The word of V10 at pc. -/
theorem test_witness_StepRunsDecodedInstruction :
    RunsInstruction (presentInputs (withWord 0x0010006D#32)) ∧
    BytesAt (presentInputs (withWord 0x0010006D#32)) (withWord 0x0010006D#32).pc
      [0x6D#8, 0x00#8, 0x10#8, 0x00#8] ∧
    decode [0x6D#8, 0x00#8, 0x10#8, 0x00#8] = .ok (.callDisp24 0x10#24, []) ∧
    (withWord 0x0010006D#32).isyncPending = false := by
  unfold RunsInstruction BytesAt
  decide +kernel

/-- ISYNC at pc while an MTCR awaits it. -/
theorem test_witness_StepRunsDecodedInstruction_isync :
    RunsInstruction (presentInputs ((withWord 0x04C0000D#32).setIsyncPending true)) ∧
    BytesAt (presentInputs ((withWord 0x04C0000D#32).setIsyncPending true)) (withWord 0x04C0000D#32).pc
      [0x0D#8, 0x00#8, 0xC0#8, 0x04#8] ∧
    decode [0x0D#8, 0x00#8, 0xC0#8, 0x04#8] = .ok (.isync, []) := by
  unfold RunsInstruction BytesAt
  decide +kernel

/-- The four clauses: the reserved mode; another instruction than ISYNC; a refused halfword (16-bit NOP); a
refused word (NOP). -/
theorem test_witness_StepRefusals :
    Psw.io (withPsw 0x00000F80#32).psw = 0b11#2 ∧
    (RunsInstruction (presentInputs ((withWord 0x0010006D#32).setIsyncPending true)) ∧
      BytesAt (presentInputs ((withWord 0x0010006D#32).setIsyncPending true)) s0.pc
        [0x6D#8, 0x00#8, 0x10#8, 0x00#8] ∧
      decode [0x6D#8, 0x00#8, 0x10#8, 0x00#8] = .ok (.callDisp24 0x10#24, [])) ∧
    (RunsInstruction (presentInputs (withWord 0x00000000#32)) ∧
      BytesAt (presentInputs (withWord 0x00000000#32)) s0.pc [0x00#8, 0x00#8] ∧ isLong 0x00#8 = false ∧
      decode [0x00#8, 0x00#8] = .error (.outOfScope "NOP")) ∧
    (RunsInstruction (presentInputs (withWord 0x0000000D#32)) ∧
      BytesAt (presentInputs (withWord 0x0000000D#32)) s0.pc [0x0D#8, 0x00#8, 0x00#8, 0x00#8] ∧
      isLong 0x0D#8 = true ∧ decode [0x0D#8, 0x00#8, 0x00#8, 0x00#8] = .error (.outOfScope "NOP")) := by
  unfold RunsInstruction BytesAt
  decide +kernel

/-- V23: the first and the last accepted row. -/
theorem test_witness_InterruptTakenWhenAccepted :
    Psw.io interrupted.psw ≠ 0b11#2 ∧ interrupted.fcdDeferred = false ∧ interrupted.isyncPending = false ∧
    Icr.ie (presentInputs interrupted).icr = true ∧
    (Icr.ccpn (presentInputs interrupted).icr).toNat < (Icr.pipn (presentInputs interrupted).icr).toNat ∧
    (Icr.ccpn 0x00FF80FE#32).toNat < (Icr.pipn 0x00FF80FE#32).toNat ∧
    CanSave (presentInputs interrupted) :=
  ⟨by decide, by decide, by decide, by decide, by decide, by decide, test_witness_canSave⟩

theorem test_witness_InterruptedOnlyWhenAccepted :
    ∃ t, step interrupted = .next t ∧ t.acks ≠ interrupted.acks := by
  obtain ⟨t, h, e⟩ := next_of_result (f := fun t => t.acks) (v := [5#8])
    (show result (step interrupted) (fun t => t.acks) = some [5#8] by decide +kernel)
  exact ⟨t, h, by rw [e]; decide⟩

theorem test_witness_DeferredFcdComesFirst :
    Psw.io (s0.setFcdDeferred true).psw ≠ 0b11#2 ∧ (s0.setFcdDeferred true).fcdDeferred = true ∧
    CanSave (presentInputs (s0.setFcdDeferred true)) :=
  ⟨by decide, by decide, test_witness_canSave⟩

theorem test_witness_InterruptEntryEffect : CanSave s0 ∧ CanSave interrupted :=
  ⟨test_witness_canSave, test_witness_canSave⟩

theorem test_witness_TrapEntryEffect : CanSave s0 := test_witness_canSave

/-- An interrupt with PSW.IS = 0, a trap with PSW.IS = 1, and a deferred FCD trap. -/
theorem test_witness_EveryEntryIsInSupervisorMode :
    (∃ t, interruptEntry interrupted = .next t) ∧ Psw.is interrupted.psw = false ∧
    (∃ t, trapEntry .priv s0.pc s0 = .next t) ∧ Psw.is s0.psw = true ∧
    (∃ t, takeDeferredFcd (s0.setFcdDeferred true) = .next t) :=
  ⟨next_exists (by decide +kernel), by decide, next_exists (by decide +kernel), by decide,
    next_exists (by decide +kernel)⟩

theorem test_witness_StackAtEntry :
    (∃ t, interruptEntry interrupted = .next t) ∧ Psw.is interrupted.psw = false ∧
    (∃ t, trapEntry .priv s0.pc s0 = .next t) ∧ Psw.is s0.psw = true :=
  ⟨next_exists (by decide +kernel), by decide, next_exists (by decide +kernel), by decide⟩

theorem test_witness_OuterInterruptStateGoesToTheCsa :
    (∃ t, interruptEntry interrupted = .next t) ∧ (∃ t, trapEntry .csu s0.pc s0 = .next t) :=
  ⟨next_exists (by decide +kernel), next_exists (by decide +kernel)⟩

/-- Both kinds of entry, with `test_witness_inv` and `test_witness_inv_interrupted`. -/
theorem test_witness_EntryThenRfeResumes :
    Inv interrupted ∧ interrupted.pc.getLsbD 0 = false ∧ ResumeForm .rfe ∧ ResumeForm .rfe16 ∧
    (∃ t, interruptEntry interrupted = .next t) ∧ Inv s0 ∧ (s0.pc + 4#32).getLsbD 0 = false ∧
    (∃ t, trapEntry (.sys 255#8) (s0.pc + 4#32) s0 = .next t) :=
  ⟨test_witness_inv_interrupted, by decide, .long, .short, next_exists (by decide +kernel), test_witness_inv,
    by decide, next_exists (by decide +kernel)⟩

theorem test_witness_FreeListUnderflowStopsEverySave :
    pointerOf (s0.setFcx 0#32).fcx = 0#20 ∧ pointerOf (s0.setFcx 0xFFF00000#32).fcx = 0#20 ∧
    CallForm (s0.setFcx 0#32) (.callDisp24 0#24) (relTarget24 s0.pc 0#24) 4#32 ∧
    BisrForm (.bisrConst8 255#8) 255#8 2#32 ∧ Psw.io (s0.setFcx 0#32).psw = 0b10#2 :=
  ⟨by decide, by decide, .disp24 _, .const8 _, by decide⟩

/-- Every form of call, at counters 0 and 62, with counting off and with CDE = 0 at a full counter. -/
theorem test_witness_CallEffect :
    (∀ w, CanSave (withPsw w)) ∧
    CallForm s0 (.callDisp24 0x800000#24) (relTarget24 s0.pc 0x800000#24) 4#32 ∧
    CallForm s0 (.callaDisp24 0#24) (absTarget24 0#24) 4#32 ∧
    CallForm s0 (.calliA (15 : Fin 16).val) (regTarget s0.a[(15 : Fin 16)]) 4#32 ∧
    CallForm s0 (.callDisp8 0x80#8) (relTarget8 s0.pc 0x80#8) 2#32 ∧
    (∀ w, (withPsw w).psw = w) ∧
    ¬ (Psw.cde 0x00000B80#32 = true ∧ cdcIncOverflows (Psw.cdc 0x00000B80#32) = true) ∧
    ¬ (Psw.cde 0x00000BBE#32 = true ∧ cdcIncOverflows (Psw.cdc 0x00000BBE#32) = true) ∧
    ¬ (Psw.cde 0x00000BFF#32 = true ∧ cdcIncOverflows (Psw.cdc 0x00000BFF#32) = true) ∧
    ¬ (Psw.cde 0x00000B3F#32 = true ∧ cdcIncOverflows (Psw.cdc 0x00000B3F#32) = true) :=
  ⟨canSave_withPsw, .disp24 _, .abs24 _, .indirect 15, .disp8 _, fun _ => rfl, by decide, by decide,
    by decide, by decide⟩

theorem test_witness_ReturnEffect :
    ReturnForm .ret ∧ ReturnForm .ret16 ∧ CanRestore true counted ∧
    ¬ (Psw.cde counted.psw = true ∧ cdcDecUnderflows (Psw.cdc counted.psw) = true) :=
  ⟨.long, .short, canRestore_of_checks (by decide) (by decide) (by decide +kernel) (by decide +kernel),
    by decide⟩

theorem test_witness_CallThenReturnRestores :
    Inv s0 ∧ CallForm s0 (.callDisp24 0x10#24) (relTarget24 s0.pc 0x10#24) 4#32 ∧ ReturnForm .ret ∧
    Psw.cde s0.psw = true ∧ cdcIncOverflows (Psw.cdc s0.psw) = false ∧
    ∃ t, exec (.callDisp24 0x10#24) s0 = .next t :=
  ⟨test_witness_inv, .disp24 _, .long, by decide, by decide, next_exists (by decide +kernel)⟩

/-- The three clauses, at counters 63, 0 and 1; each bound of V28. -/
theorem test_witness_CallDepthTraps :
    (∀ w, CanSave (withPsw w)) ∧
    (Psw.cde (withPsw 0x00000BBF#32).psw = true ∧
      cdcIncOverflows (Psw.cdc (withPsw 0x00000BBF#32).psw) = true ∧
      CallForm (withPsw 0x00000BBF#32) (.callDisp8 1#8) (relTarget8 s0.pc 1#8) 2#32) ∧
    (Psw.cde (withPsw 0x00000BFE#32).psw = true ∧
      cdcIncOverflows (Psw.cdc (withPsw 0x00000BFE#32).psw) = true) ∧
    (Psw.cde (withPsw 0x00000B80#32).psw = true ∧
      cdcDecUnderflows (Psw.cdc (withPsw 0x00000B80#32).psw) = true ∧ ReturnForm .ret) ∧
    (Psw.cde (withPsw 0x00000B81#32).psw = true ∧ Pcxi.pcx (withPsw 0x00000B81#32).pcxi ≠ 0#20 ∧
      Pcxi.ul (withPsw 0x00000B81#32).pcxi = true ∧
      cdcZero (Psw.cdc (withPsw 0x00000B81#32).psw) = false ∧ ResumeForm .rfe) :=
  ⟨canSave_withPsw, ⟨by decide, by decide, .disp8 _⟩, ⟨by decide, by decide⟩, ⟨by decide, by decide, .long⟩,
    ⟨by decide, by decide, by decide, by decide, .long⟩⟩

theorem test_witness_NullPreviousListRaisesCsu :
    Pcxi.pcx ((withPsw 0x00000B81#32).setPcxi 0x3FF00000#32).pcxi = 0#20 ∧ ReturnForm .ret ∧ ResumeForm .rfe ∧
    ¬ (Psw.cde (withPsw 0x00000B81#32).psw = true ∧
      cdcDecUnderflows (Psw.cdc (withPsw 0x00000B81#32).psw) = true) :=
  ⟨by decide, .long, .long, by decide⟩

theorem test_witness_WrongContextTypeRaisesCtyp :
    (Pcxi.pcx ((withPsw 0x00000B81#32).setPcxi 0x000D0004#32).pcxi ≠ 0#20 ∧
      Pcxi.ul ((withPsw 0x00000B81#32).setPcxi 0x000D0004#32).pcxi = false ∧
      ¬ (Psw.cde (withPsw 0x00000B81#32).psw = true ∧
        cdcDecUnderflows (Psw.cdc (withPsw 0x00000B81#32).psw) = true) ∧ ReturnForm .ret ∧ ResumeForm .rfe) ∧
    (Pcxi.pcx s0.pcxi ≠ 0#20 ∧ Pcxi.ul s0.pcxi = true) ∧
    (LoadForm lowerHead (.ldlcxAbs 0x34400#18) false (absEA 0x34400#18) ∧
      ∃ t, exec (.ldlcxAbs 0x34400#18) lowerHead = .next t) :=
  ⟨⟨by decide, by decide, by decide, .long, .long⟩, ⟨by decide, by decide⟩,
    ⟨.lowerAbs _, next_exists (by decide +kernel)⟩⟩

theorem test_witness_FastCallEffect :
    FastCallForm s0 (.fcallDisp24 0x20#24) (relTarget24 s0.pc 0x20#24) ∧
    FastCallForm s0 (.fcallaDisp24 0x20#24) (absTarget24 0x20#24) ∧
    FastCallForm s0 (.fcalliA (4 : Fin 16).val) (regTarget s0.a[(4 : Fin 16)]) ∧
    s0.a[10].extractLsb' 0 2 = 0#2 ∧ Writable s0 (s0.a[10] - 4#32) 4 ∧
    Writable (s0.writeA 10 0#32) ((s0.writeA 10 0#32).a[10] - 4#32) 4 :=
  ⟨.disp24 _, .abs24 _, .indirect 4, by decide, writable_of_check (by decide +kernel),
    writable_of_check (by decide +kernel)⟩

theorem test_witness_FastReturnEffect :
    FastReturnForm .fret ∧ FastReturnForm .fret16 ∧ stacked.a[10].extractLsb' 0 2 = 0#2 ∧
    Readable stacked stacked.a[10] 4 :=
  ⟨.long, .short, by decide, readable_of_check (by decide +kernel)⟩

theorem test_witness_FastCallThenReturnRestores :
    s0.pc.getLsbD 0 = false ∧ FastCallForm s0 (.fcallDisp24 0x20#24) (relTarget24 s0.pc 0x20#24) ∧
    FastReturnForm .fret ∧ ∃ t, exec (.fcallDisp24 0x20#24) s0 = .next t :=
  ⟨by decide, .disp24 _, .long, next_exists (by decide +kernel)⟩

/-- The four clauses, a byte off and a halfword off a word, a word off and half a block off a block. -/
theorem test_witness_MisalignedFormsFault :
    (s0.writeA 10 0xD0001001#32).a[10].extractLsb' 0 2 ≠ 0#2 ∧
    (s0.writeA 10 0xD0001002#32).a[10].extractLsb' 0 2 ≠ 0#2 ∧
    FastCallForm (s0.writeA 10 0xD0001001#32) (.fcallaDisp24 0#24) (absTarget24 0#24) ∧ FastReturnForm .fret ∧
    StoreForm s0 (.stucxAbs 0x34404#18) true (absEA 0x34404#18) ∧ (absEA 0x34404#18).extractLsb' 0 6 ≠ 0#6 ∧
    LoadForm s0 (.ldlcxBo (4 : Fin 16).val 0x20#10) false (baseEA s0.a[(4 : Fin 16)] 0x20#10) ∧
    (baseEA s0.a[(4 : Fin 16)] 0x20#10).extractLsb' 0 6 ≠ 0#6 :=
  ⟨by decide +kernel, by decide +kernel, .abs24 _, .long, .upperAbs _, by decide, .lowerBo 4 _,
    by decide +kernel⟩

theorem test_witness_SvlcxEffect : CanSave s0 := test_witness_canSave

theorem test_witness_RslcxEffect : CanRestore false lowerHead :=
  canRestore_of_checks (by decide) (by decide) (by decide +kernel) (by decide +kernel)

theorem test_witness_SvlcxThenRslcxRestores : Inv s0 ∧ ∃ t, exec .svlcx s0 = .next t :=
  ⟨test_witness_inv, next_exists (by decide +kernel)⟩

theorem test_witness_ContextStoreEffect :
    StoreForm s0 (.stlcxAbs 0x34440#18) false (absEA 0x34440#18) ∧
    StoreForm s0 (.stucxAbs 0x34440#18) true (absEA 0x34440#18) ∧
    (absEA 0x34440#18).extractLsb' 0 6 = 0#6 ∧ Writable s0 (absEA 0x34440#18) 64 ∧
    StoreForm s0 (.stlcxBo (4 : Fin 16).val 0x200#10) false (baseEA s0.a[(4 : Fin 16)] 0x200#10) ∧
    StoreForm s0 (.stucxBo (4 : Fin 16).val 0x200#10) true (baseEA s0.a[(4 : Fin 16)] 0x200#10) ∧
    (baseEA s0.a[(4 : Fin 16)] 0x200#10).extractLsb' 0 6 = 0#6 ∧
    Writable s0 (baseEA s0.a[(4 : Fin 16)] 0x200#10) 64 :=
  ⟨.lowerAbs _, .upperAbs _, by decide, writable_of_check (by decide +kernel), .lowerBo 4 _, .upperBo 4 _,
    by decide +kernel, writable_of_check (by decide +kernel)⟩

theorem test_witness_ContextLoadEffect :
    LoadForm lowerHead (.ldlcxAbs 0x34400#18) false (absEA 0x34400#18) ∧
    LoadForm lowerHead (.lducxAbs 0x34400#18) true (absEA 0x34400#18) ∧
    LoadForm lowerHead (.ldlcxBo (4 : Fin 16).val 0#10) false (baseEA lowerHead.a[(4 : Fin 16)] 0#10) ∧
    LoadForm lowerHead (.lducxBo (4 : Fin 16).val 0#10) true (baseEA lowerHead.a[(4 : Fin 16)] 0#10) ∧
    (absEA 0x34400#18).extractLsb' 0 6 = 0#6 ∧ Readable lowerHead (absEA 0x34400#18) 64 ∧
    baseEA lowerHead.a[(4 : Fin 16)] 0#10 = absEA 0x34400#18 :=
  ⟨.lowerAbs _, .upperAbs _, .lowerBo 4 _, .upperBo 4 _, by decide, readable_of_check (by decide +kernel),
    by decide +kernel⟩

/-- Both kinds; the load runs in the state the store leaves. -/
theorem test_witness_ContextStoreThenLoad :
    (∃ t u : State, StoreForm s0 (.stlcxAbs 0x34440#18) false (absEA 0x34440#18) ∧
      LoadForm u (.ldlcxAbs 0x34440#18) false (absEA 0x34440#18) ∧
      exec (.stlcxAbs 0x34440#18) s0 = .next t ∧ u.mem = t.mem ∧ u.platform = t.platform) ∧
    (∃ t u : State, StoreForm s0 (.stucxAbs 0x34440#18) true (absEA 0x34440#18) ∧
      LoadForm u (.lducxAbs 0x34440#18) true (absEA 0x34440#18) ∧
      exec (.stucxAbs 0x34440#18) s0 = .next t ∧ u.mem = t.mem ∧ u.platform = t.platform) := by
  obtain ⟨t, ht⟩ := next_exists (o := exec (.stlcxAbs 0x34440#18) s0) (by decide +kernel)
  obtain ⟨u, hu⟩ := next_exists (o := exec (.stucxAbs 0x34440#18) s0) (by decide +kernel)
  exact ⟨⟨t, t, .lowerAbs _, .lowerAbs _, ht, rfl, rfl⟩, ⟨u, u, .upperAbs _, .upperAbs _, hu, rfl, rfl⟩⟩

/-- Supervisor mode, and User-1 mode with SYSCON.U1_IED = 0. -/
theorem test_witness_EnableDisableEffect :
    Psw.io s0.psw = 0b10#2 ∧
    (Psw.io (withPsw 0x00000480#32).psw = 0b01#2 ∧
      Syscon.u1Ied (withPsw 0x00000480#32).core.syscon = false) := by decide

theorem test_witness_BisrEffect :
    BisrForm (.bisrConst9 0x1FF#9) 0xFF#8 4#32 ∧ BisrForm (.bisrConst8 0#8) 0#8 2#32 ∧
    Psw.io s0.psw = 0b10#2 ∧ CanSave s0 :=
  ⟨.const9 _, .const8 _, by decide, test_witness_canSave⟩

/-- User-0 mode, and User-1 mode with SYSCON.U1_IED = 1. -/
theorem test_witness_PrivilegeViolationsTrap :
    CanSave userMode ∧ Psw.io userMode.psw ≠ 0b10#2 ∧ SupervisorForm (.mtcr 0xFE38#16 (15 : Fin 16).val) ∧
    SupervisorForm (.bisrConst9 5#9) ∧ SupervisorForm (.bisrConst8 5#8) ∧
    ¬ (Psw.io userMode.psw = 0b01#2 ∧ Syscon.u1Ied userMode.core.syscon = false) ∧
    ¬ (Psw.io (0x00000480#32) = 0b01#2 ∧ Syscon.u1Ied 0x00010000#32 = false) :=
  ⟨test_witness_canSave, by decide, .mtcr _ _, .bisrConst9 _, .bisrConst8 _, by decide, by decide⟩

theorem test_witness_RfeEffect :
    ResumeForm .rfe ∧ ResumeForm .rfe16 ∧ CanRestore true (counted.setPsw 0x00000B80#32) ∧
    ¬ (Psw.cde (counted.setPsw 0x00000B80#32).psw = true ∧
      cdcZero (Psw.cdc (counted.setPsw 0x00000B80#32).psw) = false) :=
  ⟨.long, .short, canRestore_of_checks (by decide) (by decide) (by decide +kernel) (by decide +kernel),
    by decide⟩

/-- In User-0 mode. -/
theorem test_witness_SyscallEffect : CanSave userMode := test_witness_canSave

/-- PSW with a legal mode, an ENDINIT and a SAFETY_ENDINIT register. -/
theorem test_witness_MtcrEffect :
    Psw.io s0.psw = 0b10#2 ∧ csfrOfAddr s0 0xFE04#16 = some .psw ∧
    csfrWriteMask .psw = some 0xFF00FFFF#32 ∧ endinitProtects .psw = false ∧
    safetyEndinitProtects .psw = false ∧ Psw.io (csfrFrom s0 .psw s0.d[(0 : Fin 16)]) ≠ 0b11#2 ∧
    csfrOfAddr s0 0xFE28#16 = some .isp ∧ endinitProtects .isp = true ∧ s0.endinit = false ∧
    csfrOfAddr s0 0xFE14#16 = some .syscon ∧ safetyEndinitProtects .syscon = true ∧ s0.safetyEndinit = false := by
  decide +kernel

/-- The five clauses. -/
theorem test_witness_MtcrRefusals :
    Psw.io s0.psw = 0b10#2 ∧ csfrOfAddr s0 0xFF00#16 = none ∧
    csfrOfAddr s0 0xFE08#16 = some .pc ∧ csfrWriteMask .pc = none ∧
    csfrOfAddr s0 0xFE28#16 = some .isp ∧ endinitProtects .isp = true ∧ (s0.setEndinits true true).endinit = true ∧
    csfrOfAddr s0 0xFE14#16 = some .syscon ∧ safetyEndinitProtects .syscon = true ∧
    (s0.setEndinits true true).safetyEndinit = true ∧
    csfrOfAddr s0 0xFE04#16 = some .psw ∧
    Psw.io (csfrFrom s0 .psw (s0.writeD 0 0x00000C00#32).d[(0 : Fin 16)]) = 0b11#2 := by
  decide +kernel

theorem test_witness_MfcrEffect :
    csfrOfAddr s0 0xFE2C#16 = some .icr ∧ csfrOfAddr s0 0xFFFF#16 = none := by decide +kernel

theorem test_witness_MtcrIsyncMfcrReadsBack :
    s0.platform.layout.wf = true ∧ Psw.io s0.psw = 0b10#2 ∧ csfrOfAddr s0 0xFE28#16 = some .isp ∧ csfrWriteMask .isp = some 0xFFFFFFFF#32 ∧
    ∃ t u v, exec (.mtcr 0xFE28#16 (0 : Fin 16).val) s0 = .next t ∧ exec .isync t = .next u ∧
      exec (.mfcr (1 : Fin 16).val 0xFE28#16) u = .next v := by
  obtain ⟨t, ht, e⟩ := next_of_result (o := exec (.mtcr 0xFE28#16 (0 : Fin 16).val) s0)
    (f := fun t => csfrOfAddr t 0xFE28#16) (v := some .isp) (by decide +kernel)
  exact ⟨Layout.wf_reset, by decide, by decide, rfl, t, _, _, ht, rfl, execMfcr_eq_next.2 ⟨.isp, e, rfl⟩⟩

/-- A call, from a state with the invariant. -/
theorem test_witness_StepKeepsInvariant :
    Inv (withWord 0x0010006D#32) ∧ ∃ t, step (withWord 0x0010006D#32) = .next t :=
  ⟨⟨by decide +kernel, by decide, by decide, by decide, by decide, by decide, by decide, by decide, by decide,
    by decide, Layout.wf_reset⟩, next_exists (by decide +kernel)⟩

theorem test_witness_StepKeepsGlobalRegisters : ∃ t, step (withWord 0x0010006D#32) = .next t :=
  test_witness_StepKeepsInvariant.2

/-- MTCR 0xFE28, D[0] at pc: ISP changes. -/
theorem test_witness_CoreRegistersChangeOnlyByMtcr :
    ∃ t, step (withWord 0x0FE280CD#32) = .next t ∧ t.core ≠ (withWord 0x0FE280CD#32).core := by
  obtain ⟨t, h, e⟩ := next_of_result (f := fun t => t.core.isp) (v := 0xD0#32)
    (show result (step (withWord 0x0FE280CD#32)) (fun t => t.core.isp) = some 0xD0#32 by decide +kernel)
  exact ⟨t, h, fun c => absurd (e.symm.trans (congrArg CoreRegs.isp c)) (by decide)⟩

theorem test_witness_PipnBelongsToTheIcu :
    (s0.setInputs [⟨5#8, true, false⟩]).inputs = [⟨5#8, true, false⟩] ∧ s0.inputs = [] ∧
    ∃ t, step ((withWord 0x0010006D#32).setInputs [⟨5#8, true, false⟩]) = .next t :=
  ⟨rfl, rfl, next_exists (by decide +kernel)⟩

/-- One input, and none. -/
theorem test_witness_AgentsAndPlatformAreInputs :
    (s0.setInputs [⟨5#8, true, false⟩]).inputs = [⟨5#8, true, false⟩] ∧ s0.inputs = [] ∧
    ∃ t, step ((withWord 0x0010006D#32).setInputs [⟨5#8, true, false⟩]) = .next t :=
  test_witness_PipnBelongsToTheIcu

/-- The entry of V21 changes ICR.IE and ICR.CCPN. -/
theorem test_witness_InterruptStateChangesOnlyBy :
    ∃ t, step interrupted = .next t ∧ (Icr.ie t.icr ≠ Icr.ie (presentInputs interrupted).icr ∨
      Icr.ccpn t.icr ≠ Icr.ccpn (presentInputs interrupted).icr) := by
  obtain ⟨t, h, e⟩ := next_of_result (f := fun t => t.icr) (v := 0x00050005#32)
    (show result (step interrupted) (fun t => t.icr) = some 0x00050005#32 by decide +kernel)
  exact ⟨t, h, .inl (by rw [e]; decide)⟩

/-- The entry of V21 goes from User-1 mode to Supervisor mode; an MTCR to PSW leaves Supervisor mode. -/
theorem test_witness_ModeChangesOnlyBy :
    (∃ t, step interrupted = .next t ∧ Psw.io t.psw ≠ Psw.io interrupted.psw) ∧
    (∃ t, step (withWord 0x0FE040CD#32) = .next t ∧ Psw.io t.psw ≠ Psw.io (withWord 0x0FE040CD#32).psw) := by
  obtain ⟨t, h, e⟩ := next_of_result (f := fun t => Psw.io t.psw) (v := 0b10#2)
    (show result (step interrupted) (fun t => Psw.io t.psw) = some 0b10#2 by decide +kernel)
  obtain ⟨u, h', e'⟩ := next_of_result (f := fun t => Psw.io t.psw) (v := 0b00#2)
    (show result (step (withWord 0x0FE040CD#32)) (fun t => Psw.io t.psw) = some 0b00#2 by decide +kernel)
  exact ⟨⟨t, h, by rw [e]; decide⟩, ⟨u, h', by rw [e']; decide⟩⟩

/-- The state on a platform with other regions of memory and of text. -/
def withRegions (s : State) (memValid text : List Region) : State :=
  s.setPlatform { s.platform with memValid := memValid, text := text }

theorem not_readable_of_check {s : State} {ea : Word} {n : Nat} (h : readableCheck s ea n = false) :
    ¬ Readable s ea n := by
  intro hr
  have : readableCheck s ea n = true := List.all_eq_true.2 fun a ha => by simpa using hr a ha
  rw [this] at h
  cases h

theorem not_writable_of_check {s : State} {ea : Word} {n : Nat} (h : writableCheck s ea n = false) :
    ¬ Writable s ea n := by
  intro hr
  have : writableCheck s ea n = true := List.all_eq_true.2 fun a ha => by simpa using hr a ha
  rw [this] at h
  cases h

/-- Memory that ends with the link word of CSA3. -/
def edge : State := withRegions s0 [⟨0, 0xD00000C4⟩] Reset.text
/-- Program text in CSA3, in CSA16 and under the stack. -/
def textData : State :=
  withRegions s0 Reset.memValid [⟨0xD00000C0, 64⟩, ⟨0xD0000FFF, 1⟩, ⟨0xD0000400, 1⟩]

/-- Each clause where the memory is not backed, a byte beyond its end, and where it is program text. -/
theorem test_witness_StoresOnlyBackedData_stops :
    (FastCallForm textData (.fcallaDisp24 0#24) (absTarget24 0#24) ∧
      textData.a[10].extractLsb' 0 2 = 0#2 ∧ ¬ Writable textData (textData.a[10] - 4#32) 4) ∧
    (StoreForm textData (.stlcxBo (4 : Fin 16).val 0#10) false (baseEA textData.a[(4 : Fin 16)] 0#10) ∧
      (baseEA textData.a[(4 : Fin 16)] 0#10).extractLsb' 0 6 = 0#6 ∧
      ¬ Writable textData (baseEA textData.a[(4 : Fin 16)] 0#10) 64) ∧
    (pointerOf edge.fcx ≠ 0#20 ∧ Readable edge (csaEA (pointerOf edge.fcx)) 4 ∧
      ¬ Writable edge (csaEA (pointerOf edge.fcx)) 64) ∧
    (Readable (withRegions counted Reset.memValid [⟨0xD0000083, 1⟩])
        (csaEA (Pcxi.pcx (withRegions counted Reset.memValid [⟨0xD0000083, 1⟩]).pcxi)) 64 ∧
      ¬ Writable (withRegions counted Reset.memValid [⟨0xD0000083, 1⟩])
        (csaEA (Pcxi.pcx (withRegions counted Reset.memValid [⟨0xD0000083, 1⟩]).pcxi)) 4) :=
  ⟨⟨.abs24 _, by decide, not_writable_of_check (by decide +kernel)⟩,
    ⟨.lowerBo 4 _, by decide +kernel, not_writable_of_check (by decide +kernel)⟩,
    ⟨by decide, readable_of_check (by decide +kernel), not_writable_of_check (by decide +kernel)⟩,
    ⟨readable_of_check (by decide +kernel), not_writable_of_check (by decide +kernel)⟩⟩

/-- The fetch of a halfword not backed, not written and not text, and of a second halfword likewise; a load past
the end of memory; a restore and a save with nothing written at their CSA. -/
theorem test_witness_ReadsOnlyBackedMemory :
    (RunsInstruction (presentInputs s0) ∧ ¬ Readable (presentInputs s0) s0.pc 2 ∧
      ¬ Readable (presentInputs (withRegions (withWord 0#32) [] Reset.text)) s0.pc 2) ∧
    (Readable (presentInputs (withRegions (withWord 0#32) Reset.memValid [])) s0.pc 2 ∧
      isText (withRegions (withWord 0#32) Reset.memValid []) s0.pc = false) ∧
    (BytesAt (presentInputs (withRegions (withWord 0x0010006D#32) [⟨0, 0x80000102⟩] Reset.text)) s0.pc
        [0x6D#8, 0x00#8] ∧ isLong 0x6D#8 = true ∧
      ¬ Readable (presentInputs (withRegions (withWord 0x0010006D#32) [⟨0, 0x80000102⟩] Reset.text))
        (s0.pc + 2#32) 2) ∧
    (BytesAt (presentInputs (withRegions (withWord 0x0010006D#32) Reset.memValid [⟨0, 0x80000102⟩])) s0.pc
        [0x6D#8, 0x00#8] ∧
      Readable (presentInputs (withRegions (withWord 0x0010006D#32) Reset.memValid [⟨0, 0x80000102⟩]))
        (s0.pc + 2#32) 2 ∧
      isText (withRegions (withWord 0x0010006D#32) Reset.memValid [⟨0, 0x80000102⟩]) (s0.pc + 2#32) = false) ∧
    (FastReturnForm .fret16 ∧ stacked.a[10].extractLsb' 0 2 = 0#2 ∧
      ¬ Readable (withRegions stacked [⟨0, 0xD0001003⟩] []) (withRegions stacked [⟨0, 0xD0001003⟩] []).a[10] 4) ∧
    (LoadForm s0 (.ldlcxAbs 0x34400#18) false (absEA 0x34400#18) ∧ (absEA 0x34400#18).extractLsb' 0 6 = 0#6 ∧
      ¬ Readable s0 (absEA 0x34400#18) 64) ∧
    (Pcxi.pcx s0.pcxi ≠ 0#20 ∧ ¬ Readable s0 (csaEA (Pcxi.pcx s0.pcxi)) 64 ∧ Pcxi.ul s0.pcxi = true ∧
      ¬ (Psw.cde (0x00000B00#32) = true ∧ cdcDecUnderflows (Psw.cdc (0x00000B00#32)) = true) ∧
      ¬ (Psw.cde s0.psw = true ∧ cdcZero (Psw.cdc s0.psw) = false) ∧ Pcxi.ul (0x000D0002#32) = false) ∧
    (pointerOf stacked.fcx ≠ 0#20 ∧ ¬ Readable stacked (csaEA (pointerOf stacked.fcx)) 4 ∧
      Psw.io stacked.psw = 0b10#2) := by
  refine ⟨⟨?_, not_readable_of_check (by decide +kernel), not_readable_of_check (by decide +kernel)⟩,
    ⟨readable_of_check (by decide +kernel), by decide +kernel⟩,
    ⟨?_, by decide, not_readable_of_check (by decide +kernel)⟩,
    ⟨?_, readable_of_check (by decide +kernel), by decide +kernel⟩,
    ⟨.short, by decide, not_readable_of_check (by decide +kernel)⟩,
    ⟨.lowerAbs _, by decide, not_readable_of_check (by decide +kernel)⟩,
    ⟨by decide, not_readable_of_check (by decide +kernel), by decide, by decide, by decide, by decide⟩,
    ⟨by decide, not_readable_of_check (by decide +kernel), by decide⟩⟩
  · unfold RunsInstruction
    decide +kernel
  · unfold BytesAt
    decide +kernel
  · unfold BytesAt
    decide +kernel

/-- The entry of V21 stores into CSA3. -/
theorem test_witness_StoresOnlyBackedData :
    ∃ t, step interrupted = .next t ∧ t.mem.read 0xD00000C0 ≠ interrupted.mem.read 0xD00000C0 := by
  obtain ⟨t, h, e⟩ := next_of_result (f := fun t => t.mem.read 0xD00000C0) (v := some 0x02#8)
    (show result (step interrupted) (fun t => t.mem.read 0xD00000C0) = some (some 0x02#8) by decide +kernel)
  exact ⟨t, h, by rw [e]; decide +kernel⟩

end
end

section
/-! PROOFS. The core registers: the suggested address map and layout, the masks, the protection and the field
of the state each register is (00_scope.md R6; 10_state.md R62, R67 to R69). -/

namespace Sys2Proof.Machine

/-! ### The address map -/

/-- Under CSFR_ADDR as reset suggests it, an address names the register that `Reset.csfrAddr` lists for it. -/
theorem csfrOfAddr_of_resetMap {s : State} (h : s.platform.csfrAddr = State.reset.platform.csfrAddr) :
    csfrOfAddr s = fun addr => Reset.csfrAddr.lookup addr := by
  funext addr
  rw [csfrOfAddr, h]
  rfl

theorem resetMap_coreRegisters :
    [0xFE00#16, 0xFE04#16, 0xFE08#16, 0xFE14#16, 0xFE18#16, 0xFE1C#16, 0xFE20#16, 0xFE24#16, 0xFE28#16,
      0xFE2C#16, 0xFE38#16, 0xFE3C#16].map (fun addr => Reset.csfrAddr.lookup addr) =
    [some .pcxi, some .psw, some .pc, some .syscon, some .cpuId, some .coreId, some .biv, some .btv,
      some .isp, some .icr, some .fcx, some .lcx] := by decide

theorem resetMap_protectedRegisters :
    [0x9400#16, 0x8100#16, 0x8104#16, 0x8108#16, 0x920C#16, 0x9040#16, 0x900C#16, 0x1030#16, 0xE444#16,
      0xE448#16].map (fun addr => Reset.csfrAddr.lookup addr) =
    [some .compat, some .pma0, some .pma1, some .pma2, some .pcon0, some .dcon0, some .smacon, some .segen,
      some .tpsEntry, some .tpsExit] := by decide

/-- No core register lies at the addresses 0xFF00 and 0xFF80. -/
theorem resetMap_unmapped :
    Reset.csfrAddr.lookup 0xFF00#16 = none ∧ Reset.csfrAddr.lookup 0xFF80#16 = none := by decide

/-! ### The layout -/

/-- Bit `k` of a register's value stands in its word at the place LAYOUT gives it. -/
theorem csfrWord_place {s : State} (h : s.platform.layout.wf = true) (r : Csfr) (k : Nat) (hk : k < 32) :
    (csfrWord s r).getLsbD (layoutOf s r)[k].val = (csfrValue s r).getLsbD k :=
  toWord_place (layoutOf_wf h r) (csfrValue s r) k hk

/-- LAYOUT as reset suggests it puts every bit of every register in its own place. -/
theorem layoutOf_of_resetLayout {s : State} (h : s.platform.layout = State.reset.platform.layout) (r : Csfr) :
    layoutOf s r = Places.identity := by
  cases r <;> simp only [layoutOf, h] <;> rfl

theorem csfrWord_of_resetLayout {s : State} (h : s.platform.layout = State.reset.platform.layout) (r : Csfr) :
    csfrWord s r = csfrValue s r := by
  rw [csfrWord, layoutOf_of_resetLayout h, toWord_identity]

theorem csfrFrom_of_resetLayout {s : State} (h : s.platform.layout = State.reset.platform.layout) (r : Csfr)
    (w : Word) : csfrFrom s r w = w := by
  rw [csfrFrom, layoutOf_of_resetLayout h, ofWord_identity]

end Sys2Proof.Machine

open Sys2Proof Sys2Proof.Machine

/-- Settles O10: the address map and the layout by the lemmas above; each mask, each protection list and each
field is an entry of its table. -/
theorem coreRegisterMap : Obligations.CoreRegisterMap := by
  refine ⟨?addresses, ?places, ?suggestedLayout, ?writeMasks, ?wholeWrites, ?readOnly, ?readMasks, ?wholeReads,
    ?endinit, ?safetyEndinit, ?unprotected, ?fields⟩
  case addresses =>
    intro s h
    rw [csfrOfAddr_of_resetMap h]
    exact ⟨resetMap_coreRegisters, resetMap_protectedRegisters, resetMap_unmapped⟩
  case places =>
    intro s r h
    exact ⟨csfrWord_place h r, csfrFrom_csfrWord h rfl r⟩
  case suggestedLayout =>
    intro s r w h
    exact ⟨csfrWord_of_resetLayout h r, csfrFrom_of_resetLayout h r w⟩
  case writeMasks => decide
  case wholeWrites => decide
  case readOnly => decide
  case readMasks => decide
  case wholeReads => decide
  case endinit => decide
  case safetyEndinit => decide
  case unprotected => decide
  case fields =>
    intro s
    simp only [csfrValue, and_self]

end

section
/-! PROOFS. The registers of 10_state.md: the E views, the call depth counter, the values at reset, what presenting
inputs leaves alone, and what every step keeps: the invariant, the system global registers, the core registers
that only MTCR writes, and what belongs to the other agents and the platform. -/

namespace Sys2Proof.Machine

/-! ### The E views (R21) -/

theorem pairLow_ne_pairHigh (k : Fin 8) : pairLow k ≠ pairHigh k := by
  intro e
  have := congrArg Fin.val e
  simp only [pairLow, pairHigh] at this
  omega

theorem writeE_d (s : State) (k : Fin 8) (v : BitVec 64) (r : Fin 16) :
    (s.writeE k v).d[r] = if r = pairHigh k then v.extractLsb' 32 32
      else if r = pairLow k then v.extractLsb' 0 32 else s.d[r] := by
  rw [State.writeE, writeD_d, writeD_d]

theorem writeE_d_pairLow (s : State) (k : Fin 8) (v : BitVec 64) :
    (s.writeE k v).d[pairLow k] = v.extractLsb' 0 32 := by
  rw [writeE_d, if_neg (pairLow_ne_pairHigh k), if_pos rfl]

theorem writeE_d_pairHigh (s : State) (k : Fin 8) (v : BitVec 64) :
    (s.writeE k v).d[pairHigh k] = v.extractLsb' 32 32 := by
  rw [writeE_d, if_pos rfl]

theorem writeE_sameDataExcept (s : State) (k : Fin 8) (v : BitVec 64) :
    SameDataExcept [pairLow k, pairHigh k] s (s.writeE k v) := by
  intro r hr
  have hlow : r ≠ pairLow k := fun e => hr (by simp [e])
  have hhigh : r ≠ pairHigh k := fun e => hr (by simp [e])
  rw [writeE_d, if_neg hhigh, if_neg hlow]

theorem writeE_sameStatus (s : State) (k : Fin 8) (v : BitVec 64) : SameStatus s (s.writeE k v) :=
  ⟨⟨⟨rfl, rfl, rfl, rfl, rfl, rfl⟩, rfl, rfl⟩, ⟨rfl, rfl, rfl⟩, rfl, rfl⟩

/-- A doubleword is its high word followed by its low word. -/
theorem high_append_low (v : BitVec 64) : v.extractLsb' 32 32 ++ v.extractLsb' 0 32 = v := by
  rw [BitVec.extractLsb'_append_extractLsb'_eq_extractLsb' (by omega), BitVec.extractLsb'_eq_self]

theorem readE_writeE (s : State) (k : Fin 8) (v : BitVec 64) : (s.writeE k v).readE k = v := by
  rw [State.readE, writeE_d_pairLow, writeE_d_pairHigh, high_append_low]

theorem readE_writeD_pairLow (s : State) (k : Fin 8) (x : Word) :
    (s.writeD (pairLow k) x).readE k = s.d[pairHigh k] ++ x := by
  rw [State.readE, writeD_d, writeD_d, if_neg (pairLow_ne_pairHigh k).symm, if_pos rfl]

/-! ### The call depth counter (R39, R145) -/

/-- A call that does not overflow leaves the mask alone and adds one to the counter. -/
theorem cdcInc_counts : ∀ c : BitVec 7, c ≠ 0b1111111#7 → cdcIncOverflows c = false →
    cdcBits (cdcInc c) = cdcBits c ∧ cdcCount (cdcInc c) = cdcCount c + 1 := by decide

section
variable {c : BitVec 7} (h : c ≠ 0b1111111#7)
include h

theorem cdcOff_eq_false : cdcOff c = false := by simpa [cdcOff] using h

theorem cdcInc_eq_add_one : cdcInc c = c + 1#7 := by simp [cdcInc, cdcOff_eq_false h]

theorem cdcIncOverflows_iff : cdcIncOverflows c = true ↔ cdcCount c = 2 ^ cdcBits c - 1 := by
  simp [cdcIncOverflows, cdcOff_eq_false h]

theorem cdcDecUnderflows_iff : cdcDecUnderflows c = true ↔ cdcCount c = 0 := by
  simp [cdcDecUnderflows, cdcOff_eq_false h]

theorem cdcZero_iff : cdcZero c = true ↔ cdcCount c = 0 := by
  simp [cdcZero, cdcOff_eq_false h]

end

/-- A counter that has just counted is not at 0, so the return does not underflow. -/
theorem cdcDecUnderflows_of_count_pos {c : BitVec 7} (h : cdcCount c ≠ 0) : cdcDecUnderflows c = false := by
  simp [cdcDecUnderflows, h]

/-! ### The advance of pc -/

section
variable (len : Word) (s : State)
@[simp] theorem advance_a : (advance len s).a = s.a := rfl
@[simp] theorem advance_core : (advance len s).core = s.core := rfl
@[simp] theorem advance_isyncPending : (advance len s).isyncPending = s.isyncPending := rfl
@[simp] theorem advance_endinit : (advance len s).endinit = s.endinit := rfl
@[simp] theorem advance_safetyEndinit : (advance len s).safetyEndinit = s.safetyEndinit := rfl
@[simp] theorem advance_inputs : (advance len s).inputs = s.inputs := rfl
@[simp] theorem advance_platform : (advance len s).platform = s.platform := rfl
end

/-! ### What entries and instructions leave of the system's record -/

theorem trapEntry_sameSystem {trap : Trap} {ret : Word} {s t : State} (h : trapEntry trap ret s = .next t) :
    SameSystem s t := by
  obtain ⟨_, link, _, rfl⟩ := trapEntry_eq_next.1 h
  constructor <;> simp

theorem takeDeferredFcd_sameSystem {s t : State} (h : takeDeferredFcd s = .next t) : SameSystem s t :=
  have ⟨hcore, hisync, hend, hsafe, hin, hplat⟩ := trapEntry_sameSystem h
  ⟨hcore, hisync, hend, hsafe, hin, hplat⟩

theorem interruptEntry_sameSystem {s t : State} (h : interruptEntry s = .next t) : SameSystem s t := by
  obtain ⟨_, link, _, rfl⟩ := interruptEntry_eq_next.1 h
  constructor <;> simp

/-- An MTCR that writes a core register: in Supervisor mode, its ISYNC awaited afterwards (R192, R199). -/
inductive CoreRegisterWritten (s : State) : Instr → State → Prop
  | intro {addr : BitVec 16} {a : Nat} (r : Csfr) (v : Word) (hs : supervisor s = true) :
    CoreRegisterWritten s (.mtcr addr a) (advance 4#32 ((setCsfr s r v).setIsyncPending true))

/-- Only MTCR and ISYNC write the system's record. -/
theorem Effect.system {s t : State} {i : Instr} (h : Effect s i t) :
    SameSystem s t ∨ CoreRegisterWritten s i t ∨ t = advance 4#32 (s.setIsyncPending false) := by
  cases h with
  | trap trap ret h => exact .inl (trapEntry_sameSystem h)
  | mtcr hs hr hm => exact .inr (.inl (.intro _ _ hs))
  | isync => exact .inr (.inr rfl)
  | @load _ upper w =>
    left
    cases upper <;> constructor <;> simp
  | _ =>
    left
    constructor <;> simp [returnedState, resumedState]

/-- Everything a step can do to the system's record, after the agents have presented their inputs. -/
theorem step_system {s t : State} (h : step s = .next t) :
    SameSystem (presentInputs s) t ∨
    (∃ i, fetch (presentInputs s) = .next i ∧ CoreRegisterWritten (presentInputs s) i t) ∨
    t = advance 4#32 ((presentInputs s).setIsyncPending false) := by
  obtain ⟨_, ⟨_, h⟩ | ⟨_, _, h⟩ | ⟨_, _, i, hf, _, h⟩⟩ := coreStep_eq_next.1 h
  · exact .inl (takeDeferredFcd_sameSystem h)
  · exact .inl (interruptEntry_sameSystem h)
  · rcases (exec_effect h).system with h | h | h
    · exact .inl h
    · exact .inr (.inl ⟨i, hf, h⟩)
    · exact .inr (.inr h)

theorem supervisor_iff {s : State} : supervisor s = true ↔ Psw.io s.psw = 0b10#2 := by
  simp [supervisor, Io.supervisor]

/-- An MTCR writes nothing of the agents and the platform. -/
theorem CoreRegisterWritten.keepsAgents {s t : State} {i : Instr} (h : CoreRegisterWritten s i t) :
    t.endinit = s.endinit ∧ t.safetyEndinit = s.safetyEndinit ∧ t.platform = s.platform ∧
      t.inputs = s.inputs := by
  obtain ⟨r, v, _⟩ := h
  simp

/-- The core never writes what belongs to the other agents and the platform. -/
theorem step_keepsAgents {s t : State} (h : step s = .next t) :
    t.endinit = (presentInputs s).endinit ∧ t.safetyEndinit = (presentInputs s).safetyEndinit ∧
      t.platform = (presentInputs s).platform ∧ t.inputs = (presentInputs s).inputs := by
  rcases step_system h with hs | ⟨_, _, hw⟩ | rfl
  · exact ⟨hs.endinit, hs.safetyEndinit, hs.platform, hs.inputs⟩
  · exact hw.keepsAgents
  · exact ⟨rfl, rfl, rfl, rfl⟩

/-! ### The system global registers (R23, R28) -/

/-- A[0], A[1], A[8] and A[9]. -/
def globalRegisters : List (Fin 16) := [0, 1, 8, 9]

/-- Every system global register is as before. -/
def SameGlobals (s t : State) : Prop := ∀ r ∈ globalRegisters, t.a[r] = s.a[r]

/-- The global registers lie outside both contexts and are neither A[10] nor A[11]. -/
theorem globalRegisters_bounds : ∀ r ∈ globalRegisters, r.val < 10 ∧ (r.val < 2 ∨ 8 ≤ r.val ∧ r.val ≠ 11) := by
  decide

theorem trapEntry_sameGlobals {trap : Trap} {ret : Word} {s t : State} (h : trapEntry trap ret s = .next t) :
    SameGlobals s t := by
  obtain ⟨_, link, _, rfl⟩ := trapEntry_eq_next.1 h
  intro r hr
  rw [State.setPc_a, State.writeD_a, enterHandler_a _ _ _ r (globalRegisters_bounds r hr).1, savedState_a]

theorem interruptEntry_sameGlobals {s t : State} (h : interruptEntry s = .next t) : SameGlobals s t := by
  obtain ⟨_, link, _, rfl⟩ := interruptEntry_eq_next.1 h
  intro r hr
  rw [State.setPc_a, State.setAcks_a, State.setIcr_a,
    enterHandler_a _ _ _ r (globalRegisters_bounds r hr).1, savedState_a]

/-- An instruction writes address registers only of a context, or A[10] and A[11]. -/
theorem Effect.sameGlobals {s t : State} {i : Instr} (h : Effect s i t) : SameGlobals s t := by
  intro r hr
  obtain ⟨hupper, hlower⟩ := globalRegisters_bounds r hr
  have h10 : r ≠ 10 := fun e => by subst e; revert hupper; decide
  have h11 : r ≠ 11 := fun e => by subst e; revert hupper; decide
  cases h with
  | trap trap ret h => exact trapEntry_sameGlobals h r hr
  | call =>
    rw [State.setPc_a, writeA_a, if_neg h11, State.setPsw_a, forgetUpper_a _ r (by omega), savedState_a]
  | ret => rw [returnedState, State.setPc_a, State.setPsw_a, assignUpper_a _ _ r hupper, restoredState_a]
  | rfe =>
    rw [resumedState, State.setPc_a, State.setIcr_a, State.setPsw_a, assignUpper_a _ _ r hupper, restoredState_a]
  | fastCall =>
    rw [State.setPc_a, writeA_a, if_neg h10, writeA_a, if_neg h11, State.setMem_a]
  | fastReturn => rw [State.setPc_a, writeA_a, if_neg h10, writeA_a, if_neg h11]
  | rslcx => rw [advance_a, assignLower_a _ _ r hlower, restoredState_a]
  | @load _ upper =>
    cases upper
    · exact assignLower_a _ s r hlower
    · exact assignUpper_a _ s r hupper
  | svlcx | store | enable | disable | bisr | mtcr | mfcr | isync => simp

theorem step_sameGlobals {s t : State} (h : step s = .next t) : SameGlobals (presentInputs s) t := by
  obtain ⟨_, ⟨_, h⟩ | ⟨_, _, h⟩ | ⟨_, _, i, _, _, h⟩⟩ := coreStep_eq_next.1 h
  · exact fun r hr => trapEntry_sameGlobals h r hr
  · exact interruptEntry_sameGlobals h
  · exact (exec_effect h).sameGlobals

/-! ### The invariant under each update and each operation -/

theorem Inv.setDs {s : State} (h : Inv s) (v : Vector Word 16) : Inv (s.setDs v) :=
  h.congr rfl rfl rfl rfl rfl rfl rfl rfl rfl rfl

theorem Inv.setAs {s : State} (h : Inv s) (v : Vector Word 16) : Inv (s.setAs v) :=
  h.congr rfl rfl rfl rfl rfl rfl rfl rfl rfl rfl

theorem Inv.setAcks {s : State} (h : Inv s) (v : List (BitVec 8)) : Inv (s.setAcks v) :=
  h.congr rfl rfl rfl rfl rfl rfl rfl rfl rfl rfl

theorem Inv.setFreeCount {s : State} (h : Inv s) (n : Nat) : Inv (s.setFreeCount n) :=
  h.congr rfl rfl rfl rfl rfl rfl rfl rfl rfl rfl

theorem Inv.setInputs {s : State} (h : Inv s) (v : List AgentInput) : Inv (s.setInputs v) :=
  h.congr rfl rfl rfl rfl rfl rfl rfl rfl rfl rfl

theorem Inv.setEndinits {s : State} (h : Inv s) (e e' : Bool) : Inv (s.setEndinits e e') :=
  h.congr rfl rfl rfl rfl rfl rfl rfl rfl rfl rfl

theorem Inv.writeD {s : State} (h : Inv s) (i : Fin 16) (v : Word) : Inv (s.writeD i v) := h.setDs _

theorem Inv.writeA {s : State} (h : Inv s) (i : Fin 16) (v : Word) : Inv (s.writeA i v) := h.setAs _

theorem Inv.forgetUpper {s : State} (h : Inv s) : Inv (forgetUpper s) :=
  ((h.setAs _).setDs _).setFreeCount _

theorem Inv.assignUpper {s : State} (h : Inv s) (w : Vector Word 16) : Inv (assignUpper w s) :=
  (h.setAs _).setDs _

theorem Inv.assignLower {s : State} (h : Inv s) (w : Vector Word 16) : Inv (assignLower w s) :=
  (h.setAs _).setDs _

/-- With no FCD trap deferred the pending ISYNC is free. -/
theorem Inv.setIsyncPending {s : State} (h : Inv s) {b : Bool} (hb : b = true → s.fcdDeferred = false) :
    Inv (s.setIsyncPending b) :=
  ⟨h.memory, h.pcEven, h.psw, h.pcxi, h.fcx, h.lcx, h.icr, h.btv, h.syscon,
    fun ⟨hd, hp⟩ => by simp [hb hp] at hd, h.layout⟩

theorem Inv.clearFcdDeferred {s : State} (h : Inv s) : Inv (s.setFcdDeferred false) :=
  ⟨h.memory, h.pcEven, h.psw, h.pcxi, h.fcx, h.lcx, h.icr, h.btv, h.syscon, fun ⟨hd, _⟩ => by simp at hd,
    h.layout⟩

theorem Inv.isyncPending_of_fcdDeferred {s : State} (h : Inv s) (hd : s.fcdDeferred = true) :
    s.isyncPending = false := by
  cases hp : s.isyncPending with
  | false => rfl
  | true => exact absurd ⟨hd, hp⟩ h.pending

theorem Inv.presentInputs {s : State} (h : Inv s) : Inv (presentInputs s) := by
  cases hi : s.inputs with
  | nil => rwa [presentInputs_nil s hi]
  | cons x xs =>
    rw [presentInputs_cons s hi]
    exact ((h.setInputs xs).setIcr (setPipn_reserved _ h.icr)).setEndinits _ _

/-! ### The invariant under a write of a core register -/

/-- The invariant keeps the bits of a core register 0 that MFCR does not read: they are the reserved ones
(R195). -/
theorem Inv.csfrValue_reserved {s : State} (h : Inv s) (r : Csfr) :
    csfrValue s r &&& ~~~csfrReadMask r = 0#32 := by
  cases r with
  | psw => exact h.psw
  | pcxi => exact h.pcxi
  | fcx => exact h.fcx
  | lcx => exact h.lcx
  | icr => exact h.icr
  | btv => exact h.btv
  | syscon => exact h.syscon
  | _ => exact BitVec.and_zero

/-- No write mask holds a reserved bit (R193). -/
theorem csfrWriteMask_reserved {r : Csfr} {mask : Word} (h : csfrWriteMask r = some mask) :
    mask &&& ~~~csfrReadMask r = 0#32 := by
  cases r <;> cases h <;> decide

/-- A masked write of one core register leaves the reserved bits of every core register 0. -/
theorem Inv.setCsfr_reserved {s : State} (h : Inv s) {r : Csfr} {mask : Word}
    (hm : csfrWriteMask r = some mask) (v : Word) (q : Csfr) :
    csfrValue (setCsfr s r (maskedWrite mask (csfrValue s r) v)) q &&& ~~~csfrReadMask q = 0#32 := by
  by_cases e : q = r
  · subst e
    rw [csfrValue_setCsfr_same hm]
    exact maskedWrite_reserved (h.csfrValue_reserved q) (csfrWriteMask_reserved hm)
  · rw [csfrValue_setCsfr_other e]
    exact h.csfrValue_reserved q

theorem Inv.setCsfr {s : State} (h : Inv s) {r : Csfr} {mask : Word} (hm : csfrWriteMask r = some mask)
    (v : Word) : Inv (setCsfr s r (maskedWrite mask (csfrValue s r) v)) where
  memory := by simpa using h.memory
  pcEven := by simpa using h.pcEven
  psw := h.setCsfr_reserved hm v .psw
  pcxi := h.setCsfr_reserved hm v .pcxi
  fcx := h.setCsfr_reserved hm v .fcx
  lcx := h.setCsfr_reserved hm v .lcx
  icr := h.setCsfr_reserved hm v .icr
  btv := h.setCsfr_reserved hm v .btv
  syscon := h.setCsfr_reserved hm v .syscon
  pending := by simpa using h.pending
  layout := by simpa using h.layout

/-! ### The invariant under entries and instructions -/

theorem BisrForm.len_even {i : Instr} {p : BitVec 8} {len : Word} (h : BisrForm i p len) :
    len.getLsbD 0 = false := by
  cases h <;> rfl

section
variable {s t : State} (h : Inv s) (hn : s.isyncPending = false)
include h hn

theorem Inv.trapEntry {trap : Trap} {ret : Word} (ht : trapEntry trap ret s = .next t) : Inv t := by
  obtain ⟨_, link, _, rfl⟩ := trapEntry_eq_next.1 ht
  exact (((h.savedState hn true link).enterHandler ret _).writeD _ _).setPc (trapVector_even _ _)

theorem Inv.interruptEntry (ht : interruptEntry s = .next t) : Inv t := by
  obtain ⟨_, link, _, rfl⟩ := interruptEntry_eq_next.1 ht
  exact ((((h.savedState hn true link).enterHandler s.pc _).setIcr
    (setCcpn_reserved _ (setIe_reserved _ h.icr))).setAcks _).setPc (interruptVector_even _ _)

theorem Inv.returnedState (w : Vector Word 16) : Inv (returnedState w s) :=
  (((h.restoredState hn w).assignUpper w).setPsw (pswImplemented_reserved _)).setPc (evenBase_even _)

theorem Inv.resumedState (w : Vector Word 16) : Inv (resumedState w s) :=
  ((((h.restoredState hn w).assignUpper w).setPsw (pswImplemented_reserved _)).setIcr
    (setCcpn_reserved _ (setIe_reserved _ h.icr))).setPc (evenBase_even _)

/-- An instruction that runs while nothing is pending keeps the invariant. -/
theorem Inv.effect (hd : s.fcdDeferred = false) {i : Instr} (he : Effect s i t) : Inv t := by
  cases he with
  | trap trap ret ht => exact h.trapEntry hn ht
  | @call _ _ _ link _ _ ht =>
    exact (((h.savedState hn true link).forgetUpper.setPsw (callPsw_reserved h.psw)).writeA _ _).setPc
      (ht h.pcEven)
  | ret => exact h.returnedState hn _
  | rfe => exact h.resumedState hn _
  | fastCall _ ht =>
    exact (((h.setMem (Memory.wf_writeWord h.memory _ _)).writeA _ _).writeA _ _).setPc (ht h.pcEven)
  | fastReturn => exact ((h.writeA _ _).writeA _ _).setPc (evenBase_even _)
  | svlcx => exact (h.savedState hn false _).advance rfl
  | rslcx => exact ((h.restoredState hn _).assignLower _).advance rfl
  | store => exact (h.setMem (Memory.wf_writeWords h.memory _ _)).advance rfl
  | @load _ upper w =>
    cases upper
    · exact (h.assignLower w).advance rfl
    · exact (h.assignUpper w).advance rfl
  | enable => exact (h.setIcr (setIe_reserved _ h.icr)).advance rfl
  | disable => exact (h.setIcr (setIe_reserved _ h.icr)).advance rfl
  | bisr hi =>
    exact ((h.savedState hn false _).setIcr (setCcpn_reserved _ (setIe_reserved _ h.icr))).advance hi.len_even
  | mtcr _ _ hm =>
    exact ((h.setCsfr hm _).setIsyncPending fun _ => by rw [setCsfr_fcdDeferred, hd]).advance rfl
  | mfcr => exact (h.writeD _ _).advance rfl
  | isync => exact (h.setIsyncPending fun e => by cases e).advance rfl

end

/-- The instruction of a step keeps the invariant: while an ISYNC is awaited it is the ISYNC. -/
theorem Inv.exec {s t : State} (h : Inv s) (hd : s.fcdDeferred = false) {i : Instr}
    (hw : awaitsIsync i s = false) (he : exec i s = .next t) : Inv t := by
  cases hp : s.isyncPending with
  | false => exact h.effect hp hd (exec_effect he)
  | true =>
    have hi : i = .isync := by simpa [awaitsIsync, hp] using hw
    subst hi
    cases he
    exact (h.setIsyncPending fun e => by cases e).advance rfl

theorem interruptTaken_isyncPending {s : State} (h : interruptTaken s = true) : s.isyncPending = false := by
  simp only [interruptTaken, Bool.and_eq_true, Bool.not_eq_true'] at h
  exact h.2

theorem Inv.coreStep {s t : State} (h : Inv s) (hs : coreStep s = .next t) : Inv t := by
  obtain ⟨_, ⟨hd, ht⟩ | ⟨_, hi, ht⟩ | ⟨hd, _, i, _, hw, he⟩⟩ := coreStep_eq_next.1 hs
  · exact h.clearFcdDeferred.trapEntry (h.isyncPending_of_fcdDeferred hd) ht
  · exact h.interruptEntry (interruptTaken_isyncPending hi) ht
  · exact h.exec hd hw he

end Sys2Proof.Machine

open Sys2Proof Sys2Proof.Machine

/-- Settles O52: presenting inputs keeps the invariant, and so does what the core then does. -/
theorem stepKeepsInvariant : Obligations.StepKeepsInvariant :=
  fun _ _ h hs => h.presentInputs.coreStep hs

/-- Settles O53: of the address registers a step writes only those of a context, A[10] and A[11]. -/
theorem stepKeepsGlobalRegisters : Obligations.StepKeepsGlobalRegisters := by
  intro s t h
  have hg := step_sameGlobals h
  rw [SameGlobals, presentInputs_a] at hg
  exact ⟨hg 0 (by decide), hg 1 (by decide), hg 8 (by decide), hg 9 (by decide)⟩

/-- Settles O11: reading after the write of the one and of the other register. -/
theorem extendedDataRegistersAreViews : Obligations.ExtendedDataRegistersAreViews :=
  fun s k v x => ⟨rfl, rfl, rfl, readE_writeE s k v, writeE_d_pairLow s k v, writeE_d_pairHigh s k v,
    writeE_sameDataExcept s k v, rfl, rfl, rfl, writeE_sameStatus s k v, readE_writeD_pairLow s k x⟩

/-- Settles O54: of all a step can do, only the write of an MTCR changes a core register of the record. -/
theorem coreRegistersChangeOnlyByMtcr : Obligations.CoreRegistersChangeOnlyByMtcr := by
  intro s t h hc
  rcases step_system h with hs | ⟨i, hf, hw⟩ | rfl
  · exact absurd (hs.core.trans (presentInputs_core s)) hc
  · obtain ⟨r, v, hs⟩ := hw
    exact ⟨presentInputs_psw s ▸ supervisor_iff.1 hs, rfl, _, _, hf⟩
  · exact absurd (presentInputs_core s) hc

/-- Settles O56: what presenting inputs leaves, field by field, and that the core keeps what the agents and the
platform own. -/
theorem agentsAndPlatformAreInputs : Obligations.AgentsAndPlatformAreInputs := by
  refine ⟨?presented, presentInputs_nil, ?stepped⟩
  case presented =>
    intro s x xs h
    have hicr : ∀ j, (j < 16 ∨ 24 ≤ j) → (presentInputs s).icr.getLsbD j = s.icr.getLsbD j := by
      intro j hj
      rw [presentInputs_cons s h]
      exact (Icr.getLsbD_setPipn _ _ j).trans (if_neg (by omega))
    have hend : (presentInputs s).endinit = x.endinit := by rw [presentInputs_cons s h]; rfl
    have hsafe : (presentInputs s).safetyEndinit = x.safetyEndinit := by rw [presentInputs_cons s h]; rfl
    exact ⟨hend, hsafe, hicr, ⟨presentInputs_d s, presentInputs_a s⟩, presentInputs_pc s, presentInputs_psw s,
      ⟨presentInputs_pcxi s, presentInputs_fcx s, presentInputs_fcdDeferred s⟩, presentInputs_core s,
      presentInputs_mem s, presentInputs_isyncPending s, presentInputs_acks s, presentInputs_platform s,
      presentInputs_freeCount s⟩
  case stepped =>
    intro s t h
    obtain ⟨hend, hsafe, hplat, hin⟩ := step_keepsAgents h
    exact ⟨hend, hsafe, hplat.trans (presentInputs_platform s), hin.trans (presentInputs_inputs s)⟩

/-- Settles O9: counting and the bounds by the lemmas above; each mask's width is an entry of a table. -/
theorem callDepthCounterCounts : Obligations.CallDepthCounterCounts := by
  refine ⟨?counts, ?bounds, ?off⟩
  case counts =>
    intro c hc ho
    obtain ⟨hbits, hcount⟩ := cdcInc_counts c hc ho
    exact ⟨cdcInc_eq_add_one hc, hbits, hcount, cdcDecUnderflows_of_count_pos (by omega)⟩
  case bounds => exact fun c hc => ⟨cdcIncOverflows_iff hc, cdcDecUnderflows_iff hc, cdcZero_iff hc⟩
  case off => decide

/-- Settles O12: each value is an entry of the record RESET (R72), each PSW field a slice of its word. -/
theorem resetValues : Obligations.ResetValues := by
  unfold Obligations.ResetValues
  decide

end

section
/-! PROOFS. Memory (20_memory.md): the address of a CSA (R83, R84), the alignment an access needs (R95), the bytes a
step may change, and where reads and writes stop (R80, R104). -/

namespace Sys2Proof.Machine

/-! ### The address of a CSA (R83, R84) -/

section
variable (p : BitVec 20)

theorem csaEA_segment : (csaEA p).extractLsb' 28 4 = p.extractLsb' 16 4 := by
  rw [csaEA, BitVec.extractLsb'_append_eq_of_le (by omega), BitVec.extractLsb'_append_eq_of_le (by omega),
    BitVec.extractLsb'_append_eq_left]

theorem csaEA_high_zero : (csaEA p).extractLsb' 22 6 = 0#6 := by
  rw [csaEA, BitVec.extractLsb'_append_eq_of_le (by omega), BitVec.extractLsb'_append_eq_of_le (by omega),
    BitVec.extractLsb'_append_eq_right]

theorem csaEA_offset : (csaEA p).extractLsb' 6 16 = p.extractLsb' 0 16 := by
  rw [csaEA, BitVec.extractLsb'_append_eq_of_le (by omega), BitVec.extractLsb'_append_eq_right]

theorem csaEA_low_zero : (csaEA p).extractLsb' 0 6 = 0#6 := BitVec.extractLsb'_append_eq_right

end

/-- A word is its segment, its offset and the two fields that are 0 in the address of a CSA. -/
theorem word_eq_csaFields (a : Word) :
    a.extractLsb' 28 4 ++ a.extractLsb' 22 6 ++ a.extractLsb' 6 16 ++ a.extractLsb' 0 6 = a := by
  rw [BitVec.extractLsb'_append_extractLsb'_eq_extractLsb' (by rfl),
    BitVec.extractLsb'_append_extractLsb'_eq_extractLsb' (by rfl),
    BitVec.extractLsb'_append_extractLsb'_eq_extractLsb' (by rfl)]
  exact BitVec.extractLsb'_eq_self

/-- R83's inverse: the pointer made of an address's segment and offset names that address. -/
theorem csaEA_inverse {a : Word} (hhigh : a.extractLsb' 22 6 = 0#6) (hlow : a.extractLsb' 0 6 = 0#6) :
    csaEA (a.extractLsb' 28 4 ++ a.extractLsb' 6 16) = a :=
  calc csaEA (a.extractLsb' 28 4 ++ a.extractLsb' 6 16)
      = a.extractLsb' 28 4 ++ 0#6 ++ a.extractLsb' 6 16 ++ 0#6 := by
        rw [csaEA, BitVec.extractLsb'_append_eq_left, BitVec.extractLsb'_append_eq_right]
    _ = a.extractLsb' 28 4 ++ a.extractLsb' 22 6 ++ a.extractLsb' 6 16 ++ a.extractLsb' 0 6 := by
        rw [hhigh, hlow]
    _ = a := word_eq_csaFields a

/-! ### Alignment (R95) -/

theorem wordAligned_iff {v : Word} : wordAligned v = true ↔ v.extractLsb' 0 2 = 0#2 := by simp [wordAligned]

theorem blockAligned_iff {ea : Word} : blockAligned ea = true ↔ ea.extractLsb' 0 6 = 0#6 := by
  simp [blockAligned]

section
variable {s : State} {target ea : Word} {form : AlignedForm} {upper : Bool}

theorem fastCallTo_misaligned (h : s.a[10].extractLsb' 0 2 ≠ 0#2) :
    fastCallTo target s = .fault (.misaligned .fcall (fastCallSlot s)) :=
  if_neg (mt wordAligned_iff.1 h)

theorem fastReturn_misaligned (h : s.a[10].extractLsb' 0 2 ≠ 0#2) :
    fastReturn s = .fault (.misaligned .fret s.a[10]) :=
  if_neg (mt wordAligned_iff.1 h)

theorem storeContext_misaligned (h : ea.extractLsb' 0 6 ≠ 0#6) :
    storeContext form upper ea s = .fault (.misaligned form ea) :=
  if_neg (mt blockAligned_iff.1 h)

theorem loadContext_misaligned (h : ea.extractLsb' 0 6 ≠ 0#6) :
    loadContext form upper ea s = .fault (.misaligned form ea) :=
  if_neg (mt blockAligned_iff.1 h)

/-! ### Aligned accesses that stop -/

theorem fastCallTo_stops (h : s.a[10].extractLsb' 0 2 = 0#2) (hw : ¬ Writable s (fastCallSlot s) 4) :
    StopsUnwritten (fastCallTo target s) s (fastCallSlot s) 4 := by
  rw [fastCallTo, if_pos (wordAligned_iff.2 h)]
  exact (storeWord_stops _ hw).andThen _

theorem fastReturn_stops (h : s.a[10].extractLsb' 0 2 = 0#2) (hr : ¬ Readable s s.a[10] 4) :
    StopsUnread (fastReturn s) .load s s.a[10] 4 := by
  rw [fastReturn, if_pos (wordAligned_iff.2 h)]
  exact (loadWord_stops hr).andThen _

theorem storeContext_stops (h : ea.extractLsb' 0 6 = 0#6) (hw : ¬ Writable s ea 64) :
    StopsUnwritten (storeContext form upper ea s) s ea 64 := by
  rw [storeContext, if_pos (blockAligned_iff.2 h)]
  exact (storeBlock_stops _ hw).andThen _

theorem loadContext_stops (h : ea.extractLsb' 0 6 = 0#6) (hr : ¬ Readable s ea 64) :
    StopsUnread (loadContext form upper ea s) .load s ea 64 := by
  rw [loadContext, if_pos (blockAligned_iff.2 h)]
  exact (loadBlock_stops hr).andThen _

end

/-! ### Saves that stop: the link word is read first, then the CSA is written -/

section
variable {s : State} {upper : Bool} (h0 : pointerOf s.fcx ≠ 0#20)
include h0

theorem saveContext_stopsUnwritten (hr : Readable s (csaEA (pointerOf s.fcx)) 4)
    (hw : ¬ Writable s (csaEA (pointerOf s.fcx)) 64) :
    StopsUnwritten (saveContext upper s) s (csaEA (pointerOf s.fcx)) 64 := by
  have hl := loadWord_eq_next.2 ⟨hr, readWord_of_readable hr⟩
  rw [saveContext, if_neg h0, hl, andThen_next]
  exact (storeBlock_stops _ hw).andThen _

variable (hr : ¬ Readable s (csaEA (pointerOf s.fcx)) 4)
include hr

theorem saveContext_stopsUnread : StopsUnread (saveContext upper s) .load s (csaEA (pointerOf s.fcx)) 4 := by
  rw [saveContext, if_neg h0]
  exact (loadWord_stops hr).andThen _

theorem trapEntry_stopsUnread (trap : Trap) (ret : Word) :
    StopsUnread (trapEntry trap ret s) .load s (csaEA (pointerOf s.fcx)) 4 :=
  (saveContext_stopsUnread h0 hr).andThen _

theorem interruptEntry_stopsUnread : StopsUnread (interruptEntry s) .load s (csaEA (pointerOf s.fcx)) 4 :=
  (saveContext_stopsUnread h0 hr).andThen _

theorem execSvlcx_stopsUnread : StopsUnread (execSvlcx s) .load s (csaEA (pointerOf s.fcx)) 4 :=
  (saveContext_stopsUnread h0 hr).andThen _

/-- A call reads the link word whether it saves for itself or for the CDO trap. -/
theorem callTo_stopsUnread (target len : Word) :
    StopsUnread (callTo target len s) .load s (csaEA (pointerOf s.fcx)) 4 := by
  rw [callTo, if_neg h0]
  split
  · exact trapEntry_stopsUnread h0 hr .cdo s.pc
  · exact (saveContext_stopsUnread h0 hr).andThen _

theorem beginIsr_stopsUnread (hs : Psw.io s.psw = 0b10#2) (p : BitVec 8) (len : Word) :
    StopsUnread (beginIsr p len s) .load s (csaEA (pointerOf s.fcx)) 4 := by
  rw [beginIsr, if_pos (supervisor_iff.2 hs)]
  exact (saveContext_stopsUnread h0 hr).andThen _

end

/-! ### Restores that stop: the CSA is read first, then its link word is written -/

theorem restoreContext_stopsUnwritten {s : State} (hr : Readable s (csaEA (Pcxi.pcx s.pcxi)) 64)
    (hw : ¬ Writable s (csaEA (Pcxi.pcx s.pcxi)) 4) :
    StopsUnwritten (restoreContext s) s (csaEA (Pcxi.pcx s.pcxi)) 4 := by
  obtain ⟨w, hwords⟩ := wordsAt_of_readable hr
  rw [restoreContext, loadBlock_eq_next.2 ⟨hr, hwords⟩, andThen_next]
  exact (storeWord_stops _ hw).andThen _

section
variable {s : State} (hr : ¬ Readable s (csaEA (Pcxi.pcx s.pcxi)) 64)
include hr

theorem restoreContext_stopsUnread :
    StopsUnread (restoreContext s) .load s (csaEA (Pcxi.pcx s.pcxi)) 64 :=
  (loadBlock_stops hr).andThen _

variable (h0 : Pcxi.pcx s.pcxi ≠ 0#20)
include h0

theorem returnFromCall_stopsUnread (hul : Pcxi.ul s.pcxi = true)
    (hcdu : ¬ (Psw.cde s.psw = true ∧ cdcDecUnderflows (Psw.cdc s.psw) = true)) :
    StopsUnread (returnFromCall s) .load s (csaEA (Pcxi.pcx s.pcxi)) 64 := by
  rw [returnFromCall, if_neg (by simpa using hcdu), if_neg h0, if_neg (by simp [hul])]
  exact (restoreContext_stopsUnread hr).andThen _

theorem returnFromException_stopsUnread (hul : Pcxi.ul s.pcxi = true)
    (hnest : ¬ (Psw.cde s.psw = true ∧ cdcZero (Psw.cdc s.psw) = false)) :
    StopsUnread (returnFromException s) .load s (csaEA (Pcxi.pcx s.pcxi)) 64 := by
  rw [returnFromException, if_neg h0, if_neg (by simp [hul]), if_neg (by simpa using hnest)]
  exact (restoreContext_stopsUnread hr).andThen _

theorem execRslcx_stopsUnread (hul : Pcxi.ul s.pcxi = false) :
    StopsUnread (execRslcx s) .load s (csaEA (Pcxi.pcx s.pcxi)) 64 := by
  rw [execRslcx, if_neg h0, if_neg (by simp [hul])]
  exact (restoreContext_stopsUnread hr).andThen _

end

/-! ### The fetch of a step that runs an instruction -/

@[simp] theorem presentInputs_backed (s : State) : backed (presentInputs s) = backed s := by
  funext a
  simp [backed]

@[simp] theorem presentInputs_isText (s : State) : isText (presentInputs s) = isText s := by
  funext a
  simp [isText]

theorem RunsInstruction.coreStep_eq {s : State} (h : RunsInstruction s) :
    coreStep s = andThen (fetch s) fun i => if awaitsIsync i s then .refused .isyncMissing else exec i s := by
  obtain ⟨hio, hfcd, hint⟩ := h
  have hmode : ¬ reservedMode s = true := by simpa [reservedMode, Io.reserved] using hio
  have htaken : ¬ interruptTaken s = true := by
    simpa [interruptTaken, interruptWanted, BitVec.lt_def, and_assoc] using hint
  rw [coreStep, if_neg hmode, if_neg (by simp [hfcd]), if_neg htaken]

/-- A step whose fetch turns on the halfword at `ea` stops where that halfword is not readable or no text. -/
theorem step_stops_at_halfword {s : State} {ea : Word} {f : List Byte → Res (List Byte)}
    (h : RunsInstruction (presentInputs s))
    (hf : fetchBytes (presentInputs s) = andThen (fetchHalf (presentInputs s) ea) f) :
    (¬ Readable (presentInputs s) ea 2 → StopsUnread (step s) .fetch (presentInputs s) ea 2) ∧
    (Readable (presentInputs s) ea 2 → (∃ a ∈ span ea 2, isText s a = false) →
      ∃ a ∈ span ea 2, isText s a = false ∧ step s = .refused (.notProgramText a)) := by
  rw [step, h.coreStep_eq, fetch, hf]
  constructor
  · intro hr
    exact (((fetchHalf_stops hr).andThen _).andThen _).andThen _
  · intro hr ht
    obtain ⟨a, ha, hat, he⟩ := fetchHalf_notText hr (by simpa using ht)
    exact ⟨a, ha, by simpa using hat, by rw [he]; rfl⟩

/-- Bytes that stand in text are the halfword fetched. -/
theorem fetchHalf_of_bytesAt {s : State} {ea : Word} {b0 b1 : Byte} (h : BytesAt s ea [b0, b1]) :
    fetchHalf s ea = .next [b0, b1] ∧ byteAt s ea = b0 := by
  obtain ⟨hb0, ht0, hm0⟩ := by simpa using h 0 (by simp)
  obtain ⟨hb1, ht1, hm1⟩ := by simpa using h 1 (by simp)
  have hspan : span ea 2 = [ea, ea + 1#32] := by simp [span, List.range_succ]
  have hbyte : byteAt s ea = b0 := by simp [byteAt, hm0]
  refine ⟨fetchHalf_eq_next.2 ⟨?_, ?_, ?_⟩, hbyte⟩
  · simp [Readable, hspan, hb0, hb1, hm0, hm1]
  · simp [hspan, ht0, ht1]
  · simp [byteAt, hm0, hm1]

/-- After a first halfword that says so, the fetch goes on with the second (R111). -/
theorem fetchBytes_second {s : State} {b0 b1 : Byte} (h : BytesAt s s.pc [b0, b1]) (hl : isLong b0 = true) :
    fetchBytes s = andThen (fetchHalf s (s.pc + 2#32)) fun second => .next ([b0, b1] ++ second) := by
  obtain ⟨hhalf, hbyte⟩ := fetchHalf_of_bytesAt h
  rw [fetchBytes, hhalf, andThen_next, hbyte, if_pos hl]

/-! ### The bytes a step may change (R80, R104) -/

@[simp] theorem advance_mem (len : Word) (s : State) : (advance len s).mem = s.mem := rfl

/-- Every byte that reads otherwise in `t` is backed in `s` and no program text there. -/
def ChangesOnlyData (s t : State) : Prop :=
  ∀ a : Nat, t.mem.read a ≠ s.mem.read a → ∃ w : Word, w.toNat = a ∧ backed s w = true ∧ isText s w = false

theorem ChangesOnlyData.of_mem_eq {s t : State} (h : t.mem = s.mem) : ChangesOnlyData s t :=
  fun a ha => absurd (by rw [h]) ha

/-- What is written, and no more, passed the check of a store. -/
theorem Writable.changesOnlyData {s t : State} {ea : Word} {n : Nat} (hw : Writable s ea n)
    (hm : SameMemoryOutside ea n s t) : ChangesOnlyData s t := by
  intro a ha
  by_contra hno
  refine ha (hm a fun b hb hba => hno ?_)
  obtain ⟨hback, htext⟩ := hw b hb
  exact ⟨b, hba, hback, htext⟩

theorem CanSave.changesOnlyData {s t : State} {upper : Bool} {link : Word} (hc : CanSave s)
    (hm : t.mem = (savedState upper link s).mem) : ChangesOnlyData s t := by
  obtain ⟨_, _, hw⟩ := hc
  exact hw.changesOnlyData (sameMemoryOutside_of_writeWords hm)

theorem CanRestore.changesOnlyData {s t : State} {upper : Bool} {w : Vector Word 16} (hc : CanRestore upper s)
    (hm : t.mem = (restoredState w s).mem) : ChangesOnlyData s t := by
  obtain ⟨_, _, _, hw⟩ := hc
  exact hw.changesOnlyData (sameMemoryOutside_of_writeWord hm)

theorem trapEntry_changesOnlyData {trap : Trap} {ret : Word} {s t : State}
    (h : trapEntry trap ret s = .next t) : ChangesOnlyData s t := by
  obtain ⟨hc, link, _, rfl⟩ := trapEntry_eq_next.1 h
  exact hc.changesOnlyData (upper := true) (link := link) (by simp)

theorem interruptEntry_changesOnlyData {s t : State} (h : interruptEntry s = .next t) : ChangesOnlyData s t := by
  obtain ⟨hc, link, _, rfl⟩ := interruptEntry_eq_next.1 h
  exact hc.changesOnlyData (upper := true) (link := link) (by simp)

theorem Effect.changesOnlyData {s t : State} {i : Instr} (h : Effect s i t) : ChangesOnlyData s t := by
  cases h with
  | trap trap ret h => exact trapEntry_changesOnlyData h
  | @call _ _ _ link hc => exact hc.changesOnlyData (upper := true) (link := link) (by simp)
  | @ret _ w _ hc => exact hc.changesOnlyData (w := w) rfl
  | @rfe _ w _ hc => exact hc.changesOnlyData (w := w) rfl
  | fastCall hw => exact hw.changesOnlyData (sameMemoryOutside_of_writeWord rfl)
  | @svlcx _ link hc => exact hc.changesOnlyData (upper := false) (link := link) (by simp)
  | @rslcx _ w hc => exact hc.changesOnlyData (w := w) rfl
  | store hw => exact hw.changesOnlyData (sameMemoryOutside_of_writeWords rfl)
  | @bisr _ _ _ link _ hc => exact hc.changesOnlyData (upper := false) (link := link) (by simp)
  | @load _ upper => exact .of_mem_eq (by cases upper <;> rfl)
  | mtcr => exact .of_mem_eq (setCsfr_mem _ _ _)
  | fastReturn | enable | disable | mfcr | isync => exact .of_mem_eq rfl

theorem coreStep_changesOnlyData {s t : State} (h : coreStep s = .next t) : ChangesOnlyData s t := by
  obtain ⟨_, ⟨_, ht⟩ | ⟨_, _, ht⟩ | ⟨_, _, i, _, _, he⟩⟩ := coreStep_eq_next.1 h
  · exact trapEntry_changesOnlyData (s := s.setFcdDeferred false) ht
  · exact interruptEntry_changesOnlyData ht
  · exact (exec_effect he).changesOnlyData

end Sys2Proof.Machine

open Sys2Proof Sys2Proof.Machine

/-- Settles O5: the four fields of a CSA's address, and R83's inverse. -/
theorem contextAddressAlignedAndInvertible : Obligations.ContextAddressAlignedAndInvertible :=
  ⟨fun p => ⟨csaEA_segment p, csaEA_high_zero p, csaEA_offset p, csaEA_low_zero p⟩, fun _ => csaEA_inverse⟩

/-- Settles O35: each form is one of four operations, which check the alignment first. -/
theorem misalignedFormsFault : Obligations.MisalignedFormsFault := by
  refine ⟨?fastCall, ?fastReturn, ?store, ?load⟩
  case fastCall => exact fun s i target hi h => hi.exec_eq.trans (fastCallTo_misaligned h)
  case fastReturn => exact fun s i hi h => (hi.exec_eq s).trans (fastReturn_misaligned h)
  case store => exact fun s i upper ea hi h => hi.exec_eq.trans (storeContext_misaligned h)
  case load => exact fun s i upper ea hi h => hi.exec_eq.trans (loadContext_misaligned h)

/-- Settles O59: a step changes only what a store's check let pass, and each store stops where the check fails. -/
theorem storesOnlyBackedData : Obligations.StoresOnlyBackedData := by
  refine ⟨?changes, ?fastCall, ?store, fun s upper => saveContext_stopsUnwritten,
    fun s => restoreContext_stopsUnwritten⟩
  case changes =>
    intro s t h
    simpa [ChangesOnlyData] using coreStep_changesOnlyData h
  case fastCall =>
    intro s i target hi h hw
    rw [hi.exec_eq]
    exact fastCallTo_stops h hw
  case store =>
    intro s i upper ea hi h hw
    rw [hi.exec_eq]
    exact storeContext_stops h hw

/-- Settles O60: the fetch halfword by halfword, and each kind of read by the operation that makes it. -/
theorem readsOnlyBackedMemory : Obligations.ReadsOnlyBackedMemory := by
  refine ⟨?firstHalf, ?secondHalf, ?fastReturn, ?load, ?restore, ?save⟩
  case firstHalf =>
    exact fun s h => step_stops_at_halfword h (by rw [fetchBytes, presentInputs_pc])
  case secondHalf =>
    intro s b0 b1 h hb hl
    rw [← presentInputs_pc s] at hb ⊢
    exact step_stops_at_halfword h (fetchBytes_second hb hl)
  case fastReturn =>
    intro s i hi h hr
    rw [hi.exec_eq]
    exact fastReturn_stops h hr
  case load =>
    intro s i upper ea hi h hr
    rw [hi.exec_eq]
    exact loadContext_stops h hr
  case restore =>
    intro s h0 hr
    refine ⟨fun i hi hul hcdu => ?_, fun i hi hul hnest => ?_, execRslcx_stopsUnread hr h0⟩
    · rw [hi.exec_eq]
      exact returnFromCall_stopsUnread hr h0 hul hcdu
    · rw [hi.exec_eq]
      exact returnFromException_stopsUnread hr h0 hul hnest
  case save =>
    intro s h0 hr
    refine ⟨fun i target len hi => ?_, execSvlcx_stopsUnread h0 hr, fun i p len hi hs => ?_,
      fun c => trapEntry_stopsUnread h0 hr _ _, interruptEntry_stopsUnread h0 hr, trapEntry_stopsUnread h0 hr⟩
    · rw [hi.exec_eq]
      exact callTo_stopsUnread h0 hr target len
    · rw [hi.exec_eq]
      exact beginIsr_stopsUnread h0 hr hs p len

end

section
/-! PROOFS. The encoding (30_encoding.md): decoding and encoding undo each other (R110 to R117, R119), the
out-of-scope words of the SYS group (R118), the targets and effective addresses of R114, and the steps that are
refused (R119, R199). -/

namespace Sys2Proof

/-! ### Bytes and words (R110, R111) -/

theorem bytes_long (b0 b1 b2 b3 : Byte) : (Code.long (b3 ++ b2 ++ b1 ++ b0)).bytes = [b0, b1, b2, b3] := by
  rw [Code.bytes, BitVec.extractLsb'_append_eq_right,
    BitVec.extractLsb'_append_eq_of_le (by omega), BitVec.extractLsb'_append_eq_right,
    BitVec.extractLsb'_append_eq_of_le (by omega), BitVec.extractLsb'_append_eq_of_le (by omega),
    BitVec.extractLsb'_append_eq_right, BitVec.extractLsb'_append_eq_of_le (by omega),
    BitVec.extractLsb'_append_eq_of_le (by omega), BitVec.extractLsb'_append_eq_left]

theorem bytes_short (b0 b1 : Byte) : (Code.short (b1 ++ b0)).bytes = [b0, b1] := by
  rw [Code.bytes, BitVec.extractLsb'_append_eq_right, BitVec.extractLsb'_append_eq_left]

/-- Every 32-bit opcode has bit 0 set. -/
theorem isLong_of_decode32 {w : Word} {i : Instr} (h : decode32 w = .ok i) : isLong (w.extractLsb' 0 8) = true := by
  by_contra hs
  have hne {op : Byte} (hop : isLong op = true) : w.extractLsb' 0 8 ≠ op := fun e => hs (e ▸ hop)
  simp [decode32, hne (op := 0x6D#8) rfl, hne (op := 0xED#8) rfl, hne (op := 0x61#8) rfl, hne (op := 0xE1#8) rfl,
    hne (op := 0x2D#8) rfl, hne (op := 0x0D#8) rfl, hne (op := 0x15#8) rfl, hne (op := 0x49#8) rfl,
    hne (op := 0xAD#8) rfl, hne (op := 0xCD#8) rfl, hne (op := 0x4D#8) rfl] at h

/-- Every 16-bit opcode has bit 0 clear. -/
theorem not_isLong_of_decode16 {v : Half} {i : Instr} (h : decode16 v = .ok i) :
    isLong (v.extractLsb' 0 8) = false := by
  by_contra hl
  have hne {op : Byte} (hop : isLong op = false) : v.extractLsb' 0 8 ≠ op := fun e => hl (e ▸ hop)
  simp [decode16, hne (op := 0x5C#8) rfl, hne (op := 0xE0#8) rfl, hne (op := 0x00#8) rfl] at h

/-- What a word or halfword decodes to. -/
def Code.decode : Code → Except Reject Instr
  | .long w => decode32 w
  | .short v => decode16 v

theorem decode_of_long {b0 b1 b2 b3 : Byte} (rest : List Byte) (hl : isLong b0 = true) :
    decode (b0 :: b1 :: b2 :: b3 :: rest) = (decode32 (b3 ++ b2 ++ b1 ++ b0)).map (fun i => (i, rest)) := by
  have h := decode_long (b3 ++ b2 ++ b1 ++ b0) rest (by rwa [BitVec.extractLsb'_append_eq_right])
  rwa [bytes_long] at h

theorem decode_of_short {b0 b1 : Byte} (rest : List Byte) (hs : isLong b0 = false) :
    decode (b0 :: b1 :: rest) = (decode16 (b1 ++ b0)).map (fun i => (i, rest)) := by
  have h := decode_short (b1 ++ b0) rest (by rwa [BitVec.extractLsb'_append_eq_right])
  rwa [bytes_short] at h

theorem decode_of_truncated {b0 : Byte} {tail : List Byte} (hl : isLong b0 = true) (ht : tail.length < 3) :
    decode (b0 :: tail) = .error .truncated := by
  match tail with
  | [] => rfl
  | [_] | [_, _] => simp only [decode, hl, if_true]

theorem map_pair_eq_ok {x : Except Reject Instr} {i : Instr} {bytes rest : List Byte} :
    x.map (fun j => (j, bytes)) = .ok (i, rest) ↔ x = .ok i ∧ bytes = rest := by
  cases x <;> simp [Except.map]

/-- Everything the decoder accepts: a word or halfword that decodes, and the bytes after it. -/
theorem decode_eq_ok {bytes rest : List Byte} {i : Instr} :
    decode bytes = .ok (i, rest) ↔ ∃ c : Code, c.decode = .ok i ∧ bytes = c.bytes ++ rest := by
  constructor
  · intro h
    match bytes with
    | [] | [_] => cases h
    | b0 :: b1 :: tail =>
      cases hb : isLong b0 with
      | false =>
        obtain ⟨hd, rfl⟩ := map_pair_eq_ok.1 (decode_of_short tail hb ▸ h)
        exact ⟨.short (b1 ++ b0), hd, by rw [bytes_short]; rfl⟩
      | true =>
        match tail with
        | [] | [_] => cases (decode_of_truncated hb (by simp)).symm.trans h
        | b2 :: b3 :: tail =>
          obtain ⟨hd, rfl⟩ := map_pair_eq_ok.1 (decode_of_long tail hb ▸ h)
          exact ⟨.long (b3 ++ b2 ++ b1 ++ b0), hd, by rw [bytes_long]; rfl⟩
  · rintro ⟨w | v, hd, rfl⟩
    · rw [decode_long w rest (isLong_of_decode32 hd)]
      exact map_pair_eq_ok.2 ⟨hd, rfl⟩
    · rw [decode_short v rest (not_isLong_of_decode16 hd)]
      exact map_pair_eq_ok.2 ⟨hd, rfl⟩

/-! ### Decoding what is encoded: each group on the words of its format (R112, R113, R115) -/

theorem decode32_formatRr (op : Byte) (a : BitVec 4) : decode32 (formatRr op a) = decodeRr (formatRr op a) := by
  simp [decode32]

theorem decode32_formatAbs (op : BitVec 2) (off : BitVec 18) :
    decode32 (formatAbs op off) = decodeAbs (formatAbs op off) := by
  simp [decode32]

theorem decode32_formatBo (op : BitVec 6) (b : BitVec 4) (off : BitVec 10) :
    decode32 (formatBo op b off) = decodeBo (formatBo op b off) := by
  simp [decode32]

theorem decode32_formatRc (op : BitVec 7) (v : BitVec 9) : decode32 (formatRc op v) = decodeRc (formatRc op v) := by
  simp [decode32]

theorem regField_formatRr {a : Nat} (op : Byte) (h : a < 16) : regField (formatRr op (regBits a)) 8 = a := by
  rw [regField, formatRr_s1, regBits_toNat h]

theorem regField_formatBo {b : Nat} (op : BitVec 6) (off : BitVec 10) (h : b < 16) :
    regField (formatBo op (regBits b) off) 12 = b := by
  rw [regField, formatBo_s2, regBits_toNat h]

/-- The word or halfword of a well-formed instruction decodes to it. -/
theorem decode_code {i : Instr} (h : i.wf = true) : i.code.decode = .ok i := by
  cases i
  case callDisp24 d | callaDisp24 d | fcallDisp24 d | fcallaDisp24 d => simp [Instr.code, Code.decode, decode32]
  case ret | fret | svlcx | rslcx | enable | disable | rfe | isync => decide
  case ret16 | rfe16 | fret16 => decide
  case calliA a | fcalliA a =>
    simp [Instr.code, Code.decode, decode32_formatRr, decodeRr, whenUnusedZero,
      regField_formatRr _ (of_decide_eq_true h)]
  case stlcxAbs off | stucxAbs off | ldlcxAbs off | lducxAbs off =>
    simp [Instr.code, Code.decode, decode32_formatAbs, decodeAbs, whenUnusedZero]
  case ldlcxBo b off | lducxBo b off | stlcxBo b off | stucxBo b off =>
    simp [Instr.code, Code.decode, decode32_formatBo, decodeBo, whenUnusedZero,
      regField_formatBo _ _ (of_decide_eq_true h)]
  case bisrConst9 c | syscall c => simp [Instr.code, Code.decode, decode32_formatRc, decodeRc, whenUnusedZero]
  case mtcr addr a | mfcr c addr =>
    simp [Instr.code, Code.decode, decode32, whenUnusedZero, regField, regBits_toNat (of_decide_eq_true h)]
  case callDisp8 d | bisrConst8 c => simp [Instr.code, Code.decode, decode16]

/-! ### Encoding what is decoded: each row of the opcode map, by its format (R116, R117, R119) -/

/-- The instruction is well-formed, and the word or halfword is its encoding. -/
def Code.Encodes (c : Code) (i : Instr) : Prop := i.wf = true ∧ i.code = c

section
variable {c : Code} {row i : Instr} {p : Prop} [Decidable p] {rest : Except Reject Instr}

/-- A row that wants its unused fields zero encodes where that puts the row's instruction in the word. -/
theorem encodes_of_whenUnusedZero {zero : Bool} {m : String} (h : whenUnusedZero zero m row = .ok i)
    (hrow : zero = true → c.Encodes row) : c.Encodes i := by
  obtain ⟨hz, rfl⟩ := whenUnusedZero_eq_ok.1 h
  exact hrow hz

/-- One group of the opcode map: it is the group that answers, or what comes after it. -/
theorem encodes_of_group {group : Except Reject Instr} (h : (if p then group else rest) = .ok i)
    (hgroup : p → group = .ok i → c.Encodes i) (hrest : ¬ p → rest = .ok i → c.Encodes i) : c.Encodes i := by
  split at h
  · exact hgroup ‹p› h
  · exact hrest ‹¬ p› h

/-- One row of a group. -/
theorem encodes_of_row {zero : Bool} {m : String} (h : (if p then whenUnusedZero zero m row else rest) = .ok i)
    (hrow : p → zero = true → c.Encodes row) (hrest : ¬ p → rest = .ok i → c.Encodes i) : c.Encodes i :=
  encodes_of_group h (fun hp hi => encodes_of_whenUnusedZero hi (hrow hp)) hrest

theorem ok_of_not_refused {r : Reject} (h : (if p then .error r else rest) = .ok i) : rest = .ok i := by
  split at h
  · cases h
  · exact h

end

section
variable {w : Word} {row : Instr}

theorem encodes_formatB {op : Byte} (hop : w.extractLsb' 0 8 = op) (hwf : row.wf = true)
    (hcode : row.code = .long (formatB op (dispOfB w))) : (Code.long w).Encodes row :=
  ⟨hwf, by rw [hcode, ← hop, formatB_of_fields]⟩

theorem encodes_formatRr {op : Byte} (h1 : w.extractLsb' 0 8 = 0x2D#8) (hop : w.extractLsb' 20 8 = op)
    (hz : (w.extractLsb' 28 4 == 0#4 && w.extractLsb' 12 8 == 0#8) = true) (hwf : row.wf = true)
    (hcode : row.code = .long (formatRr op (regBits (regField w 8)))) : (Code.long w).Encodes row := by
  obtain ⟨hc, hn⟩ := by simpa using hz
  exact ⟨hwf, by rw [hcode, ← hop, regBits_regField, formatRr_of_fields h1 hc hn]⟩

theorem encodes_formatSys {op : BitVec 6} (h1 : w.extractLsb' 0 8 = 0x0D#8) (hop : w.extractLsb' 22 6 = op)
    (hz : (w.extractLsb' 28 4 == 0#4 && w.extractLsb' 8 14 == 0#14) = true) (hwf : row.wf = true)
    (hcode : row.code = .long (formatSys op)) : (Code.long w).Encodes row := by
  obtain ⟨hc, hn⟩ := by simpa using hz
  exact ⟨hwf, by rw [hcode, ← hop, formatSys_of_fields h1 hc hn]⟩

theorem encodes_formatAbs {op : BitVec 2} (h1 : w.extractLsb' 0 8 = 0x15#8) (hop : w.extractLsb' 26 2 = op)
    (hz : (w.extractLsb' 8 4 == 0#4) = true) (hwf : row.wf = true)
    (hcode : row.code = .long (formatAbs op (offOfAbs w))) : (Code.long w).Encodes row :=
  ⟨hwf, by rw [hcode, ← hop, formatAbs_of_fields h1 (eq_of_beq hz)]⟩

theorem encodes_formatBo {op : BitVec 6} (h1 : w.extractLsb' 0 8 = 0x49#8) (hop : w.extractLsb' 22 6 = op)
    (hz : (w.extractLsb' 8 4 == 0#4) = true) (hwf : row.wf = true)
    (hcode : row.code = .long (formatBo op (regBits (regField w 12)) (offOfBo w))) : (Code.long w).Encodes row :=
  ⟨hwf, by rw [hcode, ← hop, regBits_regField, formatBo_of_fields h1 (eq_of_beq hz)]⟩

theorem encodes_formatRc {op : BitVec 7} (h1 : w.extractLsb' 0 8 = 0xAD#8) (hop : w.extractLsb' 21 7 = op)
    (hz : (w.extractLsb' 28 4 == 0#4 && w.extractLsb' 8 4 == 0#4) = true) (hwf : row.wf = true)
    (hcode : row.code = .long (formatRc op (w.extractLsb' 12 9))) : (Code.long w).Encodes row := by
  obtain ⟨hc, hn⟩ := by simpa using hz
  exact ⟨hwf, by rw [hcode, ← hop, formatRc_of_fields h1 hc hn]⟩

theorem encodes_mtcr (h1 : w.extractLsb' 0 8 = 0xCD#8) (hz : w.extractLsb' 28 4 = 0#4) :
    (Code.long w).Encodes (.mtcr (w.extractLsb' 12 16) (regField w 8)) :=
  ⟨regNumberOk_regField w 8, by rw [Instr.code, regBits_regField, ← h1, ← hz, formatRlc_of_fields]⟩

theorem encodes_mfcr (h1 : w.extractLsb' 0 8 = 0x4D#8) (hz : w.extractLsb' 8 4 = 0#4) :
    (Code.long w).Encodes (.mfcr (regField w 28) (w.extractLsb' 12 16)) :=
  ⟨regNumberOk_regField w 28, by rw [Instr.code, regBits_regField, ← h1, ← hz, formatRlc_of_fields]⟩

end

section
variable {v : Half} {row : Instr}

theorem formatSr_of_fields (h1 : v.extractLsb' 0 8 = 0x00#8) (hz : v.extractLsb' 8 4 = 0#4) :
    formatSr (v.extractLsb' 12 4) = v := by
  rw [formatSr, ← h1, ← hz, BitVec.extractLsb'_append_extractLsb'_eq_extractLsb' (by rfl)]
  exact half_joined v

theorem encodes_formatS8 {op : Byte} (hop : v.extractLsb' 0 8 = op) (hwf : row.wf = true)
    (hcode : row.code = .short (formatS8 op (v.extractLsb' 8 8))) : (Code.short v).Encodes row :=
  ⟨hwf, by rw [hcode, ← hop, formatS8, half_joined]⟩

theorem encodes_formatSr {op : BitVec 4} (h1 : v.extractLsb' 0 8 = 0x00#8) (hop : v.extractLsb' 12 4 = op)
    (hz : (v.extractLsb' 8 4 == 0#4) = true) (hwf : row.wf = true)
    (hcode : row.code = .short (formatSr op)) : (Code.short v).Encodes row :=
  ⟨hwf, by rw [hcode, ← hop, formatSr_of_fields h1 (eq_of_beq hz)]⟩

end

/-! The groups of the opcode map, row by row; what is left after the rows is refused. -/

section
variable {w : Word} {i : Instr}

theorem decodeRr_encodes (h1 : w.extractLsb' 0 8 = 0x2D#8) (h : decodeRr w = .ok i) : (Code.long w).Encodes i := by
  have ha := regNumberOk_regField w 8
  refine encodes_of_row (row := .calliA _) h (fun hop hz => encodes_formatRr h1 hop hz ha rfl) fun _ h => ?_
  refine encodes_of_row (row := .fcalliA _) h (fun hop hz => encodes_formatRr h1 hop hz ha rfl) fun _ h => ?_
  cases h

theorem decodeSys_encodes (h1 : w.extractLsb' 0 8 = 0x0D#8) (h : decodeSys w = .ok i) : (Code.long w).Encodes i := by
  refine encodes_of_row (row := .ret) h (fun hop hz => encodes_formatSys h1 hop hz rfl rfl) fun _ h => ?_
  refine encodes_of_row (row := .fret) h (fun hop hz => encodes_formatSys h1 hop hz rfl rfl) fun _ h => ?_
  refine encodes_of_row (row := .svlcx) h (fun hop hz => encodes_formatSys h1 hop hz rfl rfl) fun _ h => ?_
  refine encodes_of_row (row := .rslcx) h (fun hop hz => encodes_formatSys h1 hop hz rfl rfl) fun _ h => ?_
  refine encodes_of_row (row := .enable) h (fun hop hz => encodes_formatSys h1 hop hz rfl rfl) fun _ h => ?_
  refine encodes_of_row (row := .disable) h (fun hop hz => encodes_formatSys h1 hop hz rfl rfl) fun _ h => ?_
  refine encodes_of_row (row := .rfe) h (fun hop hz => encodes_formatSys h1 hop hz rfl rfl) fun _ h => ?_
  refine encodes_of_row (row := .isync) h (fun hop hz => encodes_formatSys h1 hop hz rfl rfl) fun _ h => ?_
  iterate 8 replace h := ok_of_not_refused h
  cases h

theorem decodeAbs_encodes (h1 : w.extractLsb' 0 8 = 0x15#8) (h : decodeAbs w = .ok i) : (Code.long w).Encodes i := by
  refine encodes_of_row (row := .stlcxAbs _) h (fun hop hz => encodes_formatAbs h1 hop hz rfl rfl) fun hne0 h => ?_
  refine encodes_of_row (row := .stucxAbs _) h (fun hop hz => encodes_formatAbs h1 hop hz rfl rfl) fun hne1 h => ?_
  refine encodes_of_row (row := .ldlcxAbs _) h (fun hop hz => encodes_formatAbs h1 hop hz rfl rfl) fun hne2 h => ?_
  have hop : w.extractLsb' 26 2 = 3#2 := by bv_omega
  exact encodes_of_whenUnusedZero (row := .lducxAbs _) h fun hz => encodes_formatAbs h1 hop hz rfl rfl

theorem decodeBo_encodes (h1 : w.extractLsb' 0 8 = 0x49#8) (h : decodeBo w = .ok i) : (Code.long w).Encodes i := by
  have hb := regNumberOk_regField w 12
  refine encodes_of_row (row := .ldlcxBo _ _) h (fun hop hz => encodes_formatBo h1 hop hz hb rfl) fun _ h => ?_
  refine encodes_of_row (row := .lducxBo _ _) h (fun hop hz => encodes_formatBo h1 hop hz hb rfl) fun _ h => ?_
  refine encodes_of_row (row := .stlcxBo _ _) h (fun hop hz => encodes_formatBo h1 hop hz hb rfl) fun _ h => ?_
  refine encodes_of_row (row := .stucxBo _ _) h (fun hop hz => encodes_formatBo h1 hop hz hb rfl) fun _ h => ?_
  cases h

theorem decodeRc_encodes (h1 : w.extractLsb' 0 8 = 0xAD#8) (h : decodeRc w = .ok i) : (Code.long w).Encodes i := by
  refine encodes_of_row (row := .bisrConst9 _) h (fun hop hz => encodes_formatRc h1 hop hz rfl rfl) fun _ h => ?_
  refine encodes_of_row (row := .syscall _) h (fun hop hz => encodes_formatRc h1 hop hz rfl rfl) fun _ h => ?_
  cases h

theorem decode32_encodes (h : decode32 w = .ok i) : (Code.long w).Encodes i := by
  iterate 4
    refine encodes_of_group h (fun hop hi => Except.ok.inj hi ▸ encodes_formatB hop rfl rfl) fun _ h => ?_
  refine encodes_of_group h decodeRr_encodes fun _ h => ?_
  refine encodes_of_group h decodeSys_encodes fun _ h => ?_
  refine encodes_of_group h decodeAbs_encodes fun _ h => ?_
  refine encodes_of_group h decodeBo_encodes fun _ h => ?_
  refine encodes_of_group h decodeRc_encodes fun _ h => ?_
  refine encodes_of_row (row := .mtcr _ _) h (fun hop hz => encodes_mtcr hop (eq_of_beq hz)) fun _ h => ?_
  refine encodes_of_row (row := .mfcr _ _) h (fun hop hz => encodes_mfcr hop (eq_of_beq hz)) fun _ h => ?_
  cases h

end

section
variable {v : Half} {i : Instr}

theorem decode16_encodes (h : decode16 v = .ok i) : (Code.short v).Encodes i := by
  iterate 2
    refine encodes_of_group h (fun hop hi => Except.ok.inj hi ▸ encodes_formatS8 hop rfl rfl) fun _ h => ?_
  refine encodes_of_group h (fun h1 h => ?_) fun _ h => ?_
  · refine encodes_of_row (row := .ret16) h (fun hop hz => encodes_formatSr h1 hop hz rfl rfl) fun _ h => ?_
    refine encodes_of_row (row := .rfe16) h (fun hop hz => encodes_formatSr h1 hop hz rfl rfl) fun _ h => ?_
    refine encodes_of_row (row := .fret16) h (fun hop hz => encodes_formatSr h1 hop hz rfl rfl) fun _ h => ?_
    cases ok_of_not_refused h
  · cases h

end

/-- A code is a well-formed instruction's encoding exactly when it decodes to the instruction. -/
theorem decode_eq_ok_iff_encodes {c : Code} {i : Instr} : c.decode = .ok i ↔ c.Encodes i := by
  constructor
  · intro h
    cases c with
    | long w => exact decode32_encodes h
    | short v => exact decode16_encodes h
  · rintro ⟨hwf, rfl⟩
    exact decode_code hwf

/-! ### Out-of-scope words (R118) -/

theorem decode32_sys {w : Word} (h1 : w.extractLsb' 0 8 = 0x0D#8) : decode32 w = decodeSys w := by
  simp [decode32, h1]

end Sys2Proof

namespace Sys2Proof.Machine

/-! ### Targets and effective addresses (R114) -/

/-- Adding a sign-extended value is adding the integer it stands for, modulo 2^32. -/
theorem add_signExtend {n : Nat} (base : Word) (v : BitVec n) :
    base + v.signExtend 32 = BitVec.ofInt 32 (base.toNat + v.toInt) := by
  rw [BitVec.ofInt_add, BitVec.ofInt_natCast, BitVec.ofNat_toNat, BitVec.setWidth_eq]
  rfl

/-- The same for twice the value. -/
theorem add_signExtend_double {n : Nat} (base : Word) (v : BitVec n) :
    base + v.signExtend 32 * 2#32 = BitVec.ofInt 32 (base.toNat + 2 * v.toInt) := by
  rw [BitVec.ofInt_add, BitVec.ofInt_natCast, BitVec.ofNat_toNat, BitVec.setWidth_eq, mul_comm 2, BitVec.ofInt_mul]
  rfl

theorem absTarget24_segment (d : BitVec 24) : (absTarget24 d).extractLsb' 28 4 = d.extractLsb' 20 4 := by
  rw [absTarget24, BitVec.extractLsb'_append_eq_of_le (by omega), BitVec.extractLsb'_append_eq_of_le (by omega),
    BitVec.extractLsb'_append_eq_left]

theorem absTarget24_middle_zero (d : BitVec 24) : (absTarget24 d).extractLsb' 21 7 = 0#7 := by
  rw [absTarget24, BitVec.extractLsb'_append_eq_of_le (by omega), BitVec.extractLsb'_append_eq_of_le (by omega),
    BitVec.extractLsb'_append_eq_right]

theorem absTarget24_offset (d : BitVec 24) : (absTarget24 d).extractLsb' 1 20 = d.extractLsb' 0 20 := by
  rw [absTarget24, BitVec.extractLsb'_append_eq_of_le (by omega), BitVec.extractLsb'_append_eq_right]

theorem absEA_segment (off : BitVec 18) : (absEA off).extractLsb' 28 4 = off.extractLsb' 14 4 := by
  rw [absEA, BitVec.extractLsb'_append_eq_of_le (by omega), BitVec.extractLsb'_append_eq_left]

theorem absEA_middle_zero (off : BitVec 18) : (absEA off).extractLsb' 14 14 = 0#14 := by
  rw [absEA, BitVec.extractLsb'_append_eq_of_le (by omega), BitVec.extractLsb'_append_eq_right]

theorem absEA_offset (off : BitVec 18) : (absEA off).extractLsb' 0 14 = off.extractLsb' 0 14 :=
  BitVec.extractLsb'_append_eq_right

/-- A target in a register is the register with bit 0 cleared (R149, D19). -/
theorem getLsbD_regTarget (v : Word) (j : Nat) : (regTarget v).getLsbD j = (v.getLsbD j && j != 0) := by
  rw [regTarget, getLsbD_evenBase]
  cases j <;> simp

/-! ### The fetch of an instruction (R111) -/

theorem BytesAt.append {s : State} {ea : Word} {xs ys : List Byte} (h : BytesAt s ea (xs ++ ys)) :
    BytesAt s ea xs ∧ BytesAt s (ea + BitVec.ofNat 32 xs.length) ys := by
  constructor
  · intro k hk
    have hx := h k (by rw [List.length_append]; omega)
    rwa [List.getElem_append_left hk] at hx
  · intro k hk
    have hy := h (xs.length + k) (by rw [List.length_append]; omega)
    rwa [List.getElem_append_right (by omega), BitVec.ofNat_add, ← BitVec.add_assoc,
      getElem_congr_idx (Nat.add_sub_cancel_left ..)] at hy

section
variable {s : State} {b0 b1 b2 b3 : Byte}

theorem fetchBytes_short (h : BytesAt s s.pc [b0, b1]) (hs : isLong b0 = false) : fetchBytes s = .next [b0, b1] := by
  obtain ⟨hhalf, hbyte⟩ := fetchHalf_of_bytesAt h
  rw [fetchBytes, hhalf, andThen_next, hbyte, if_neg (by simp [hs])]

theorem fetchBytes_long (h : BytesAt s s.pc [b0, b1, b2, b3]) (hl : isLong b0 = true) :
    fetchBytes s = .next [b0, b1, b2, b3] := by
  obtain ⟨hfirst, hsecond⟩ := BytesAt.append (xs := [b0, b1]) h
  have hhalf : fetchHalf s (s.pc + 2#32) = .next [b2, b3] := (fetchHalf_of_bytesAt hsecond).1
  rw [fetchBytes_second hfirst hl, hhalf]
  rfl

end

/-- Bytes at pc that are one instruction are what the fetch reads. -/
theorem fetchBytes_of_decode {s : State} {bytes : List Byte} {i : Instr} (h : BytesAt s s.pc bytes)
    (hd : decode bytes = .ok (i, [])) : fetchBytes s = .next bytes := by
  obtain ⟨w | v, hc, rfl⟩ := decode_eq_ok.1 hd
  · exact fetchBytes_long h (isLong_of_decode32 hc)
  · exact fetchBytes_short h (not_isLong_of_decode16 hc)

theorem fetch_of_decode {s : State} {bytes : List Byte} {i : Instr} (h : BytesAt s s.pc bytes)
    (hd : decode bytes = .ok (i, [])) : fetch s = .next i := by
  rw [fetch, fetchBytes_of_decode h hd, andThen_next, hd]

theorem fetch_refused {s : State} {bytes : List Byte} {r : Reject} (h : fetchBytes s = .next bytes)
    (hd : decode bytes = .error r) : fetch s = .refused (refusalOf r) := by
  rw [fetch, h, andThen_next, hd]

/-! ### Steps that are refused -/

theorem step_of_reservedMode {s : State} (h : Psw.io s.psw = 0b11#2) : step s = .refused .reservedIoMode :=
  if_pos (by simp [reservedMode, h, Io.reserved])

theorem RunsInstruction.step_of_fetch_refused {s : State} {r : Refusal} (h : RunsInstruction (presentInputs s))
    (hf : fetch (presentInputs s) = .refused r) : step s = .refused r := by
  rw [step, h.coreStep_eq, hf, andThen_refused]

theorem RunsInstruction.step_of_isyncMissing {s : State} {i : Instr} (h : RunsInstruction (presentInputs s))
    (hf : fetch (presentInputs s) = .next i) (hp : s.isyncPending = true) (hi : i ≠ .isync) :
    step s = .refused .isyncMissing := by
  rw [step, h.coreStep_eq, hf, andThen_next, if_pos (by simp [awaitsIsync, hp, hi])]

end Sys2Proof.Machine

open Sys2Proof Sys2Proof.Machine

/-- Settles O2: an instruction's code decodes to it, and the decoder reads that code off the front. -/
theorem decodeInvertsEncode : Obligations.DecodeInvertsEncode :=
  fun i _ hwf => decode_eq_ok.2 ⟨i.code, decode_code hwf, rfl⟩

/-- Settles O3: what decodes is a code in front of the rest, and every row of the opcode map encodes its code. -/
theorem encodeInvertsDecode : Obligations.EncodeInvertsDecode := by
  intro bytes rest i h
  obtain ⟨c, hd, rfl⟩ := decode_eq_ok.1 h
  obtain ⟨hwf, rfl⟩ := decode_eq_ok_iff_encodes.1 hd
  exact ⟨hwf, rfl⟩

/-- Settles O6: adding twice the extended displacement, for both widths. -/
theorem relativeTargetsCountHalfwords : Obligations.RelativeTargetsCountHalfwords :=
  ⟨add_signExtend_double, add_signExtend_double, fun _ _ hpc => even_add hpc (even_double _),
    fun _ _ hpc => even_add hpc (even_double _)⟩

/-- Settles O7: each target and address by its fields. -/
theorem absoluteFormsPlaceTheirFields : Obligations.AbsoluteFormsPlaceTheirFields :=
  ⟨fun d => ⟨absTarget24_segment d, absTarget24_middle_zero d, absTarget24_offset d, absTarget24_even d⟩,
    fun off => ⟨absEA_segment off, absEA_middle_zero off, absEA_offset off⟩, add_signExtend, getLsbD_regTarget⟩

/-- Settles O1: each word is closed, and the decoder runs on it. -/
theorem sampleWordsDecode : Obligations.SampleWordsDecode := by
  unfold Obligations.SampleWordsDecode
  decide

/-- Settles O4: the SYS group chooses by op2 alone, and refuses an out-of-scope member before it looks at other bits. -/
theorem outOfScopeSystemWordsRefusedByName : Obligations.OutOfScopeSystemWordsRefusedByName := by
  intro w h1
  rw [decode32_sys h1]
  refine ⟨?_, ?_, ?_, ?_, ?_, ?_, ?_, ?_⟩ <;> intro hop <;> simp [decodeSys, hop]

/-- Settles O15: what the fetch answers decides the step, once the mode is not the reserved one. -/
theorem stepRefusals : Obligations.StepRefusals := by
  refine ⟨fun _ => step_of_reservedMode, ?isyncMissing, ?refusedHalf, ?refusedWord⟩
  case isyncMissing =>
    intro s i bytes h hb hd hp hi
    rw [← presentInputs_pc s] at hb
    exact h.step_of_isyncMissing (fetch_of_decode hb hd) hp hi
  case refusedHalf =>
    intro s b0 b1 r h hb hs hd
    rw [← presentInputs_pc s] at hb
    exact h.step_of_fetch_refused (fetch_refused (fetchBytes_short hb hs) hd)
  case refusedWord =>
    intro s b0 b1 b2 b3 r h hb hl hd
    rw [← presentInputs_pc s] at hb
    exact h.step_of_fetch_refused (fetch_refused (fetchBytes_long hb hl) hd)

end

section
/-! PROOFS. Context operations (40_context_ops.md): calls and returns, fast calls and returns, saving and restoring
the lower context, storing and loading a context, each by what it leaves; and that the second of a pair undoes the
first (R147 to R167). -/

namespace Sys2Proof.Machine

/-! ### What stays over two instructions -/

section
variable {s t u : State}

theorem SameSystem.trans (h : SameSystem s t) (k : SameSystem t u) : SameSystem s u :=
  ⟨k.core.trans h.core, k.isyncPending.trans h.isyncPending, k.endinit.trans h.endinit,
    k.safetyEndinit.trans h.safetyEndinit, k.inputs.trans h.inputs, k.platform.trans h.platform⟩

theorem SameSystemAndFree.trans (h : SameSystemAndFree s t) (k : SameSystemAndFree t u) : SameSystemAndFree s u :=
  ⟨h.toSameSystem.trans k.toSameSystem, k.acks.trans h.acks, k.freeCount.trans h.freeCount⟩

theorem SameLists.trans (h : SameLists s t) (k : SameLists t u) : SameLists s u :=
  ⟨k.pcxi.trans h.pcxi, k.fcx.trans h.fcx, k.fcdDeferred.trans h.fcdDeferred⟩

theorem SameStatus.trans (h : SameStatus s t) (k : SameStatus t u) : SameStatus s u :=
  ⟨h.toSameSystemAndFree.trans k.toSameSystemAndFree, h.toSameLists.trans k.toSameLists, k.psw.trans h.psw,
    k.icr.trans h.icr⟩

end

/-! ### A restore after a save (R141, R143, R167) -/

theorem CanSave.exists_link {s : State} (h : CanSave s) :
    ∃ link, s.mem.readWord (csaEA (pointerOf s.fcx)) = some link := by
  obtain ⟨link, hl, _⟩ := saveContext_of_canSave true h
  exact ⟨link, hl⟩

theorem CanRestore.exists_words {upper : Bool} {s : State} (h : CanRestore upper s) :
    ∃ w, WordsAt s (csaEA (Pcxi.pcx s.pcxi)) w := by
  obtain ⟨_, _, hr, _⟩ := h
  exact wordsAt_of_readable hr

/-- The words of a context in the order of 20_memory.md R85 or R86 are the sixteen words of `contextWords`. -/
theorem wordsAt_of_contextImage {upper : Bool} {s t : State} {ea : Word}
    (h : ContextImage upper t.mem ea s) : WordsAt t ea (contextWords upper s) := by
  obtain ⟨hupper, hlower⟩ := h
  intro k
  cases upper with
  | true =>
    have h := hupper rfl
    fin_cases k
    exacts [by simpa [blockAddr] using h.w0, h.w1, h.w2, h.w3, h.w4, h.w5, h.w6, h.w7, h.w8, h.w9, h.w10, h.w11,
      h.w12, h.w13, h.w14, h.w15]
  | false =>
    have h := hlower rfl
    fin_cases k
    exacts [by simpa [blockAddr] using h.w0, h.w1, h.w2, h.w3, h.w4, h.w5, h.w6, h.w7, h.w8, h.w9, h.w10, h.w11,
      h.w12, h.w13, h.w14, h.w15]

/-- Backing and program text are the platform's. -/
theorem Writable.congr {s t : State} {ea : Word} {n : Nat} (hp : t.platform = s.platform)
    (h : Writable s ea n) : Writable t ea n := by
  simpa only [Writable, backed, isText, hp] using h

theorem Writable.backed {s t : State} {ea : Word} {n : Nat} (hp : t.platform = s.platform)
    (h : Writable s ea n) : ∀ a ∈ span ea n, backed t a = true :=
  fun a ha => (h.congr hp a ha).1

/-- What `SaveContext` and then `RestoreContext` leave of the lists: PCXI and FCX are back, and the CSA, the one
place where memory may differ, links to the same next CSA (R167). -/
structure ListsRestored (s u : State) : Prop where
  pcxi : u.pcxi = s.pcxi
  fcx : u.fcx = s.fcx
  memory : SameMemoryOutside (csaEA (pointerOf s.fcx)) 64 s u
  link : (u.mem.readWord (csaEA (pointerOf s.fcx))).map (fun l => pointerOf (csfrFrom s .fcx l)) =
    (s.mem.readWord (csaEA (pointerOf s.fcx))).map (fun l => pointerOf (csfrFrom s .fcx l))

/-- FCX is its pointer: the other bits are reserved. -/
theorem Inv.ofPointer_fcx {s : State} (h : Inv s) : ofPointer (pointerOf s.fcx) = s.fcx := by
  apply BitVec.eq_of_getLsbD_eq
  intro j hj
  rw [getLsbD_ofPointer, pointerOf, BitVec.getLsbD_extractLsb', Nat.zero_add]
  by_cases hlow : j < 20
  · simp [hlow]
  · have hreserved : ∀ j < 32, 20 ≤ j → (0xFFF00000#32).getLsbD j = true := by decide
    rw [and_eq_zero_iff_bits.1 h.fcx j hj (hreserved j hj (by omega)), Bool.and_false]

/-- A word without bits under a mask is unchanged by masking with the complement. -/
theorem and_not_of_and_eq_zero {w k : Word} (h : w &&& k = 0#32) : w &&& ~~~k = w := by
  apply BitVec.eq_of_getLsbD_eq
  intro j hj
  rw [BitVec.getLsbD_and, BitVec.getLsbD_not]
  cases hk : k.getLsbD j with
  | false => simp [hj]
  | true => simp [and_eq_zero_iff_bits.1 h j hj hk]

section
variable {upper : Bool} {s t : State} (h : Saved upper s t)
include h

/-- A save puts the CSA it took at the head of the previous list. -/
theorem Saved.pcx_eq : Pcxi.pcx t.pcxi = pointerOf s.fcx := by rw [h.pcxi, Pcxi.pcx_make]

theorem Saved.ul_eq : Pcxi.ul t.pcxi = upper := by rw [h.pcxi, Pcxi.ul_make]

theorem Saved.wordsAt : WordsAt t (csaEA (Pcxi.pcx t.pcxi)) (contextWords upper s) := by
  rw [h.pcx_eq]
  exact wordsAt_of_contextImage h.words

variable (hp : t.platform = s.platform)
include hp

theorem Saved.canRestore (hc : CanSave s) : CanRestore upper t := by
  obtain ⟨hnull, _, hw⟩ := hc
  have hwords := h.wordsAt
  rw [h.pcx_eq] at hwords
  refine ⟨?_, h.ul_eq, ?_, ?_⟩ <;> rw [h.pcx_eq]
  · exact hnull
  · exact readable_of_wordsAt hwords (hw.backed hp)
  · exact (hw.congr hp).mono (by omega)

/-- The restore of the context just saved undoes what the save did to the lists. -/
theorem Saved.listsRestored {u : State} (hi : Inv s) (hr : Restored (contextWords upper s) t u) :
    ListsRestored s u where
  pcxi := by
    rw [hr.pcxi, contextWords_zero, csfrFrom_csfrWord hi.layout hp]
    exact and_not_of_and_eq_zero hi.pcxi
  fcx := by rw [hr.fcx, h.pcx_eq, hi.ofPointer_fcx]
  memory := h.memory.trans (n := 4) (by omega) (h.pcx_eq ▸ hr.memory)
  link := by
    obtain ⟨link, hl, hfcx⟩ := h.fcx
    have hback : u.mem.readWord (csaEA (pointerOf s.fcx)) = some (csfrWord t .fcx) := h.pcx_eq ▸ hr.link
    have hvalue : csfrFrom s .fcx (csfrWord t .fcx) = t.fcx :=
      csfrFrom_csfrWord (by rw [hp]; exact hi.layout) hp.symm .fcx
    rw [hback, hl, Option.map_some, Option.map_some, hvalue, hfcx, pointerOf_ofPointer]

end

/-! ### Calls (R147) -/

/-- The state a call to `target` leaves when the head CSA's link word is `link`. -/
def calledState (target ret link : Word) (s : State) : State :=
  (((forgetUpper (savedState true link s)).setPsw (callPsw s.psw)).writeA 11 ret).setPc target

/-- A call whose counter does not overflow can answer one thing. -/
theorem callTo_eq_next_of_counted {target len : Word} {s t : State}
    (hno : ¬ (Psw.cde s.psw = true ∧ cdcIncOverflows (Psw.cdc s.psw) = true)) :
    callTo target len s = .next t ↔ CanSave s ∧
      ∃ link, s.mem.readWord (csaEA (pointerOf s.fcx)) = some link ∧
        t = calledState target (s.pc + len) link s := by
  have hcdo : (Psw.cde s.psw && cdcIncOverflows (Psw.cdc s.psw)) = false := by simpa using hno
  simp [callTo_eq_next, hcdo, calledState]

/-- The counter after a call: one more where counting is enabled and on (R147 step 5, R145). -/
theorem callPsw_cdc_eq (w : Word) : Psw.cdc (callPsw w) =
    if Psw.cde w = true ∧ Psw.cdc w ≠ 0b1111111#7 then Psw.cdc w + 1#7 else Psw.cdc w := by
  rw [callPsw_cdc, cdcInc, cdcOff]
  by_cases hcde : Psw.cde w = true
  · by_cases hoff : Psw.cdc w = 0b1111111#7 <;> simp [hcde, hoff]
  · simp [hcde]

section
variable (target ret link : Word) (s : State)

@[simp] theorem calledState_psw : (calledState target ret link s).psw = callPsw s.psw := rfl

@[simp] theorem calledState_icr : (calledState target ret link s).icr = s.icr := by simp [calledState]

theorem calledState_sameDataExcept :
    SameDataExcept [8, 9, 10, 11, 12, 13, 14, 15] s (calledState target ret link s) := by
  intro r hr
  have hr8 : r.val < 8 := by revert hr; revert r; decide
  rw [calledState, State.setPc_d, State.writeA_d, State.setPsw_d, forgetUpper_d _ r hr8, savedState_d]

theorem calledState_sameAddressExcept :
    SameAddressExcept [11, 12, 13, 14, 15] s (calledState target ret link s) := by
  intro r hr
  obtain ⟨hr12, hr11⟩ : r.val < 12 ∧ r ≠ 11 := by revert hr; revert r; decide
  rw [calledState, State.setPc_a, writeA_a, if_neg hr11, State.setPsw_a, forgetUpper_a _ r hr12, savedState_a]

theorem calledState_sameSystem : SameSystem s (calledState target ret link s) := by
  constructor <;> simp [calledState]

theorem calledState_saved {link : Word} {s : State}
    (hl : s.mem.readWord (csaEA (pointerOf s.fcx)) = some link) : Saved true s (calledState target ret link s) := by
  apply saved_of_savedState hl <;> simp [calledState]

theorem calledState_callEntered {link : Word} {s : State}
    (hl : s.mem.readWord (csaEA (pointerOf s.fcx)) = some link) :
    CallEntered target ret s (calledState target ret link s) where
  saved := calledState_saved target ret hl
  pc := rfl
  a11 := rfl
  cde := callPsw_cde s.psw
  cdc := callPsw_cdc_eq s.psw
  pswOthers := callPsw_others s.psw
  icr := calledState_icr target ret link s
  dataKept := calledState_sameDataExcept target ret link s
  addressKept := calledState_sameAddressExcept target ret link s
  system := calledState_sameSystem target ret link s
  acks := by simp [calledState]

end

theorem CallForm.len_even {s : State} {i : Instr} {target len : Word} (h : CallForm s i target len) :
    len.getLsbD 0 = false := by
  cases h <;> rfl

/-- The counter of a call that does not overflow has something for the return to take back, or is off. -/
theorem cdcDecUnderflows_cdcInc {c : BitVec 7} (h : cdcIncOverflows c = false) :
    cdcDecUnderflows (cdcInc c) = false := by
  by_cases hc : c = 0b1111111#7
  · subst hc; rfl
  · obtain ⟨_, hcount⟩ := cdcInc_counts c hc h
    exact cdcDecUnderflows_of_count_pos (by omega)

/-! ### RET (R150) -/

theorem getLsbD_pswImplemented {j : Nat} (hj : j < 32) :
    pswImplemented.getLsbD j = decide (j < 16 ∨ 24 ≤ j) := by
  revert j
  decide

/-- Every bit of the PSW that RET leaves. -/
theorem getLsbD_retPsw (restoresRm : Bool) (old saved : Word) {j : Nat} (hj : j < 32) :
    (retPsw restoresRm old saved).getLsbD j = if 16 ≤ j ∧ j < 24 then false
      else if 24 ≤ j ∧ j < 26 ∧ restoresRm = false then old.getLsbD j else saved.getLsbD j := by
  rw [retPsw, BitVec.getLsbD_and, getLsbD_pswImplemented hj]
  by_cases hreserved : 16 ≤ j ∧ j < 24
  · simp [hreserved]
  · have himplemented : j < 16 ∨ 24 ≤ j := by omega
    rw [if_neg hreserved, decide_eq_true himplemented, Bool.and_true]
    cases restoresRm with
    | true => simp
    | false =>
      rw [if_neg (by simp), getLsbD_setField _ _ _ (by omega)]
      by_cases hrounding : 24 ≤ j ∧ j < 26
      · have hshift : 24 + (j - 24) = j := by omega
        have hwidth : j - 24 < 2 := by omega
        simp [hrounding, hshift, hwidth]
      · rw [if_neg hrounding, if_neg fun ⟨hlo, hhi, _⟩ => hrounding ⟨hlo, hhi⟩]

theorem retPsw_returnPsw (restoresRm : Bool) (old saved : Word) :
    ReturnPsw restoresRm old saved (retPsw restoresRm old saved) := by
  have beyond : ∀ {j : Nat}, ¬ j < 32 → ∀ w : Word, w.getLsbD j = false :=
    fun hj w => BitVec.getLsbD_of_ge w _ (by omega)
  constructor
  case high =>
    intro j hj
    by_cases hj32 : j < 32
    · rw [getLsbD_retPsw _ _ _ hj32, if_neg (by omega), if_neg (by omega)]
    · rw [beyond hj32, beyond hj32]
  case rounding =>
    intro j hj hj'
    rw [getLsbD_retPsw _ _ _ (by omega), if_neg (by omega)]
    cases restoresRm <;> simp [hj, hj']
  case reserved => exact fun j hj hj' => by rw [getLsbD_retPsw _ _ _ (by omega), if_pos ⟨hj, hj'⟩]
  case low => exact fun j hj => by rw [getLsbD_retPsw _ _ _ (by omega), if_neg (by omega), if_neg (by omega)]

/-- RET loads the whole saved word where that has no reserved bit set and PSW[25:24] is as when it was saved. -/
theorem retPsw_eq_saved {restoresRm : Bool} {old saved : Word} (hs : saved &&& 0x00FF0000#32 = 0#32)
    (ho : ∀ j, 24 ≤ j → old.getLsbD j = saved.getLsbD j) : retPsw restoresRm old saved = saved := by
  apply BitVec.eq_of_getLsbD_eq
  intro j hj
  rw [getLsbD_retPsw _ _ _ hj]
  split
  · rename_i hreserved
    have hmask : ∀ j < 32, 16 ≤ j ∧ j < 24 → (0x00FF0000#32).getLsbD j = true := by decide
    exact (and_eq_zero_iff_bits.1 hs j hj (hmask j hj hreserved)).symm
  · split
    · rename_i hrounding
      obtain ⟨hlo, _⟩ := hrounding
      exact ho j hlo
    · rfl

section
variable {w : Vector Word 16} {s : State}

/-- A RET of which no trap is due restores the words of the CSA at the head of the previous list. -/
theorem returnFromCall_of_canRestore (hc : CanRestore true s)
    (hno : ¬ (Psw.cde s.psw = true ∧ cdcDecUnderflows (Psw.cdc s.psw) = true))
    (hw : WordsAt s (csaEA (Pcxi.pcx s.pcxi)) w) : returnFromCall s = .next (returnedState w s) :=
  returnFromCall_eq_next.2 (.inr ⟨by simpa using hno, .inr (.inr ⟨hc, w, hw, rfl⟩)⟩)

theorem returnedState_psw :
    (returnedState w s).psw = retPsw s.platform.retRestoresRm s.psw (csfrFrom s .psw w[1]) := rfl

theorem returnedState_restored (hw : WordsAt s (csaEA (Pcxi.pcx s.pcxi)) w) :
    Restored w s (returnedState w s) :=
  restored_of_restoredState hw rfl rfl rfl rfl

theorem returnedState_upperFrom : UpperFrom w s (returnedState w s) :=
  upperFrom_of_assignUpper (r := restoredState w s) rfl rfl rfl rfl

theorem returnedState_sameSystemAndFree : SameSystemAndFree s (returnedState w s) :=
  ⟨⟨rfl, rfl, rfl, rfl, rfl, rfl⟩, rfl, rfl⟩

end

/-- RET after a call gives the caller's general registers back: the call kept those outside the upper context. -/
theorem CallEntered.sameRegisters_returned {target ret : Word} {s t : State} (h : CallEntered target ret s t) :
    SameRegisters s (returnedState (upperWords s) t) := by
  obtain ⟨hd, ha⟩ := assignUpper_upperWords (s := s) (r := restoredState (upperWords s) t)
    (fun q hq => h.dataKept q (by revert hq; revert q; decide))
    (fun q hq => h.addressKept q (by revert hq; revert q; decide))
  exact ⟨hd, ha⟩

/-- RET after a call loads the caller's PSW. -/
theorem CallEntered.psw_returned {target ret : Word} {s t : State} (h : CallEntered target ret s t) (hi : Inv s) :
    (returnedState (upperWords s) t).psw = s.psw := by
  have hsaved : csfrFrom t .psw (upperWords s)[1] = s.psw := csfrFrom_csfrWord hi.layout h.system.platform .psw
  rw [returnedState_psw, hsaved]
  exact retPsw_eq_saved hi.psw fun j hj => h.pswOthers j (by omega)

/-! ### Fast calls and returns (R153, R157) -/

/-- The state a fast call to `target` leaves. -/
def fastCalledState (target : Word) (s : State) : State :=
  (((s.setMem (s.mem.writeWord (fastCallSlot s) s.a[11])).writeA 11 (s.pc + 4#32)).writeA 10
    (fastCallSlot s)).setPc target

/-- The state a fast return leaves that loaded `ra`. -/
def fastReturnedState (ra : Word) (s : State) : State :=
  ((s.writeA 11 ra).writeA 10 (s.a[10] + 4#32)).setPc (regTarget s.a[11])

section
variable (target ra : Word) (s : State)

theorem fastCallTo_eq_fastCalledState (h : s.a[10].extractLsb' 0 2 = 0#2) (hw : Writable s (fastCallSlot s) 4) :
    fastCallTo target s = .next (fastCalledState target s) :=
  fastCallTo_eq_next.2 ⟨wordAligned_iff.2 h, hw, rfl⟩

theorem fastReturn_eq_fastReturnedState (h : s.a[10].extractLsb' 0 2 = 0#2) (hr : Readable s s.a[10] 4)
    (hra : s.mem.readWord s.a[10] = some ra) : fastReturn s = .next (fastReturnedState ra s) :=
  fastReturn_eq_next.2 ⟨wordAligned_iff.2 h, hr, ra, hra, rfl⟩

theorem fastCalledState_a (r : Fin 16) : (fastCalledState target s).a[r] =
    if r = 10 then fastCallSlot s else if r = 11 then s.pc + 4#32 else s.a[r] := by
  rw [fastCalledState, State.setPc_a, writeA_a, writeA_a, State.setMem_a]

theorem fastCalledState_a10 : (fastCalledState target s).a[10] = fastCallSlot s := fastCalledState_a target s 10

theorem fastCalledState_a11 : (fastCalledState target s).a[11] = s.pc + 4#32 := fastCalledState_a target s 11

theorem fastCalledState_sameAddressExcept : SameAddressExcept [10, 11] s (fastCalledState target s) := by
  intro r hr
  obtain ⟨h10, h11⟩ : r ≠ 10 ∧ r ≠ 11 := by simpa using hr
  rw [fastCalledState_a, if_neg h10, if_neg h11]

theorem fastCalledState_readWord : (fastCalledState target s).mem.readWord (fastCallSlot s) = some s.a[11] :=
  Memory.readWord_writeWord_same s.mem (fastCallSlot s) s.a[11]

theorem fastCalledState_sameMemoryOutside : SameMemoryOutside (fastCallSlot s) 4 s (fastCalledState target s) :=
  sameMemoryOutside_of_writeWord rfl

theorem fastCalledState_sameStatus : SameStatus s (fastCalledState target s) :=
  ⟨⟨⟨rfl, rfl, rfl, rfl, rfl, rfl⟩, rfl, rfl⟩, ⟨rfl, rfl, rfl⟩, rfl, rfl⟩

theorem fastReturnedState_a (r : Fin 16) : (fastReturnedState ra s).a[r] =
    if r = 10 then s.a[10] + 4#32 else if r = 11 then ra else s.a[r] := by
  rw [fastReturnedState, State.setPc_a, writeA_a, writeA_a]

theorem fastReturnedState_a10 : (fastReturnedState ra s).a[10] = s.a[10] + 4#32 := fastReturnedState_a ra s 10

theorem fastReturnedState_a11 : (fastReturnedState ra s).a[11] = ra := fastReturnedState_a ra s 11

theorem fastReturnedState_sameAddressExcept : SameAddressExcept [10, 11] s (fastReturnedState ra s) := by
  intro r hr
  obtain ⟨h10, h11⟩ : r ≠ 10 ∧ r ≠ 11 := by simpa using hr
  rw [fastReturnedState_a, if_neg h10, if_neg h11]

theorem fastReturnedState_sameStatus : SameStatus s (fastReturnedState ra s) :=
  ⟨⟨⟨rfl, rfl, rfl, rfl, rfl, rfl⟩, rfl, rfl⟩, ⟨rfl, rfl, rfl⟩, rfl, rfl⟩

/-- The pair changes A[11] and A[10], and brings both back. -/
theorem fastReturnedState_fastCalledState_a : (fastReturnedState s.a[11] (fastCalledState target s)).a = s.a := by
  have hregister : ∀ r : Fin 16, (fastReturnedState s.a[11] (fastCalledState target s)).a[r] = s.a[r] := by
    intro r
    rw [fastReturnedState_a, fastCalledState_a10, fastCalledState_a]
    by_cases h10 : r = 10
    · subst h10
      exact BitVec.sub_add_cancel s.a[10] 4#32
    · by_cases h11 : r = 11
      · subst h11
        rfl
      · rw [if_neg h10, if_neg h11, if_neg h10, if_neg h11]
  exact Vector.ext fun k hk => hregister ⟨k, hk⟩

end

/-- The word below a word address is one. -/
theorem wordAligned_fastCallSlot {s : State} (h : wordAligned s.a[10] = true) :
    wordAligned (fastCallSlot s) = true := by
  have hlow : ∀ v : Word, (v - 4#32).extractLsb' 0 2 = v.extractLsb' 0 2 := by
    intro v
    apply BitVec.eq_of_toNat_eq
    rw [BitVec.extractLsb'_toNat, BitVec.extractLsb'_toNat, Nat.shiftRight_zero, Nat.shiftRight_zero]
    bv_omega
  rw [wordAligned_iff] at h ⊢
  rw [fastCallSlot, hlow, h]

/-- A word that reads and is backed can be loaded. -/
theorem readable_of_readWord {s : State} {ea w : Word} (h : s.mem.readWord ea = some w)
    (hb : ∀ a ∈ span ea 4, backed s a = true) : Readable s ea 4 := by
  intro a ha
  obtain ⟨i, hi, rfl⟩ := mem_span.1 ha
  exact ⟨hb _ ha, Memory.read_of_readWord h i hi⟩

/-- A fast return right after a fast call pops the word the call pushed. -/
theorem fastReturn_fastCalledState {target : Word} {s : State} (ha : wordAligned s.a[10] = true)
    (hw : Writable s (fastCallSlot s) 4) : fastReturn (fastCalledState target s) =
      .next (fastReturnedState s.a[11] (fastCalledState target s)) := by
  have hread := fastCalledState_readWord target s
  apply fastReturn_eq_fastReturnedState <;> rw [fastCalledState_a10]
  · exact wordAligned_iff.1 (wordAligned_fastCallSlot ha)
  · exact readable_of_readWord hread (hw.backed rfl)
  · exact hread

/-! ### Lower context save and restore (R159, R160) -/

section
variable (len : Word) (s : State)
@[simp] theorem advance_d : (advance len s).d = s.d := rfl
@[simp] theorem advance_pc : (advance len s).pc = s.pc + len := rfl
@[simp] theorem advance_psw : (advance len s).psw = s.psw := rfl
@[simp] theorem advance_pcxi : (advance len s).pcxi = s.pcxi := rfl
@[simp] theorem advance_fcx : (advance len s).fcx = s.fcx := rfl
@[simp] theorem advance_icr : (advance len s).icr = s.icr := rfl
@[simp] theorem advance_fcdDeferred : (advance len s).fcdDeferred = s.fcdDeferred := rfl
@[simp] theorem advance_acks : (advance len s).acks = s.acks := rfl
@[simp] theorem advance_freeCount : (advance len s).freeCount = s.freeCount := rfl
end

/-- What SVLCX leaves: the lower context saved, pc advanced, everything else as it was (R159). -/
structure LowerSaved (s t : State) : Prop where
  saved : Saved false s t
  registers : SameRegisters s t
  pc : t.pc = s.pc + 4#32
  psw : t.psw = s.psw
  icr : t.icr = s.icr
  system : SameSystemAndFree s t

theorem lowerSaved_of_savedState {link : Word} {s : State}
    (hl : s.mem.readWord (csaEA (pointerOf s.fcx)) = some link) :
    LowerSaved s (advance 4#32 (savedState false link s)) where
  saved := by apply saved_of_savedState hl <;> simp
  registers := by constructor <;> simp
  pc := by simp
  psw := by simp
  icr := by simp
  system := by
    refine ⟨?_, ?_, ?_⟩
    · constructor <;> simp
    · simp
    · simp

/-- The state RSLCX leaves when it restored the words `w`. -/
def lowerRestoredState (w : Vector Word 16) (s : State) : State :=
  advance 4#32 (assignLower w (restoredState w s))

section
variable {w : Vector Word 16} {s : State}

theorem execRslcx_of_canRestore (hc : CanRestore false s) (hw : WordsAt s (csaEA (Pcxi.pcx s.pcxi)) w) :
    execRslcx s = .next (lowerRestoredState w s) :=
  execRslcx_eq_next.2 (.inr (.inr ⟨hc, w, hw, rfl⟩))

theorem lowerRestoredState_restored (hw : WordsAt s (csaEA (Pcxi.pcx s.pcxi)) w) :
    Restored w s (lowerRestoredState w s) :=
  restored_of_restoredState hw rfl rfl rfl rfl

theorem lowerRestoredState_lowerFrom : LowerFrom w s (lowerRestoredState w s) :=
  lowerFrom_of_assignLower (r := restoredState w s) rfl rfl rfl rfl

theorem lowerRestoredState_sameSystemAndFree : SameSystemAndFree s (lowerRestoredState w s) :=
  ⟨⟨rfl, rfl, rfl, rfl, rfl, rfl⟩, rfl, rfl⟩

end

/-- RSLCX after SVLCX loads what the registers still hold. -/
theorem LowerSaved.sameRegisters_restored {s t : State} (h : LowerSaved s t) :
    SameRegisters s (lowerRestoredState (lowerWords s) t) := by
  obtain ⟨hd, ha⟩ := assignLower_lowerWords (s := s) (r := restoredState (lowerWords s) t)
    (fun q _ => by rw [restoredState_d, h.registers.d]) fun q _ => by rw [restoredState_a, h.registers.a]
  exact ⟨hd, ha⟩

/-! ### Context store and load (R144) -/

/-- The state a context store of the kind leaves. -/
def storedState (upper : Bool) (ea : Word) (s : State) : State :=
  advance 4#32 (s.setMem (s.mem.writeWords ea (contextWords upper s).toList))

/-- The state a context load of the kind leaves that read the words `w`. -/
def loadedState (upper : Bool) (w : Vector Word 16) (s : State) : State :=
  advance 4#32 (if upper then assignUpper w s else assignLower w s)

section
variable {form : AlignedForm} (upper : Bool) (ea : Word) (w : Vector Word 16) (s : State)

theorem storeContext_eq_storedState (h : ea.extractLsb' 0 6 = 0#6) (hw : Writable s ea 64) :
    storeContext form upper ea s = .next (storedState upper ea s) :=
  storeContext_eq_next.2 ⟨blockAligned_iff.2 h, hw, rfl⟩

theorem loadContext_eq_loadedState (h : ea.extractLsb' 0 6 = 0#6) (hr : Readable s ea 64) (hw : WordsAt s ea w) :
    loadContext form upper ea s = .next (loadedState upper w s) :=
  loadContext_eq_next.2 ⟨blockAligned_iff.2 h, hr, w, hw, rfl⟩

theorem storedState_wordsAt : WordsAt (storedState upper ea s) ea (contextWords upper s) :=
  wordsAt_of_writeWords (m := s.mem) rfl

theorem storedState_sameMemoryOutside : SameMemoryOutside ea 64 s (storedState upper ea s) :=
  sameMemoryOutside_of_writeWords rfl

theorem storedState_sameStatus : SameStatus s (storedState upper ea s) :=
  ⟨⟨⟨rfl, rfl, rfl, rfl, rfl, rfl⟩, rfl, rfl⟩, ⟨rfl, rfl, rfl⟩, rfl, rfl⟩

theorem loadedState_upperFrom : UpperFrom w s (loadedState true w s) :=
  upperFrom_of_assignUpper (r := s) rfl rfl rfl rfl

theorem loadedState_lowerFrom : LowerFrom w s (loadedState false w s) :=
  lowerFrom_of_assignLower (r := s) rfl rfl rfl rfl

@[simp] theorem loadedState_pc : (loadedState upper w s).pc = s.pc + 4#32 := by cases upper <;> rfl

@[simp] theorem loadedState_mem : (loadedState upper w s).mem = s.mem := by cases upper <;> rfl

theorem loadedState_sameStatus : SameStatus s (loadedState upper w s) := by
  cases upper <;> exact ⟨⟨⟨rfl, rfl, rfl, rfl, rfl, rfl⟩, rfl, rfl⟩, ⟨rfl, rfl, rfl⟩, rfl, rfl⟩

end

/-- Words that are the upper context of `s` carry its D[8] to D[15] and A[10] to A[15]. -/
theorem UpperFrom.registers_eq {s u v : State} (h : UpperFrom (upperWords s) u v) :
    (∀ r : Fin 16, 8 ≤ r.val → v.d[r] = s.d[r]) ∧ (∀ r : Fin 16, 10 ≤ r.val → v.a[r] = s.a[r]) := by
  constructor
  · rintro ⟨r, hr⟩ (hlow : 8 ≤ r)
    interval_cases r
    exacts [h.d8, h.d9, h.d10, h.d11, h.d12, h.d13, h.d14, h.d15]
  · rintro ⟨r, hr⟩ (hlow : 10 ≤ r)
    interval_cases r
    exacts [h.a10, h.a11, h.a12, h.a13, h.a14, h.a15]

/-- Words that are the lower context of `s` carry its D[0] to D[7], A[11] and A[2] to A[7]. -/
theorem LowerFrom.registers_eq {s u v : State} (h : LowerFrom (lowerWords s) u v) :
    (∀ r : Fin 16, r.val < 8 → v.d[r] = s.d[r]) ∧ v.a[11] = s.a[11] ∧
      (∀ r : Fin 16, 2 ≤ r.val → r.val < 8 → v.a[r] = s.a[r]) := by
  refine ⟨?data, h.a11, ?address⟩
  case data =>
    rintro ⟨r, hr⟩ (hhigh : r < 8)
    interval_cases r
    exacts [h.d0, h.d1, h.d2, h.d3, h.d4, h.d5, h.d6, h.d7]
  case address =>
    rintro ⟨r, hr⟩ (hlow : 2 ≤ r) (hhigh : r < 8)
    interval_cases r
    exacts [h.a2, h.a3, h.a4, h.a5, h.a6, h.a7]

end Sys2Proof.Machine

open Sys2Proof Sys2Proof.Machine

/-- Settles O26: each form is a call to its target, which saves, counts and jumps. -/
theorem callEffect : Obligations.CallEffect := by
  intro s i target len hi hc hno
  obtain ⟨link, hl⟩ := hc.exists_link
  exact ⟨_, hi.exec_eq.trans ((callTo_eq_next_of_counted hno).2 ⟨hc, link, hl, rfl⟩),
    calledState_callEntered target (s.pc + len) hl⟩

/-- Settles O27: both lengths are one operation, which restores the words of the CSA it finds. -/
theorem returnEffect : Obligations.ReturnEffect := by
  intro s i hi hc hno
  obtain ⟨w, hw⟩ := hc.exists_words
  exact ⟨w, returnedState w s, (hi.exec_eq s).trans (returnFromCall_of_canRestore hc hno hw),
    returnedState_restored hw, returnedState_upperFrom, retPsw_returnPsw _ _ _, rfl, rfl,
    returnedState_sameSystemAndFree⟩

/-- Settles O28: the RET finds the context the call saved and a counter above 0 or off, and restores what was
saved. -/
theorem callThenReturnRestores : Obligations.CallThenReturnRestores := by
  intro s t i j target len hi hcall hret hcde hno he
  rw [hcall.exec_eq, callTo_eq_next_of_counted (by simp [hno])] at he
  obtain ⟨hc, link, hl, rfl⟩ := he
  have hcdu : cdcDecUnderflows (Psw.cdc (calledState target (s.pc + len) link s).psw) = false := by
    rw [calledState_psw, callPsw_cdc, if_pos hcde]
    exact cdcDecUnderflows_cdcInc hno
  have hcalled := calledState_callEntered target (s.pc + len) hl
  generalize calledState target (s.pc + len) link s = t at hcalled hcdu
  have hplat := hcalled.system.platform
  have hw := hcalled.saved.wordsAt
  have hlists := hcalled.saved.listsRestored hplat hi (returnedState_restored hw)
  have hpc : regTarget t.a[11] = s.pc + len := by
    rw [hcalled.a11]
    exact evenBase_of_even (even_add hi.pcEven hcall.len_even)
  have hexec : exec j t = .next (returnedState (upperWords s) t) :=
    (hret.exec_eq t).trans (returnFromCall_of_canRestore (hcalled.saved.canRestore hplat hc) (by simp [hcdu]) hw)
  exact ⟨_, hexec, hcalled.sameRegisters_returned, hpc, hcalled.psw_returned hi, hlists.pcxi, hlists.fcx,
    hcalled.icr, hcalled.system.trans returnedState_sameSystemAndFree.toSameSystem, hlists.memory, hlists.link⟩

/-- Settles O32: each form is one operation with its target. -/
theorem fastCallEffect : Obligations.FastCallEffect := by
  intro s i target hi ha hw
  exact ⟨fastCalledState target s, hi.exec_eq.trans (fastCallTo_eq_fastCalledState target s ha hw), rfl,
    fastCalledState_a11 target s, fastCalledState_a10 target s, fastCalledState_readWord target s,
    fastCalledState_sameMemoryOutside target s, fastCalledState_sameAddressExcept target s, rfl,
    fastCalledState_sameStatus target s⟩

/-- Settles O33: both lengths are one operation. -/
theorem fastReturnEffect : Obligations.FastReturnEffect := by
  intro s i hi ha hr
  have hra := readWord_of_readable hr
  exact ⟨fastReturnedState _ s, (hi.exec_eq s).trans (fastReturn_eq_fastReturnedState _ s ha hr hra),
    rfl, (fastReturnedState_a11 _ s).symm ▸ hra, fastReturnedState_a10 _ s, fun _ => rfl,
    fastReturnedState_sameAddressExcept _ s, rfl, fastReturnedState_sameStatus _ s⟩

/-- Settles O34: the FRET pops the A[11] that the call pushed. -/
theorem fastCallThenReturnRestores : Obligations.FastCallThenReturnRestores := by
  intro s t i j target hpc hcall hret he
  rw [hcall.exec_eq, fastCallTo_eq_next] at he
  obtain ⟨ha, hw, rfl⟩ := he
  have hback : regTarget (fastCalledState target s).a[11] = s.pc + 4#32 := by
    rw [fastCalledState_a11]
    exact evenBase_of_even (even_add hpc (by decide))
  exact ⟨_, (hret.exec_eq _).trans (fastReturn_fastCalledState ha hw),
    ⟨rfl, fastReturnedState_fastCalledState_a target s⟩, hback,
    (fastCalledState_sameStatus target s).trans (fastReturnedState_sameStatus _ _),
    fastCalledState_sameMemoryOutside target s⟩

/-- Settles O36: the save and the advance of pc. -/
theorem svlcxEffect : Obligations.SvlcxEffect := by
  intro s hc
  obtain ⟨link, hl⟩ := hc.exists_link
  have h := lowerSaved_of_savedState hl
  exact ⟨_, execSvlcx_eq_next.2 ⟨hc, link, hl, rfl⟩, h.saved, h.registers, h.pc, h.psw, h.icr, h.system⟩

/-- Settles O37: the words of the CSA it finds, and the advance of pc. -/
theorem rslcxEffect : Obligations.RslcxEffect := by
  intro s hc
  obtain ⟨w, hw⟩ := hc.exists_words
  exact ⟨w, lowerRestoredState w s, execRslcx_of_canRestore hc hw, lowerRestoredState_restored hw,
    lowerRestoredState_lowerFrom, rfl, rfl, rfl, lowerRestoredState_sameSystemAndFree⟩

/-- Settles O38: the RSLCX finds the context the SVLCX saved, which is that of registers nothing has changed. -/
theorem svlcxThenRslcxRestores : Obligations.SvlcxThenRslcxRestores := by
  intro s t hi he
  obtain ⟨hc, link, hl, rfl⟩ := execSvlcx_eq_next.1 he
  have h := lowerSaved_of_savedState hl
  generalize advance 4#32 (savedState false link s) = t at h
  have hplat := h.system.platform
  have hw := h.saved.wordsAt
  have hlists := h.saved.listsRestored hplat hi (lowerRestoredState_restored hw)
  have hpc : t.pc + 4#32 = s.pc + 8#32 := by rw [h.pc]; exact BitVec.add_assoc s.pc 4#32 4#32
  exact ⟨_, execRslcx_of_canRestore (h.saved.canRestore hplat hc) hw, h.sameRegisters_restored, hpc, h.psw, h.icr,
    hlists.pcxi, hlists.fcx, h.system.trans lowerRestoredState_sameSystemAndFree, hlists.memory, hlists.link⟩

/-- Settles O39: each form stores the sixteen words of its kind at its effective address. -/
theorem contextStoreEffect : Obligations.ContextStoreEffect := by
  intro s i upper ea hi ha hw
  exact ⟨storedState upper ea s, hi.exec_eq.trans (storeContext_eq_storedState upper ea s ha hw),
    contextImage_of_wordsAt (storedState_wordsAt upper ea s), storedState_sameMemoryOutside upper ea s, ⟨rfl, rfl⟩,
    rfl, storedState_sameStatus upper ea s⟩

/-- Settles O40: each form assigns the registers of its kind from the sixteen words at its effective address. -/
theorem contextLoadEffect : Obligations.ContextLoadEffect := by
  intro s i upper ea hi ha hr
  obtain ⟨w, hw⟩ := wordsAt_of_readable hr
  refine ⟨w, loadedState upper w s, hi.exec_eq.trans (loadContext_eq_loadedState upper ea w s ha hr hw),
    hw, ?_, ?_, loadedState_pc upper w s, fun a => by rw [loadedState_mem], loadedState_sameStatus upper w s⟩
  · rintro rfl
    exact loadedState_upperFrom w s
  · rintro rfl
    exact loadedState_lowerFrom w s

/-- Settles O41: the load finds the words that were stored, and they are those of the stored registers. -/
theorem contextStoreThenLoad : Obligations.ContextStoreThenLoad := by
  intro s t u i j upper ea hstore hload he hmem hplat
  rw [hstore.exec_eq, storeContext_eq_next] at he
  obtain ⟨ha, hw, rfl⟩ := he
  have hwords : WordsAt u ea (contextWords upper s) := by
    rw [WordsAt, hmem]
    exact storedState_wordsAt upper ea s
  have hread : Readable u ea 64 := readable_of_wordsAt hwords (hw.backed hplat)
  refine ⟨loadedState upper (contextWords upper s) u,
    hload.exec_eq.trans (loadContext_eq_loadedState upper ea _ u (blockAligned_iff.1 ha) hread hwords), ?_, ?_⟩
  · rintro rfl
    exact (loadedState_upperFrom (upperWords s) u).registers_eq
  · rintro rfl
    exact (loadedState_lowerFrom (lowerWords s) u).registers_eq

end

section
/-! PROOFS. Interrupt control and system instructions (41_interrupt_system_instructions.md): ENABLE and DISABLE,
BISR, RFE, SYSCALL, MTCR, MFCR and ISYNC, each by what it leaves (R181 to R200). -/

namespace Sys2Proof.Machine

/-! ### ICR (R181, R182, R184, R188) -/

section
variable (w : Word)

/-- Setting IE adds bit 15. -/
theorem Icr.getLsbD_setIe_true (j : Nat) : (Icr.setIe w true).getLsbD j = (w.getLsbD j || j == 15) := by
  rw [Icr.getLsbD_setIe]
  by_cases h : j = 15 <;> simp [h]

/-- Clearing IE removes bit 15. -/
theorem Icr.getLsbD_setIe_false (j : Nat) : (Icr.setIe w false).getLsbD j = (w.getLsbD j && j != 15) := by
  rw [Icr.getLsbD_setIe]
  by_cases h : j = 15 <;> simp [h]

/-- BISR and RFE replace IE and CCPN; the other bits of ICR stay. -/
theorem Icr.getLsbD_setCcpn_setIe (b : Bool) (v : BitVec 8) (j : Nat) (hccpn : 8 ≤ j) (hie : j ≠ 15) :
    (Icr.setCcpn (Icr.setIe w b) v).getLsbD j = w.getLsbD j := by
  rw [Icr.getLsbD_setCcpn, if_neg (by omega), Icr.getLsbD_setIe, if_neg hie]

end

/-! ### ENABLE and DISABLE (R181, R182, R256) -/

theorem mayControlInterrupts_iff {s : State} : mayControlInterrupts s = true ↔
    Psw.io s.psw = 0b10#2 ∨ (Psw.io s.psw = 0b01#2 ∧ Syscon.u1Ied s.core.syscon = false) := by
  simp [mayControlInterrupts, supervisor_iff, Io.user1]

/-- The state ENABLE (`true`) and DISABLE (`false`) leave. -/
def interruptsSwitched (b : Bool) (s : State) : State := advance 4#32 (s.setIcr (Icr.setIe s.icr b))

section
variable {s : State} (h : mayControlInterrupts s = true)
include h

theorem execEnable_of_allowed : execEnable s = .next (interruptsSwitched true s) := if_pos h

theorem execDisable_of_allowed : execDisable s = .next (interruptsSwitched false s) := if_pos h

end

section
variable (b : Bool) (s : State)

theorem interruptsSwitched_sameLists : SameLists s (interruptsSwitched b s) := ⟨rfl, rfl, rfl⟩

theorem interruptsSwitched_sameSystemAndFree : SameSystemAndFree s (interruptsSwitched b s) :=
  ⟨⟨rfl, rfl, rfl, rfl, rfl, rfl⟩, rfl, rfl⟩

end

/-! ### BISR (R184) -/

/-- The state BISR leaves when the head CSA's link word is `link`. -/
def isrBegun (p : BitVec 8) (len link : Word) (s : State) : State :=
  advance len ((savedState false link s).setIcr (Icr.setCcpn (Icr.setIe s.icr true) p))

section
variable {p : BitVec 8} {len link : Word} {s : State}

theorem beginIsr_of_supervisor (hs : Psw.io s.psw = 0b10#2) (hc : CanSave s)
    (hl : s.mem.readWord (csaEA (pointerOf s.fcx)) = some link) :
    beginIsr p len s = .next (isrBegun p len link s) :=
  beginIsr_eq_next.2 (.inr ⟨supervisor_iff.2 hs, hc, link, hl, rfl⟩)

theorem isrBegun_icr : (isrBegun p len link s).icr = Icr.setCcpn (Icr.setIe s.icr true) p := by simp [isrBegun]

theorem isrBegun_saved (hl : s.mem.readWord (csaEA (pointerOf s.fcx)) = some link) :
    Saved false s (isrBegun p len link s) := by
  apply saved_of_savedState hl <;> simp [isrBegun]

theorem isrBegun_sameRegisters : SameRegisters s (isrBegun p len link s) := by
  constructor <;> simp [isrBegun]

theorem isrBegun_sameSystemAndFree : SameSystemAndFree s (isrBegun p len link s) := by
  refine ⟨?_, ?_, ?_⟩
  · constructor <;> simp [isrBegun]
  · simp [isrBegun]
  · simp [isrBegun]

end

/-! ### RFE (R188) -/

section
variable {w : Vector Word 16} {s : State}

/-- An RFE of which no trap is due restores the words of the CSA at the head of the previous list. -/
theorem returnFromException_of_canRestore (hc : CanRestore true s)
    (hno : ¬ (Psw.cde s.psw = true ∧ cdcZero (Psw.cdc s.psw) = false))
    (hw : WordsAt s (csaEA (Pcxi.pcx s.pcxi)) w) : returnFromException s = .next (resumedState w s) :=
  returnFromException_eq_next.2 (.inr (.inr (.inr ⟨by simpa using hno, hc, w, hw, rfl⟩)))

theorem resumedState_psw : (resumedState w s).psw = rfePsw (csfrFrom s .psw w[1]) := rfl

theorem resumedState_icr : (resumedState w s).icr =
    Icr.setCcpn (Icr.setIe s.icr (Pcxi.pie s.pcxi)) (Pcxi.pcpn s.pcxi) := rfl

theorem resumedState_restored (hw : WordsAt s (csaEA (Pcxi.pcx s.pcxi)) w) : Restored w s (resumedState w s) :=
  restored_of_restoredState hw rfl rfl rfl rfl

theorem resumedState_upperFrom : UpperFrom w s (resumedState w s) :=
  upperFrom_of_assignUpper (r := restoredState w s) rfl rfl rfl rfl

theorem resumedState_sameSystemAndFree : SameSystemAndFree s (resumedState w s) :=
  ⟨⟨rfl, rfl, rfl, rfl, rfl, rfl⟩, rfl, rfl⟩

end

/-- RFE loads PSW as a RET does that restores PSW[25:24] too. -/
theorem ReturnPsw.resumePsw {before saved after : Word} (h : ReturnPsw true before saved after) :
    ResumePsw saved after where
  high j hj := by
    by_cases hrounding : j < 26
    · exact h.rounding j hj hrounding
    · exact h.high j (by omega)
  reserved := h.reserved
  low := h.low

theorem rfePsw_resumePsw (saved : Word) : ResumePsw saved (rfePsw saved) :=
  (retPsw_returnPsw true saved saved).resumePsw

/-! ### Trap entry and SYSCALL (60_exceptions.md R236, R238; R200) -/

theorem entryPsw_fields (w : Word) (safety : Bool) : EntryPsw w (entryPsw w safety) safety where
  is := entryPsw_is w safety
  io := entryPsw_io w safety
  prs := entryPsw_prs w safety
  cdc := entryPsw_cdc w safety
  cde := entryPsw_cde w safety
  s := entryPsw_s w safety
  gw := entryPsw_gw w safety
  others := entryPsw_others w safety

/-- After the upper context is saved and the handler entered. -/
theorem handlerEntered_of_enterHandler (ret : Word) (safety : Bool) {link : Word} {s : State}
    (hl : s.mem.readWord (csaEA (pointerOf s.fcx)) = some link) :
    HandlerEntered ret safety s (enterHandler ret safety (savedState true link s)) where
  saved := by apply saved_of_savedState hl <;> simp
  a11 := enterHandler_a11 ret safety _
  a10 := by rw [enterHandler_a10, savedState_psw, savedState_a, savedState_core]
  psw := by simpa using entryPsw_fields s.psw safety
  ie := by simp
  icrOthers := by
    intro j _ hie
    rw [enterHandler_icr, Icr.getLsbD_setIe, if_neg hie, savedState_icr]
  dataKept := by
    intro r hr
    have hlow : r.val < 8 := by revert hr; revert r; decide
    rw [enterHandler_d ret safety _ r hlow, savedState_d]
  addressKept := by
    intro r hr
    have hlow : r.val < 10 := by revert hr; revert r; decide
    rw [enterHandler_a ret safety _ r hlow, savedState_a]
  system := by constructor <;> simp

/-- What trap entry does after the handler is entered, the number in D[15] and the jump, keeps what the entry
left. -/
theorem HandlerEntered.writeD15_setPc {ret : Word} {safety : Bool} {s t : State}
    (h : HandlerEntered ret safety s t) (v target : Word) :
    HandlerEntered ret safety s ((t.writeD 15 v).setPc target) where
  saved := ⟨h.saved.words, h.saved.memory, h.saved.pcxi, h.saved.fcx, h.saved.fcd⟩
  a11 := h.a11
  a10 := h.a10
  psw := h.psw
  ie := h.ie
  icrOthers := h.icrOthers
  dataKept := by
    intro r hr
    have h15 : r ≠ 15 := fun e => hr (by simp [e])
    rw [State.setPc_d, writeD_d, if_neg h15, h.dataKept r hr]
  addressKept := h.addressKept
  system := ⟨h.system.core, h.system.isyncPending, h.system.endinit, h.system.safetyEndinit, h.system.inputs,
    h.system.platform⟩

/-- A trap that finds a free CSA is taken. -/
theorem trapEntry_of_canSave (trap : Trap) (ret : Word) {s : State} (hc : CanSave s) :
    ∃ t, trapEntry trap ret s = .next t ∧ TrapTaken trap ret s t := by
  obtain ⟨link, hl⟩ := hc.exists_link
  exact ⟨_, trapEntry_eq_next.2 ⟨hc, link, hl, rfl⟩,
    { entered := (handlerEntered_of_enterHandler ret _ hl).writeD15_setPc _ _
      d15 := by simp
      ccpn := by simp
      pc := rfl
      acks := by simp }⟩

/-- The vector of class 6. -/
theorem trapVector_sys (btv : Word) (tin : BitVec 8) :
    trapVector btv (Trap.sys tin).cls = evenBase btv ||| 0xC0#32 := rfl

/-! ### What MTCR writes (R192, R193) -/

theorem maskedWrite_and_mask (mask old new : Word) : maskedWrite mask old new &&& mask = new &&& mask := by
  apply BitVec.eq_of_getLsbD_eq
  intro j _
  rw [BitVec.getLsbD_and, BitVec.getLsbD_and, getLsbD_maskedWrite]
  cases mask.getLsbD j <;> simp

theorem maskedWrite_and_not_mask (mask old new : Word) :
    maskedWrite mask old new &&& ~~~mask = old &&& ~~~mask := by
  apply BitVec.eq_of_getLsbD_eq
  intro j hj
  rw [BitVec.getLsbD_and, BitVec.getLsbD_and, BitVec.getLsbD_not, getLsbD_maskedWrite]
  cases mask.getLsbD j <;> simp

/-- MFCR reads every bit that MTCR writes. -/
theorem csfrReadMask_and_writeMask {r : Csfr} {mask : Word} (h : csfrWriteMask r = some mask) :
    csfrReadMask r &&& mask = mask := by
  have hmask := and_not_of_and_eq_zero (csfrWriteMask_reserved h)
  rwa [BitVec.not_not, BitVec.and_comm] at hmask

theorem ne_pc_of_csfrWriteMask {r : Csfr} {mask : Word} (h : csfrWriteMask r = some mask) : r ≠ .pc := by
  rintro rfl
  cases h

/-- The registers of R67 are writable ones. -/
theorem writable_of_endinitProtects {r : Csfr} (h : endinitProtects r = true) :
    ∃ mask, csfrWriteMask r = some mask := by
  cases r <;> first | exact ⟨_, rfl⟩ | cases h

/-- The registers of R68 are writable ones outside the list of R67. -/
theorem writable_of_safetyEndinitProtects {r : Csfr} (h : safetyEndinitProtects r = true) :
    endinitProtects r = false ∧ ∃ mask, csfrWriteMask r = some mask := by
  cases r <;> first | exact ⟨rfl, _, rfl⟩ | cases h

theorem csfrValue_advance (len : Word) (s : State) {r : Csfr} (h : r ≠ .pc) :
    csfrValue (advance len s) r = csfrValue s r := by
  cases r <;> first | rfl | exact absurd rfl h

@[simp] theorem csfrValue_setIsyncPending (b : Bool) (s : State) (r : Csfr) :
    csfrValue (s.setIsyncPending b) r = csfrValue s r := by cases r <;> rfl

/-- The state an MTCR leaves that writes the value `v` to the register. -/
def coreRegisterSet (r : Csfr) (mask v : Word) (s : State) : State :=
  advance 4#32 ((setCsfr s r (maskedWrite mask (csfrValue s r) v)).setIsyncPending true)

section
variable {r : Csfr} {mask : Word} (v : Word) (s : State)

theorem csfrValue_coreRegisterSet_same (h : csfrWriteMask r = some mask) :
    csfrValue (coreRegisterSet r mask v s) r = maskedWrite mask (csfrValue s r) v := by
  rw [coreRegisterSet, csfrValue_advance _ _ (ne_pc_of_csfrWriteMask h), csfrValue_setIsyncPending,
    csfrValue_setCsfr_same h]

theorem csfrValue_coreRegisterSet_other {q : Csfr} (hq : q ≠ r) (hpc : q ≠ .pc) :
    csfrValue (coreRegisterSet r mask v s) q = csfrValue s q := by
  rw [coreRegisterSet, csfrValue_advance _ _ hpc, csfrValue_setIsyncPending, csfrValue_setCsfr_other hq]

end

/-! ### When MTCR writes, and when it is refused (R192, R194) -/

section
variable {s : State} {addr : BitVec 16} {a : Nat} {r : Csfr} {mask : Word} (hs : Psw.io s.psw = 0b10#2)
include hs

theorem execMtcr_of_unmapped (ha : csfrOfAddr s addr = none) :
    execMtcr addr a s = .refused (.noCoreRegister addr) := by
  simp only [execMtcr, supervisor_iff.2 hs, ha, if_true]

variable (ha : csfrOfAddr s addr = some r)
include ha

theorem execMtcr_of_readOnly (hm : csfrWriteMask r = none) :
    execMtcr addr a s = .refused (.readOnlyRegister addr) := by
  simp only [execMtcr, supervisor_iff.2 hs, ha, hm, if_true]

/-- For a writable register it is the protection that decides. -/
theorem execMtcr_of_writable (hm : csfrWriteMask r = some mask) : execMtcr addr a s =
    if endinitProtects r && s.endinit then .refused (.endinitProtected addr)
    else if safetyEndinitProtects r && s.safetyEndinit then .refused (.safetyEndinitProtected addr)
    else writeCoreRegister r mask (csfrFrom s r (readD s a)) s := by
  simp only [execMtcr, supervisor_iff.2 hs, ha, hm, if_true]

theorem execMtcr_of_endinit (hp : endinitProtects r = true) (he : s.endinit = true) :
    execMtcr addr a s = .refused (.endinitProtected addr) := by
  obtain ⟨mask, hm⟩ := writable_of_endinitProtects hp
  rw [execMtcr_of_writable hs ha hm, if_pos (by simp [hp, he])]

theorem execMtcr_of_safetyEndinit (hp : safetyEndinitProtects r = true) (he : s.safetyEndinit = true) :
    execMtcr addr a s = .refused (.safetyEndinitProtected addr) := by
  obtain ⟨hnot, mask, hm⟩ := writable_of_safetyEndinitProtects hp
  rw [execMtcr_of_writable hs ha hm, if_neg (by simp [hnot]), if_pos (by simp [hp, he])]

/-- An MTCR that no check stops writes. -/
theorem execMtcr_of_unprotected (hm : csfrWriteMask r = some mask)
    (he : endinitProtects r = true → s.endinit = false)
    (hse : safetyEndinitProtects r = true → s.safetyEndinit = false)
    (hio : r = .psw → Psw.io (csfrFrom s .psw (readD s a)) ≠ 0b11#2) :
    execMtcr addr a s = .next (coreRegisterSet r mask (csfrFrom s r (readD s a)) s) := by
  rw [execMtcr_of_writable hs ha hm, if_neg (by simpa using he), if_neg (by simpa using hse)]
  refine if_neg ?_
  rintro ⟨rfl, hreserved⟩
  exact hio rfl hreserved

/-- Whatever an MTCR in Supervisor mode answers with a next state, it has written the register. -/
theorem execMtcr_eq_coreRegisterSet {t : State} (hm : csfrWriteMask r = some mask)
    (he : execMtcr addr a s = .next t) : t = coreRegisterSet r mask (csfrFrom s r (readD s a)) s := by
  rcases execMtcr_eq_next.1 he with ⟨hn, _⟩ | ⟨_, r', mask', ha', hm', _, _, _, rfl⟩
  · cases (supervisor_iff.2 hs).symm.trans hn
  · cases ha.symm.trans ha'
    cases hm.symm.trans hm'
    rfl

end

theorem execMtcr_of_reservedIo {s : State} {addr : BitVec 16} {a : Nat} (hs : Psw.io s.psw = 0b10#2)
    (ha : csfrOfAddr s addr = some .psw)
    (hio : Psw.io (csfrFrom s .psw (readD s a)) = 0b11#2) : execMtcr addr a s = .refused .reservedIoMode := by
  rw [execMtcr_of_writable hs ha rfl, if_neg (by simp [endinitProtects]), if_neg (by simp [safetyEndinitProtects])]
  exact if_pos ⟨rfl, hio⟩

/-! ### MFCR and ISYNC (R195, R198) -/

/-- The state MFCR leaves that read the register. -/
def coreRegisterRead (c : Fin 16) (r : Csfr) (s : State) : State := advance 4#32 (s.writeD c (readCsfr s r))

/-- The state ISYNC leaves. -/
def synchronised (s : State) : State := advance 4#32 (s.setIsyncPending false)

section
variable (c : Fin 16) (r : Csfr) (s : State)

theorem execMfcr_of_mapped {addr : BitVec 16} (ha : csfrOfAddr s addr = some r) :
    execMfcr c.val addr s = .next (coreRegisterRead c r s) :=
  execMfcr_eq_next.2 ⟨r, ha, by rw [regIndex_val, coreRegisterRead]⟩

theorem execMfcr_of_unmapped {addr : BitVec 16} (ha : csfrOfAddr s addr = none) :
    execMfcr c.val addr s = .refused (.noCoreRegister addr) := by
  simp only [execMfcr, ha]

theorem coreRegisterRead_d (q : Fin 16) :
    (coreRegisterRead c r s).d[q] = if q = c then readCsfr s r else s.d[q] := by
  rw [coreRegisterRead, advance_d, writeD_d]

theorem coreRegisterRead_sameDataExcept : SameDataExcept [c] s (coreRegisterRead c r s) := by
  intro q hq
  rw [coreRegisterRead_d, if_neg (by simpa using hq)]

theorem coreRegisterRead_sameStatus : SameStatus s (coreRegisterRead c r s) :=
  ⟨⟨⟨rfl, rfl, rfl, rfl, rfl, rfl⟩, rfl, rfl⟩, ⟨rfl, rfl, rfl⟩, rfl, rfl⟩

/-- ISYNC changes no core register but PC. -/
theorem csfrValue_synchronised {r : Csfr} (h : r ≠ .pc) : csfrValue (synchronised s) r = csfrValue s r := by
  rw [synchronised, csfrValue_advance _ _ h, csfrValue_setIsyncPending]

end

/-! ### Reading back what was written (R193, R195) -/

theorem readCsfr_congr {s t : State} (h : t.platform = s.platform) (r : Csfr) :
    readCsfr t r = toWord (layoutOf s r) (csfrValue t r &&& csfrReadMask r) := by
  rw [readCsfr, layoutOf_congr h]

section
variable {p : Places} (h : p.wf = true) {readMask mask : Word} (old : Word)
include h

/-- On the mask, the word of a masked write is the word written. -/
theorem toWord_maskedWrite_and_mask (hm : readMask &&& mask = mask) (w : Word) :
    toWord p (maskedWrite mask old (ofWord p w) &&& readMask) &&& toWord p mask = w &&& toWord p mask :=
  calc toWord p (maskedWrite mask old (ofWord p w) &&& readMask) &&& toWord p mask
      = toWord p (maskedWrite mask old (ofWord p w) &&& mask) := by rw [← toWord_and, BitVec.and_assoc, hm]
    _ = toWord p (ofWord p w) &&& toWord p mask := by rw [maskedWrite_and_mask, toWord_and]
    _ = w &&& toWord p mask := by rw [toWord_ofWord h]

/-- Off the mask, it is the word from before. -/
theorem toWord_maskedWrite_and_not_mask (new : Word) :
    toWord p (maskedWrite mask old new &&& readMask) &&& ~~~toWord p mask =
      toWord p (old &&& readMask) &&& ~~~toWord p mask := by
  have hcomm : ∀ v : Word, v &&& readMask &&& ~~~mask = v &&& ~~~mask &&& readMask :=
    fun v => by rw [BitVec.and_assoc, BitVec.and_comm readMask, BitVec.and_assoc]
  rw [← toWord_not h, ← toWord_and, ← toWord_and, hcomm, maskedWrite_and_not_mask, hcomm]

end

/-- MTCR and ISYNC leave the platform's parameters, LAYOUT and CSFR_ADDR among them. -/
theorem synchronised_coreRegisterSet_platform (r : Csfr) (mask v : Word) (s : State) :
    (synchronised (coreRegisterSet r mask v s)).platform = s.platform := setCsfr_platform s r _

/-- What MFCR reads after MTCR and ISYNC of the register: the word of its value after the masked write. -/
theorem readCsfr_synchronised_coreRegisterSet {r : Csfr} {mask : Word} (hm : csfrWriteMask r = some mask)
    (v : Word) (s : State) : readCsfr (synchronised (coreRegisterSet r mask v s)) r =
      toWord (layoutOf s r) (maskedWrite mask (csfrValue s r) v &&& csfrReadMask r) := by
  rw [readCsfr_congr (synchronised_coreRegisterSet_platform r mask v s),
    csfrValue_synchronised _ (ne_pc_of_csfrWriteMask hm), csfrValue_coreRegisterSet_same v s hm]

end Sys2Proof.Machine

open Sys2Proof Sys2Proof.Machine

/-- Settles O42: where the check lets them pass, each sets one bit of ICR and advances pc. -/
theorem enableDisableEffect : Obligations.EnableDisableEffect := by
  intro s h
  have hmay := mayControlInterrupts_iff.2 h
  exact ⟨⟨_, execEnable_of_allowed hmay, Icr.getLsbD_setIe_true s.icr, rfl, ⟨rfl, rfl⟩, rfl,
      interruptsSwitched_sameLists true s, fun _ => rfl, interruptsSwitched_sameSystemAndFree true s⟩,
    ⟨_, execDisable_of_allowed hmay, Icr.getLsbD_setIe_false s.icr, rfl, ⟨rfl, rfl⟩, rfl,
      interruptsSwitched_sameLists false s, fun _ => rfl, interruptsSwitched_sameSystemAndFree false s⟩⟩

/-- Settles O43: both lengths are one operation, which saves, then writes ICR. -/
theorem bisrEffect : Obligations.BisrEffect := by
  intro s i p len hi hs hc
  obtain ⟨link, hl⟩ := hc.exists_link
  refine ⟨isrBegun p len link s, (hi.exec_eq s).trans (beginIsr_of_supervisor hs hc hl), isrBegun_saved hl,
    ?ie, ?ccpn, ?others, by simp [isrBegun], isrBegun_sameRegisters, by simp [isrBegun],
    isrBegun_sameSystemAndFree⟩
  case ie => rw [isrBegun_icr, Icr.ie_setCcpn, Icr.ie_setIe]
  case ccpn => rw [isrBegun_icr, Icr.ccpn_setCcpn]
  case others => exact fun j hccpn hie => by rw [isrBegun_icr, Icr.getLsbD_setCcpn_setIe _ _ _ j hccpn hie]

/-- Settles O45: both lengths are one operation, which restores the words of the CSA it finds. -/
theorem rfeEffect : Obligations.RfeEffect := by
  intro s i hi hc hno
  obtain ⟨w, hw⟩ := hc.exists_words
  refine ⟨w, resumedState w s, (hi.exec_eq s).trans (returnFromException_of_canRestore hc hno hw),
    resumedState_restored hw, resumedState_upperFrom, rfePsw_resumePsw _, ?ie, ?ccpn,
    Icr.getLsbD_setCcpn_setIe s.icr _ _, rfl, resumedState_sameSystemAndFree⟩
  case ie => rw [resumedState_icr, Icr.ie_setCcpn, Icr.ie_setIe]
  case ccpn => rw [resumedState_icr, Icr.ccpn_setCcpn]

/-- Settles O46: SYSCALL is the entry of its trap, whose class and number give the vector and D[15]. -/
theorem syscallEffect : Obligations.SyscallEffect := by
  intro s c hc
  obtain ⟨t, he, ht⟩ := trapEntry_of_canSave (.sys (c.extractLsb' 0 8)) (s.pc + 4#32) hc
  exact ⟨t, he, ht, ht.d15, ht.pc.trans (trapVector_sys s.core.btv _)⟩

/-- Settles O47: no check stops it, so it writes one core register through its mask. -/
theorem mtcrEffect : Obligations.MtcrEffect := by
  intro s addr a r mask hs ha hm he hse hio
  have hexec := execMtcr_of_unprotected (a := a.val) hs ha hm he hse (by rwa [readD_val])
  rw [readD_val] at hexec
  refine ⟨coreRegisterSet r mask (csfrFrom s r s.d[a]) s, hexec, ?written,
    fun q => csfrValue_coreRegisterSet_other _ s, ?rest⟩
  case written =>
    intro j
    rw [csfrValue_coreRegisterSet_same _ s hm, getLsbD_maskedWrite]
  case rest =>
    refine ⟨?_, ?_, ⟨?_, ?_⟩, fun _ => congrArg (Memory.read · _) ?_, ?_, ?_, ?_, ?_, ?_, ?_, ?_⟩ <;>
      simp [coreRegisterSet]

/-- Settles O49: MFCR asks for no mode; the address alone decides. -/
theorem mfcrEffect : Obligations.MfcrEffect := by
  intro s c addr
  refine ⟨fun r ha => ⟨coreRegisterRead c r s, execMfcr_of_mapped c r s ha, ?_,
    coreRegisterRead_sameDataExcept c r s, rfl, rfl, fun _ => rfl, coreRegisterRead_sameStatus c r s⟩,
    execMfcr_of_unmapped c s⟩
  rw [coreRegisterRead_d, if_pos rfl, readCsfr]

/-- Settles O50: MFCR reads the word of the masked write, and LAYOUT carries the mask with the bits. -/
theorem mtcrIsyncMfcrReadsBack : Obligations.MtcrIsyncMfcrReadsBack := by
  rintro s t u v addr a c r mask _ hwf hs ha hm rfl hmtcr hisync hmfcr
  obtain rfl := execMtcr_eq_coreRegisterSet hs ha hm hmtcr
  obtain rfl : synchronised _ = u := Host.Outcome.next.inj hisync
  have hmapped :
      csfrOfAddr (synchronised (coreRegisterSet r mask (csfrFrom s r (readD s a.val)) s)) addr = some r := by
    rw [csfrOfAddr_congr (synchronised_coreRegisterSet_platform r mask _ s), ha]
  obtain rfl := Host.Outcome.next.inj ((execMfcr_of_mapped c r _ hmapped).symm.trans hmfcr)
  rw [coreRegisterRead_d, if_pos rfl, readCsfr_synchronised_coreRegisterSet hm, readD_val]
  have hplaces := layoutOf_wf hwf r
  exact ⟨toWord_maskedWrite_and_mask hplaces _ (csfrReadMask_and_writeMask hm) _,
    toWord_maskedWrite_and_not_mask hplaces _ _⟩

/-- Settles O48: the checks in their order. -/
theorem mtcrRefusals : Obligations.MtcrRefusals := by
  intro s addr a hs
  exact ⟨execMtcr_of_unmapped hs, fun _ => execMtcr_of_readOnly hs, fun _ => execMtcr_of_endinit hs,
    fun _ => execMtcr_of_safetyEndinit hs, fun ha hio => execMtcr_of_reservedIo hs ha (by rwa [readD_val])⟩

/-- Settles O51: ISYNC advances pc and clears the flag of R199. -/
theorem isyncEffect : Obligations.IsyncEffect :=
  fun s => ⟨synchronised s, rfl, rfl, rfl, ⟨rfl, rfl⟩, fun _ => rfl, rfl, rfl, ⟨rfl, rfl, rfl⟩, rfl, rfl, rfl, rfl,
    rfl, rfl, rfl⟩

end

section
/-! PROOFS. Interrupts and traps (60_exceptions.md): the vector, what an entry leaves and how RFE undoes it, when a
step takes one, the instructions that trap or stop, and what alone may change ICR, PSW.IO and the acknowledges. -/

namespace Sys2Proof.Machine

/-! ### The interrupt vector (R224, R225) -/

theorem setWidth_shiftLeft (p : BitVec 8) (k : Nat) :
    (p.setWidth 32 : Word) <<< k = BitVec.ofNat 32 (2 ^ k * p.toNat) := by
  apply BitVec.eq_of_toNat_eq
  simp [Nat.shiftLeft_eq, mul_comm]

/-- Where the base has no bit under the shifted number, the OR of the two is their sum. -/
theorem evenBase_or_shifted {biv : Word} {k : Nat} (p : BitVec 8) (h : biv.extractLsb' k 8 = 0#8) :
    evenBase biv ||| p.setWidth 32 <<< k = evenBase biv + BitVec.ofNat 32 (2 ^ k * p.toNat) := by
  have disjoint : evenBase biv &&& (p.setWidth 32 : Word) <<< k = 0#32 := by
    apply BitVec.eq_of_getLsbD_eq
    intro j hj
    rw [BitVec.getLsbD_and, BitVec.getLsbD_zero]
    by_cases hunder : k ≤ j ∧ j < k + 8
    · have hbit : biv.getLsbD j = false := by
        have := congrArg (·.getLsbD (j - k)) h
        simpa [show j - k < 8 by omega, show k + (j - k) = j by omega] using this
      simp [getLsbD_evenBase, hbit]
    · by_cases hlow : k ≤ j
      · simp [BitVec.getLsbD_of_ge p (j - k) (by omega)]
      · simp [show j < k by omega]
  rw [← setWidth_shiftLeft, BitVec.add_eq_or_of_and_eq_zero _ _ disjoint]

theorem getLsbD_shifted (p : BitVec 8) {k j : Nat} (hk : k ≤ 24) :
    ((p.setWidth 32 : Word) <<< k).getLsbD j = (decide (k ≤ j) && p.getLsbD (j - k)) := by
  by_cases hj : j < 32
  · by_cases hlow : j < k
    · simp [hj, hlow, show ¬ k ≤ j by omega]
    · simp [hj, hlow, show k ≤ j by omega]
  · rw [BitVec.getLsbD_of_ge _ j (by omega), BitVec.getLsbD_of_ge p _ (by omega), Bool.and_false]

theorem getLsbD_interruptVector (biv : Word) (p : BitVec 8) (j : Nat) : (interruptVector biv p).getLsbD j =
    (biv.getLsbD j && j != 0 ||
      (if Biv.vss biv then decide (3 ≤ j) && p.getLsbD (j - 3) else decide (5 ≤ j) && p.getLsbD (j - 5))) := by
  have hbase : (evenBase biv).getLsbD j = (biv.getLsbD j && j != 0) := getLsbD_regTarget biv j
  rw [interruptVector, BitVec.getLsbD_or, hbase]
  cases Biv.vss biv
  · rw [if_neg (by simp), if_neg (by simp), getLsbD_shifted p (by omega)]
  · rw [if_pos rfl, if_pos rfl, getLsbD_shifted p (by omega)]

/-! ### What an entry leaves (R221, R236) -/

/-- What interrupt entry does after the handler is entered, the accepted number in CCPN, the acknowledge and the
jump, keeps what the entry left. -/
theorem HandlerEntered.setCcpn_setAcks_setPc {ret : Word} {safety : Bool} {s t : State}
    (h : HandlerEntered ret safety s t) {p : BitVec 8} {icr : Word} (hicr : icr = Icr.setCcpn t.icr p)
    (acks : List (BitVec 8)) (target : Word) :
    HandlerEntered ret safety s (((t.setIcr icr).setAcks acks).setPc target) where
  saved := ⟨h.saved.words, h.saved.memory, h.saved.pcxi, h.saved.fcx, h.saved.fcd⟩
  a11 := h.a11
  a10 := h.a10
  psw := h.psw
  ie := by simpa [hicr] using h.ie
  icrOthers := by
    intro j hj hie
    rw [State.setPc_icr, State.setAcks_icr, State.setIcr_icr, hicr, Icr.getLsbD_setCcpn, if_neg (by omega),
      h.icrOthers j hj hie]
  dataKept := h.dataKept
  addressKept := h.addressKept
  system := ⟨h.system.core, h.system.isyncPending, h.system.endinit, h.system.safetyEndinit, h.system.inputs,
    h.system.platform⟩

/-- An interrupt that finds a free CSA is entered. -/
theorem interruptEntry_of_canSave {s : State} (hc : CanSave s) :
    ∃ t, interruptEntry s = .next t ∧ InterruptEntered s t := by
  obtain ⟨link, hl⟩ := hc.exists_link
  exact ⟨_, interruptEntry_eq_next.2 ⟨hc, link, hl, rfl⟩,
    { entered := (handlerEntered_of_enterHandler s.pc _ hl).setCcpn_setAcks_setPc (p := Icr.pipn s.icr) (by simp) _ _
      ccpn := by simp
      pc := rfl
      acks := rfl }⟩

section
variable {s t : State} {trap : Trap} {ret : Word}

theorem trapTaken_of_trapEntry (h : trapEntry trap ret s = .next t) : CanSave s ∧ TrapTaken trap ret s t := by
  obtain ⟨hc, _⟩ := trapEntry_eq_next.1 h
  obtain ⟨t', h', ht⟩ := trapEntry_of_canSave trap ret hc
  exact ⟨hc, Host.Outcome.next.inj (h'.symm.trans h) ▸ ht⟩

theorem interruptEntered_of_interruptEntry (h : interruptEntry s = .next t) :
    CanSave s ∧ InterruptEntered s t := by
  obtain ⟨hc, _⟩ := interruptEntry_eq_next.1 h
  obtain ⟨t', h', ht⟩ := interruptEntry_of_canSave hc
  exact ⟨hc, Host.Outcome.next.inj (h'.symm.trans h) ▸ ht⟩

/-- Both entries enter a handler, which returns to `ret`. -/
theorem handlerEntered_of_entry
    (h : (interruptEntry s = .next t ∧ ret = s.pc) ∨ ∃ trap, trapEntry trap ret s = .next t) :
    CanSave s ∧ ∃ safety, HandlerEntered ret safety s t := by
  obtain ⟨h, rfl⟩ | ⟨trap, h⟩ := h
  · obtain ⟨hc, ht⟩ := interruptEntered_of_interruptEntry h
    exact ⟨hc, _, ht.entered⟩
  · obtain ⟨hc, ht⟩ := trapTaken_of_trapEntry h
    exact ⟨hc, _, ht.entered⟩

/-- The same with the return address left open. -/
theorem exists_handlerEntered_of_entry
    (h : interruptEntry s = .next t ∨ ∃ trap ret, trapEntry trap ret s = .next t) :
    ∃ ret safety, HandlerEntered ret safety s t := by
  obtain h | ⟨trap, ret, h⟩ := h
  · exact ⟨_, (handlerEntered_of_entry (.inl ⟨h, rfl⟩)).2⟩
  · exact ⟨_, (handlerEntered_of_entry (.inr ⟨trap, h⟩)).2⟩

/-- Every entry enters a handler; the deferred FCD trap does so with its flag cleared. -/
theorem EntryTaken.exists_handlerEntered (h : EntryTaken s t) :
    ∃ fcd ret safety, HandlerEntered ret safety (s.setFcdDeferred fcd) t := by
  obtain h | h | h := h
  · exact ⟨s.fcdDeferred, exists_handlerEntered_of_entry (.inl h)⟩
  · exact ⟨false, exists_handlerEntered_of_entry (.inr ⟨_, _, h⟩)⟩
  · exact ⟨s.fcdDeferred, exists_handlerEntered_of_entry (.inr h)⟩

theorem EntryTaken.psw_io (h : EntryTaken s t) : Psw.io t.psw = 0b10#2 := by
  obtain ⟨_, _, _, h⟩ := h.exists_handlerEntered
  exact h.psw.io

end

/-! ### RFE after an entry (R188, R229) -/

theorem rfePsw_eq_saved {saved : Word} (h : saved &&& 0x00FF0000#32 = 0#32) : rfePsw saved = saved :=
  and_not_of_and_eq_zero h

section
variable {ret : Word} {safety : Bool} {s t : State} (h : HandlerEntered ret safety s t)
include h

/-- The entry left the call depth at 0, so no NEST trap is due. -/
theorem HandlerEntered.not_nest : ¬ (Psw.cde t.psw = true ∧ cdcZero (Psw.cdc t.psw) = false) := by
  rw [h.psw.cdc]
  rintro ⟨_, hzero⟩
  exact absurd hzero (by decide)

/-- The general registers come back: the entry kept those outside the upper context. -/
theorem HandlerEntered.sameRegisters_resumed : SameRegisters s (resumedState (upperWords s) t) := by
  obtain ⟨hd, ha⟩ := assignUpper_upperWords (s := s) (r := restoredState (upperWords s) t)
    (fun q hq => h.dataKept q (by revert hq; revert q; decide))
    (fun q hq => h.addressKept q (by revert hq; revert q; decide))
  exact ⟨hd, ha⟩

theorem HandlerEntered.psw_resumed (hi : Inv s) : (resumedState (upperWords s) t).psw = s.psw := by
  have hsaved : csfrFrom t .psw (upperWords s)[1] = s.psw := csfrFrom_csfrWord hi.layout h.system.platform .psw
  rw [resumedState_psw, hsaved, rfePsw_eq_saved hi.psw]

/-- IE and CCPN come back from PCXI, the other bits of ICR were never written. -/
theorem HandlerEntered.icr_resumed (w : Vector Word 16) : (resumedState w t).icr = s.icr := by
  apply BitVec.eq_of_getLsbD_eq
  intro j _
  rw [resumedState_icr, h.saved.pcxi, Pcxi.pie_make, Pcxi.pcpn_make, Icr.getLsbD_setCcpn, Icr.getLsbD_setIe]
  by_cases hccpn : j < 8
  · simp [hccpn, Icr.ccpn]
  · by_cases hie : j = 15
    · simp [hie, Icr.ie]
    · rw [if_neg hccpn, if_neg hie, h.icrOthers j (by omega) hie]

end

/-! ### Saves that find FCX null (R239) -/

section
variable {s : State} (h : pointerOf s.fcx = 0#20)
include h

theorem interruptEntry_of_null : interruptEntry s = .fault .freeListUnderflow := by
  rw [interruptEntry, saveContext_of_null h, andThen_fault]

theorem callTo_of_null (target len : Word) : callTo target len s = .fault .freeListUnderflow := if_pos h

theorem execSvlcx_of_null : execSvlcx s = .fault .freeListUnderflow := by
  rw [execSvlcx, saveContext_of_null h, andThen_fault]

theorem beginIsr_of_null (hs : Psw.io s.psw = 0b10#2) (p : BitVec 8) (len : Word) :
    beginIsr p len s = .fault .freeListUnderflow := by
  rw [beginIsr, if_pos (supervisor_iff.2 hs), saveContext_of_null h, andThen_fault]

end

/-! ### The traps of an instruction, in the order of its checks (R240 to R244, R256) -/

section
variable {s : State}

theorem callTo_eq_cdo (hc : CanSave s) (hcde : Psw.cde s.psw = true)
    (hover : cdcIncOverflows (Psw.cdc s.psw) = true) (target len : Word) :
    callTo target len s = raiseTrap .cdo s := by
  obtain ⟨hnull, _⟩ := hc
  rw [callTo, if_neg hnull, if_pos (by simp [hcde, hover])]

theorem returnFromCall_eq_cdu (hcde : Psw.cde s.psw = true) (hunder : cdcDecUnderflows (Psw.cdc s.psw) = true) :
    returnFromCall s = raiseTrap .cdu s := if_pos (by simp [hcde, hunder])

theorem returnFromCall_eq_csu (hcdu : ¬ (Psw.cde s.psw = true ∧ cdcDecUnderflows (Psw.cdc s.psw) = true))
    (hpcx : Pcxi.pcx s.pcxi = 0#20) : returnFromCall s = raiseTrap .csu s := by
  rw [returnFromCall, if_neg (by simpa using hcdu), if_pos hpcx]

theorem returnFromCall_eq_ctyp (hcdu : ¬ (Psw.cde s.psw = true ∧ cdcDecUnderflows (Psw.cdc s.psw) = true))
    (hpcx : Pcxi.pcx s.pcxi ≠ 0#20) (hul : Pcxi.ul s.pcxi = false) : returnFromCall s = raiseTrap .ctyp s := by
  rw [returnFromCall, if_neg (by simpa using hcdu), if_neg hpcx, if_pos hul]

theorem returnFromException_eq_csu (hpcx : Pcxi.pcx s.pcxi = 0#20) :
    returnFromException s = raiseTrap .csu s := if_pos hpcx

theorem execRslcx_eq_csu (hpcx : Pcxi.pcx s.pcxi = 0#20) : execRslcx s = raiseTrap .csu s := if_pos hpcx

section
variable (hpcx : Pcxi.pcx s.pcxi ≠ 0#20)
include hpcx

theorem returnFromException_eq_ctyp (hul : Pcxi.ul s.pcxi = false) :
    returnFromException s = raiseTrap .ctyp s := by
  rw [returnFromException, if_neg hpcx, if_pos hul]

theorem returnFromException_eq_nest (hul : Pcxi.ul s.pcxi = true) (hcde : Psw.cde s.psw = true)
    (hcount : cdcZero (Psw.cdc s.psw) = false) : returnFromException s = raiseTrap .nest s := by
  rw [returnFromException, if_neg hpcx, if_neg (by simp [hul]), if_pos (by simp [hcde, hcount])]

theorem execRslcx_eq_ctyp (hul : Pcxi.ul s.pcxi = true) : execRslcx s = raiseTrap .ctyp s := by
  rw [execRslcx, if_neg hpcx, if_pos hul]

end

/-- MTCR and BISR outside Supervisor mode. -/
theorem SupervisorForm.exec_eq_priv {i : Instr} (h : SupervisorForm i) (hio : Psw.io s.psw ≠ 0b10#2) :
    exec i s = raiseTrap .priv s := by
  have hs : ¬ supervisor s = true := fun hs => hio (supervisor_iff.1 hs)
  cases h with
  | mtcr addr a => exact if_neg hs
  | bisrConst9 c => exact if_neg hs
  | bisrConst8 c => exact if_neg hs

end

/-- A context load neither reads PCXI nor writes it (R241). -/
theorem loadContext_setPcxi {form : AlignedForm} {upper : Bool} {ea : Word} {s t : State} (v : Word)
    (h : loadContext form upper ea s = .next t) :
    loadContext form upper ea (s.setPcxi v) = .next (t.setPcxi v) := by
  obtain ⟨ha, hr, w, hw, rfl⟩ := loadContext_eq_next.1 h
  exact loadContext_eq_next.2 ⟨ha, hr, w, hw, by cases upper <;> rfl⟩

/-- The effective address of a load does not come from PCXI. -/
theorem LoadForm.setPcxi {s : State} {i : Instr} {upper : Bool} {ea : Word} (h : LoadForm s i upper ea)
    (v : Word) : LoadForm (s.setPcxi v) i upper ea := by
  cases h with
  | lowerAbs off => exact .lowerAbs off
  | upperAbs off => exact .upperAbs off
  | lowerBo b off => exact .lowerBo b off
  | upperBo b off => exact .upperBo b off

/-! ### The step (R217, R219, R243) -/

theorem reservedMode_eq_false_iff {s : State} : reservedMode s = false ↔ Psw.io s.psw ≠ 0b11#2 := by
  simp [reservedMode, Io.reserved]

/-- The acceptance condition (R217), where no ISYNC is awaited (R219). -/
theorem interruptTaken_iff {s : State} : interruptTaken s = true ↔
    Icr.ie s.icr = true ∧ (Icr.ccpn s.icr).toNat < (Icr.pipn s.icr).toNat ∧ s.isyncPending = false := by
  simp [interruptTaken, interruptWanted, BitVec.lt_def, and_assoc]

/-- A step is one of the entries, or what the instruction fetched can do. -/
theorem step_entry_or_effect {s t : State} (h : step s = .next t) : EntryTaken (presentInputs s) t ∨
    ∃ i, fetch (presentInputs s) = .next i ∧ Effect (presentInputs s) i t := by
  obtain ⟨_, ⟨_, h⟩ | ⟨_, _, h⟩ | ⟨_, _, i, hf, _, h⟩⟩ := coreStep_eq_next.1 h
  · exact .inl (.inr (.inl h))
  · exact .inl (.inl h)
  · exact .inr ⟨i, hf, exec_effect h⟩

/-! ### What alone changes the acknowledges, ICR and PSW.IO -/

/-- No instruction acknowledges a request, not even by its traps. -/
theorem Effect.acks {s t : State} {i : Instr} (h : Effect s i t) : t.acks = s.acks := by
  cases h with
  | trap trap ret h =>
    obtain ⟨_, ht⟩ := trapTaken_of_trapEntry h
    exact ht.acks
  | @load _ upper => cases upper <;> rfl
  | _ => simp [returnedState, resumedState]

theorem Icr.pipn_congr {w v : Word} (h : ∀ j, 16 ≤ j → j < 24 → w.getLsbD j = v.getLsbD j) :
    Icr.pipn w = Icr.pipn v := by
  apply BitVec.eq_of_getLsbD_eq
  intro j hj
  simp [Icr.pipn, hj, h (16 + j) (by omega) (by omega)]

/-- The mask of ICR leaves PIPN out (R193). -/
theorem Icr.pipn_maskedWrite (old new : Word) : Icr.pipn (maskedWrite 0x000080FF#32 old new) = Icr.pipn old := by
  apply Icr.pipn_congr
  intro j hlo hhi
  have hmask : ∀ j < 24, 16 ≤ j → (0x000080FF#32).getLsbD j = false := by decide
  rw [getLsbD_maskedWrite, hmask j hhi hlo, if_neg (by simp)]

theorem EntryTaken.pipn {s t : State} (h : EntryTaken s t) : Icr.pipn t.icr = Icr.pipn s.icr := by
  obtain ⟨_, _, _, h⟩ := h.exists_handlerEntered
  exact Icr.pipn_congr fun j hlo _ => h.icrOthers j (by omega) (by omega)

/-- What an instruction can do to ICR: the entry of a trap, a write by one of R220's instructions, which leaves
PIPN alone, or nothing. -/
theorem Effect.icr {s t : State} {i : Instr} (h : Effect s i t) : EntryTaken s t ∨
    (InterruptControlForm s i ∧ Icr.pipn t.icr = Icr.pipn s.icr) ∨ t.icr = s.icr := by
  cases h with
  | trap trap ret h => exact .inl (.inr (.inr ⟨trap, ret, h⟩))
  | enable => exact .inr (.inl ⟨.enable, by simp⟩)
  | disable => exact .inr (.inl ⟨.disable, by simp⟩)
  | bisr hi => exact .inr (.inl ⟨.bisr hi, by simp⟩)
  | rfe hi => exact .inr (.inl ⟨.rfe hi, by simp [resumedState]⟩)
  | @mtcr addr a r mask v _ hr hm =>
    right
    by_cases e : r = .icr
    · subst e
      obtain rfl : 0x000080FF#32 = mask := Option.some.inj hm
      exact .inl ⟨.mtcrIcr a hr, Icr.pipn_maskedWrite s.icr v⟩
    · exact .inr (setCsfr_icr_other _ e)
  | @load _ upper => exact .inr (.inr (by cases upper <;> rfl))
  | _ => exact .inr (.inr (by simp [returnedState]))

theorem callPsw_io (w : Word) : Psw.io (callPsw w) = Psw.io w := by
  apply BitVec.eq_of_getLsbD_eq
  intro j hj
  simp [Psw.io, hj, callPsw_others w (10 + j) (by omega)]

/-- What an instruction can do to the mode: the entry of a trap, a load of PSW, which MTCR makes in Supervisor
mode only, or nothing. -/
theorem Effect.psw_io {s t : State} {i : Instr} (h : Effect s i t) : EntryTaken s t ∨
    (LoadsPswForm s i ∧ ∀ addr a, i = .mtcr addr a → Psw.io s.psw = 0b10#2) ∨ Psw.io t.psw = Psw.io s.psw := by
  cases h with
  | trap trap ret h => exact .inl (.inr (.inr ⟨trap, ret, h⟩))
  | ret hi => exact .inr (.inl ⟨.ret hi, by rintro _ _ rfl; cases hi⟩)
  | rfe hi => exact .inr (.inl ⟨.rfe hi, by rintro _ _ rfl; cases hi⟩)
  | @mtcr addr a r mask v hs hr hm =>
    right
    by_cases e : r = .psw
    · subst e
      exact .inl ⟨.mtcrPsw a hr, fun _ _ _ => supervisor_iff.1 hs⟩
    · exact .inr (congrArg Psw.io (setCsfr_psw_other _ e))
  | call => exact .inr (.inr (by simp [callPsw_io]))
  | @load _ upper => exact .inr (.inr (by cases upper <;> rfl))
  | _ => exact .inr (.inr (by simp))

/-- Which register an address names is the platform's. -/
theorem InterruptControlForm.congr {s t : State} {i : Instr} (hp : t.platform = s.platform)
    (h : InterruptControlForm t i) : InterruptControlForm s i := by
  cases h with
  | enable => exact .enable
  | disable => exact .disable
  | bisr h => exact .bisr h
  | mtcrIcr a h => exact .mtcrIcr a (csfrOfAddr_congr hp _ ▸ h)
  | rfe h => exact .rfe h

theorem LoadsPswForm.congr {s t : State} {i : Instr} (hp : t.platform = s.platform)
    (h : LoadsPswForm t i) : LoadsPswForm s i := by
  cases h with
  | ret h => exact .ret h
  | rfe h => exact .rfe h
  | mtcrPsw a h => exact .mtcrPsw a (csfrOfAddr_congr hp _ ▸ h)

end Sys2Proof.Machine

open Sys2Proof Sys2Proof.Machine

/-- Settles O8: the OR of two numbers without a common bit is their sum, and the OR itself bit by bit. -/
theorem interruptVectorIsBaseOrShiftedNumber : Obligations.InterruptVectorIsBaseOrShiftedNumber := by
  refine ⟨?wide, ?narrow, getLsbD_interruptVector⟩
  case wide =>
    intro biv p hvss hclear
    rw [interruptVector, if_neg (by simp [hvss])]
    exact evenBase_or_shifted p hclear
  case narrow =>
    intro biv p hvss hclear
    rw [interruptVector, if_pos hvss]
    exact evenBase_or_shifted p hclear

/-- Settles O16: the step is the interrupt entry, which finds its CSA. -/
theorem interruptTakenWhenAccepted : Obligations.InterruptTakenWhenAccepted := by
  intro s hio hfcd hsync hie hccpn hc
  obtain ⟨t, he, ht⟩ := interruptEntry_of_canSave hc
  have hmode : reservedMode (presentInputs s) = false := reservedMode_eq_false_iff.2 (by simpa using hio)
  have htaken : interruptTaken (presentInputs s) = true := interruptTaken_iff.2 ⟨hie, hccpn, by simpa using hsync⟩
  exact ⟨t, coreStep_eq_next.2 ⟨hmode, .inr (.inl ⟨by simpa using hfcd, htaken, he⟩)⟩, ht⟩

/-- Settles O17: neither the FCD trap nor an instruction acknowledges. -/
theorem interruptedOnlyWhenAccepted : Obligations.InterruptedOnlyWhenAccepted := by
  intro s t h hacks
  rw [← presentInputs_acks s] at hacks
  obtain ⟨_, ⟨_, h⟩ | ⟨_, htaken, h⟩ | ⟨_, _, i, _, _, h⟩⟩ := coreStep_eq_next.1 h
  · obtain ⟨_, ht⟩ := trapTaken_of_trapEntry h
    exact absurd ht.acks hacks
  · obtain ⟨hie, hccpn, _⟩ := interruptTaken_iff.1 htaken
    obtain ⟨_, ht⟩ := interruptEntered_of_interruptEntry h
    exact ⟨hie, hccpn, ht⟩
  · exact absurd (exec_effect h).acks hacks

/-- Settles O18: the step asks for a deferred FCD trap before it asks for an interrupt. -/
theorem deferredFcdComesFirst : Obligations.DeferredFcdComesFirst := by
  intro s hio hfcd hc
  have hmode : reservedMode (presentInputs s) = false := reservedMode_eq_false_iff.2 (by simpa using hio)
  obtain ⟨t, he, ht⟩ := trapEntry_of_canSave .fcd s.pc (s := (presentInputs s).setFcdDeferred false) hc
  have htake : takeDeferredFcd (presentInputs s) = .next t := by rw [takeDeferredFcd, presentInputs_pc, he]
  exact ⟨t, coreStep_eq_next.2 ⟨hmode, .inl ⟨by simpa using hfcd, htake⟩⟩, ht⟩

/-- Settles O19: the save, the handler's entry, and the acceptance. -/
theorem interruptEntryEffect : Obligations.InterruptEntryEffect := fun _ => interruptEntry_of_canSave

/-- Settles O20: one operation for every trap; the classes and numbers are entries of two tables. -/
theorem trapEntryEffect : Obligations.TrapEntryEffect := by
  refine ⟨?entry, rfl, fun tin => ⟨rfl, rfl⟩⟩
  intro trap ret s hc
  obtain ⟨t, he, ht⟩ := trapEntry_of_canSave trap ret hc
  exact ⟨t, he, ht, ht.pc⟩

/-- Settles O21: every entry writes the PSW of a handler. -/
theorem everyEntryIsInSupervisorMode : Obligations.EveryEntryIsInSupervisorMode := fun _ _ h => h.psw_io

/-- Settles O22: A[10] is word 2 of the context saved, and the entry chooses it by PSW.IS. -/
theorem stackAtEntry : Obligations.StackAtEntry := by
  intro s t h
  obtain ⟨ret, safety, h⟩ := exists_handlerEntered_of_entry h
  obtain ⟨hupper, _⟩ := h.saved.words
  refine ⟨(hupper rfl).w2, fun his => ?_, fun his => ?_, congrArg CoreRegs.isp h.system.core⟩
  · rw [h.a10, his, if_neg (by simp)]
  · rw [h.a10, his, if_pos rfl]

/-- Settles O23: PCXI is word 0 of the context saved, and its new fields are those of ICR. -/
theorem outerInterruptStateGoesToTheCsa : Obligations.OuterInterruptStateGoesToTheCsa := by
  intro s t h
  obtain ⟨ret, safety, h⟩ := exists_handlerEntered_of_entry h
  obtain ⟨hupper, _⟩ := h.saved.words
  exact ⟨(hupper rfl).w0, by rw [h.saved.pcxi, Pcxi.pie_make], by rw [h.saved.pcxi, Pcxi.pcpn_make]⟩

/-- Settles O24: the RFE finds the context the entry saved and a counter at 0, and restores what was saved. -/
theorem entryThenRfeResumes : Obligations.EntryThenRfeResumes := by
  intro s t ret i hi hret hrfe he
  obtain ⟨hc, safety, h⟩ := handlerEntered_of_entry he
  have hplat := h.system.platform
  have hw := h.saved.wordsAt
  have hlists := h.saved.listsRestored hplat hi (resumedState_restored hw)
  have hpc : regTarget t.a[11] = ret := by
    rw [h.a11]
    exact evenBase_of_even hret
  have hexec : exec i t = .next (resumedState (upperWords s) t) :=
    (hrfe.exec_eq t).trans (returnFromException_of_canRestore (h.saved.canRestore hplat hc) h.not_nest hw)
  exact ⟨_, hexec, h.sameRegisters_resumed, hpc, h.psw_resumed hi, hlists.pcxi, hlists.fcx, h.icr_resumed _,
    h.system.trans resumedState_sameSystemAndFree.toSameSystem, hlists.memory, hlists.link⟩

/-- Settles O25: each of them saves a context before anything else that it does. -/
theorem freeListUnderflowStopsEverySave : Obligations.FreeListUnderflowStopsEverySave := fun _ h =>
  ⟨fun _ target len hi => hi.exec_eq.trans (callTo_of_null h target len), execSvlcx_of_null h,
    fun _ p len hi hs => (hi.exec_eq _).trans (beginIsr_of_null h hs p len), fun _ => trapEntry_of_null h,
    interruptEntry_of_null h, fun _ _ => trapEntry_of_null h⟩

/-- Settles O29: each is raised by the check of its instruction, and the trap finds its CSA. -/
theorem callDepthTraps : Obligations.CallDepthTraps := by
  intro s hc hcde
  refine ⟨?cdo, ?cdu, ?nest⟩
  case cdo =>
    intro i target len hi hover
    rw [hi.exec_eq, callTo_eq_cdo hc hcde hover]
    exact trapEntry_of_canSave .cdo s.pc hc
  case cdu =>
    intro i hi hunder
    rw [hi.exec_eq, returnFromCall_eq_cdu hcde hunder]
    exact trapEntry_of_canSave .cdu s.pc hc
  case nest =>
    intro i hi hpcx hul hcount
    rw [hi.exec_eq, returnFromException_eq_nest hpcx hul hcde hcount]
    exact trapEntry_of_canSave .nest s.pc hc

/-- Settles O31: the checks of the three restores, and a load that has none. -/
theorem wrongContextTypeRaisesCtyp : Obligations.WrongContextTypeRaisesCtyp := by
  refine ⟨rfl, ?restores, ?loads⟩
  case restores =>
    intro s hpcx
    exact ⟨fun i hi hcdu hul => (hi.exec_eq s).trans (returnFromCall_eq_ctyp hcdu hpcx hul),
      fun i hi hul => (hi.exec_eq s).trans (returnFromException_eq_ctyp hpcx hul), execRslcx_eq_ctyp hpcx⟩
  case loads =>
    intro s t i upper ea v hi he
    rw [hi.exec_eq] at he
    rw [(hi.setPcxi v).exec_eq, loadContext_setPcxi v he]

/-- Settles O44: the mode is checked first, and the trap finds its CSA. -/
theorem privilegeViolationsTrap : Obligations.PrivilegeViolationsTrap := by
  intro s hc hio
  have hpriv := trapEntry_of_canSave .priv s.pc hc
  refine ⟨fun i hi => by rwa [hi.exec_eq_priv hio], fun huser => ?_⟩
  have hno : ¬ mayControlInterrupts s = true := by
    rw [mayControlInterrupts_iff]
    exact fun h => h.elim hio huser
  have henable : exec .enable s = raiseTrap .priv s := if_neg hno
  have hdisable : exec .disable s = raiseTrap .priv s := if_neg hno
  exact ⟨by rwa [henable], by rwa [hdisable]⟩

/-- Settles O55: the inputs set PIPN; entries, masks and the writes of ICR leave it out. -/
theorem pipnBelongsToTheIcu : Obligations.PipnBelongsToTheIcu := by
  refine ⟨?presented, ?kept⟩
  case presented =>
    intro s x xs h
    rw [presentInputs_cons s h, State.setEndinits_icr, State.setIcr_icr, Icr.pipn_setPipn]
  case kept =>
    intro s t h
    obtain h | ⟨i, _, h⟩ := step_entry_or_effect h
    · exact h.pipn
    · obtain h | ⟨_, h⟩ | h := h.icr
      · exact h.pipn
      · exact h
      · rw [h]

/-- Settles O57: of all a step can do, only entries and the instructions of R220 write ICR. -/
theorem interruptStateChangesOnlyBy : Obligations.InterruptStateChangesOnlyBy := by
  intro s t h hchange
  obtain h | ⟨i, hf, h⟩ := step_entry_or_effect h
  · exact .inl h
  · obtain h | ⟨hi, _⟩ | h := h.icr
    · exact .inl h
    · exact .inr ⟨i, hf, hi.congr (presentInputs_platform s)⟩
    · simp [h] at hchange

/-- Settles O58: of all a step can do, only entries and loads of PSW write PSW.IO. -/
theorem modeChangesOnlyBy : Obligations.ModeChangesOnlyBy := by
  intro s t h hchange
  rw [← presentInputs_psw s] at hchange ⊢
  obtain h | ⟨i, hf, h⟩ := step_entry_or_effect h
  · exact .inl ⟨h, h.psw_io⟩
  · obtain h | ⟨hi, hs⟩ | h := h.psw_io
    · exact .inl ⟨h, h.psw_io⟩
    · exact .inr ⟨i, hf, hi.congr (presentInputs_platform s), hs⟩
    · exact absurd h hchange

/-- Settles O14: the bytes at pc are what the fetch reads, and no ISYNC is missing. -/
theorem stepRunsDecodedInstruction : Obligations.StepRunsDecodedInstruction := by
  intro s i bytes hrun hb hd hsync
  have hfetch : fetch (presentInputs s) = .next i := fetch_of_decode (by simpa using hb) hd
  have hno : ¬ awaitsIsync i (presentInputs s) = true := by simpa [awaitsIsync] using hsync
  rw [step, hrun.coreStep_eq, hfetch, andThen_next, if_neg hno]

/-- Settles O30: the null pointer is checked before the kind. -/
theorem nullPreviousListRaisesCsu : Obligations.NullPreviousListRaisesCsu := fun s hpcx =>
  ⟨fun _ hi hcdu => (hi.exec_eq s).trans (returnFromCall_eq_csu hcdu hpcx),
    fun _ hi => (hi.exec_eq s).trans (returnFromException_eq_csu hpcx), execRslcx_eq_csu hpcx⟩

end

section
/-! PROOFS. Reset (70_reset_and_hazards.md): the state the machine starts from meets the invariant. That every step
keeps it is `stepKeepsInvariant`. -/

open Sys2Proof Sys2Proof.Machine

/-- Settles O13: memory is empty, LAYOUT is the suggested one and nothing is pending; the registers that reset
clears have no bit set, and the words RESET gives pc, PSW and BTV have none in a reserved place. -/
theorem invariantAtReset : Obligations.InvariantAtReset where
  memory := rfl
  pcEven := show Reset.pc.getLsbD 0 = false by decide
  psw := show Reset.psw &&& 0x00FF0000#32 = 0#32 by decide
  pcxi := BitVec.zero_and
  fcx := BitVec.zero_and
  lcx := BitVec.zero_and
  icr := BitVec.zero_and
  btv := show Reset.btv &&& 0x00000001#32 = 0#32 by decide
  syscon := BitVec.zero_and
  pending := show ¬ (false = true ∧ false = true) by decide
  layout := Layout.wf_reset

end
